-- ==== Sys2Proof/Word.lean ====
section
/-! DEFINITION. The word type of the Biquad coefficient calculator (BQC).

Every register and every bus transaction is 64 bits wide (spec 00_scope.md R6 `DATA_WIDTH`, R7: "Every register
value is a 64-bit word"; 10_state.md R20). -/

namespace Sys2Proof

/-- A register or data word, `bits64` of R7. -/
abbrev Word := BitVec 64

/-- One byte of the register window (20_memory.md R60: "The window is byte-addressed"). -/
abbrev Byte := BitVec 8

/-- A 16-bit transaction descriptor, `TD[15:0]` of 30_encoding.md R81. -/
abbrev Descriptor := BitVec 16

/-- A byte offset within the 256-byte window, the field `OFF` of R81 (8 bits). -/
abbrev Offset := BitVec 8

end Sys2Proof
end

