-- ==== Sys2Proof/Config.lean ====
section
/-! DEFINITION. What an implementation of the BQC fixes: the three OPEN parameters of 00_scope.md R6 (`BASE`, `PRIM`,
`LAT`) and the one value the spec leaves "any value" (NaN encodings, 93_implementation_defined.md I8). Each is an
opaque constant with no body: no proof can see what it is. -/

namespace Sys2Proof.Config

/-- The number of the 256-byte page at which the platform places the register window (R6 `BASE`, 20_memory.md R60,
93 I3). DESIGN CHOICE (log 11): BASE is given by its page number, so that it is 256-byte aligned by construction. -/
opaque basePage : Nat

/-- `BASE`, "256-byte aligned" (R6, R60). -/
def base : Nat := 256 * basePage

/-- Where the exact result of `Cos64` is not representable, R103 lets an implementation return either of the two
adjacent binary64 values. For the operand whose encoding is the argument: `false` the nearer one (what `PRIM_REF` of R104
returns), `true` the other one. "Which of the two faithful values each function returns is the open part of `PRIM`"
(R103; 93 I1). Free, log 8. -/
opaque cosTakesOther : Word → Bool

/-- The same choice for `Sin64` (R103). Free, log 8. -/
opaque sinTakesOther : Word → Bool

/-- The same choice for `Pow10_64` (R103). Free, log 8. -/
opaque pow10TakesOther : Word → Bool

/-- The encoding that `bits(x)` gives for a NaN: "whatever encoding the operation produced; no NaN is ever written to
an architectural register" (R8; 93 I8 "`any value`, and unobservable"). Free, log 12. -/
opaque nanEncoding : Word

/-- One less than the number of clock cycles from acceptance to completion of a command with the given snapshot (kind,
f, g, q, fs, fval); free (R6 `LAT`, 70 R264, 93 I2; log 10). -/
opaque latencyBeyondOne : Word → Word → Word → Word → Word → Bool → Nat

/-- `LAT`: "finite, at least 1, and it may depend on the operands; no rule depends on its value" (R6, R264). The model
has no time (R263), so no definition of the machine uses it. -/
def lat (kind f g q fs : Word) (fval : Bool) : Nat := latencyBeyondOne kind f g q fs fval + 1

end Sys2Proof.Config
end

