-- ==== Sys2Proof/Syntax.lean ====
section
/-! DEFINITION. The instruction set as syntax: one constructor per row of spec/opcode_table.json (41 rows).

The block has no instruction stream; two encodings take its place (30_encoding.md, introduction; R80): the bus
transaction (format `bus`, with a data word on writes) and the command word (format `cmd`). -/

namespace Sys2Proof

/-- The nine filter kinds, in the order of R83 ("The kind codes follow the order of doc00 §3's enumeration"). -/
inductive FilterKind where
  | lowpass
  | highpass
  | bandpassSkirt
  | bandpassPeak
  | notch
  | allpass
  | peaking
  | lowShelf
  | highShelf
  deriving DecidableEq, Repr

/-- An instruction: a row of spec/opcode_table.json with its operands. -/
inductive Instr where
  -- format `cmd`: the nine COMPUTE commands, kinds 0 to 8 (R82, R83)
  | computeLowpass
  | computeHighpass
  | computeBpskirt
  | computeBppeak
  | computeNotch
  | computeAllpass
  | computePeaking
  | computeLowshelf
  | computeHighshelf
  -- format `bus`: reads carry no operand, writes carry the 64-bit data word (R80)
  | rdCmd
  | wrCmd (w : Word)
  | rdStatus
  | wrStatus (w : Word)
  | rdCtrl
  | wrCtrl (w : Word)
  | rdSampleRate
  | wrSampleRate (w : Word)
  | rdFreq
  | wrFreq (w : Word)
  | rdGainDb
  | wrGainDb (w : Word)
  | rdQ
  | wrQ (w : Word)
  | rdB0
  | wrB0 (w : Word)
  | rdB1
  | wrB1 (w : Word)
  | rdB2
  | wrB2 (w : Word)
  | rdA0
  | wrA0 (w : Word)
  | rdA1
  | wrA1 (w : Word)
  | rdA2
  | wrA2 (w : Word)
  -- the reserved offsets (R196, R197): `off` is the byte offset, which the row does not fix wholly
  | rdRsvd38
  | wrRsvd38 (w : Word)
  | rdRsvd70 (off : Offset)
  | wrRsvd70 (off : Offset) (w : Word)
  | rdRsvd80 (off : Offset)
  | wrRsvd80 (off : Offset) (w : Word)
  deriving DecidableEq, Repr

/-- The row's mnemonic in spec/opcode_table.json. -/
def Instr.mnemonic : Instr → String
  | .computeLowpass => "COMPUTE.LOWPASS"
  | .computeHighpass => "COMPUTE.HIGHPASS"
  | .computeBpskirt => "COMPUTE.BPSKIRT"
  | .computeBppeak => "COMPUTE.BPPEAK"
  | .computeNotch => "COMPUTE.NOTCH"
  | .computeAllpass => "COMPUTE.ALLPASS"
  | .computePeaking => "COMPUTE.PEAKING"
  | .computeLowshelf => "COMPUTE.LOWSHELF"
  | .computeHighshelf => "COMPUTE.HIGHSHELF"
  | .rdCmd => "RD.CMD"
  | .wrCmd _ => "WR.CMD"
  | .rdStatus => "RD.STATUS"
  | .wrStatus _ => "WR.STATUS"
  | .rdCtrl => "RD.CTRL"
  | .wrCtrl _ => "WR.CTRL"
  | .rdSampleRate => "RD.SAMPLE_RATE"
  | .wrSampleRate _ => "WR.SAMPLE_RATE"
  | .rdFreq => "RD.FREQ"
  | .wrFreq _ => "WR.FREQ"
  | .rdGainDb => "RD.GAIN_DB"
  | .wrGainDb _ => "WR.GAIN_DB"
  | .rdQ => "RD.Q"
  | .wrQ _ => "WR.Q"
  | .rdB0 => "RD.B0"
  | .wrB0 _ => "WR.B0"
  | .rdB1 => "RD.B1"
  | .wrB1 _ => "WR.B1"
  | .rdB2 => "RD.B2"
  | .wrB2 _ => "WR.B2"
  | .rdA0 => "RD.A0"
  | .wrA0 _ => "WR.A0"
  | .rdA1 => "RD.A1"
  | .wrA1 _ => "WR.A1"
  | .rdA2 => "RD.A2"
  | .wrA2 _ => "WR.A2"
  | .rdRsvd38 => "RD.RSVD_38"
  | .wrRsvd38 _ => "WR.RSVD_38"
  | .rdRsvd70 _ => "RD.RSVD_70"
  | .wrRsvd70 _ _ => "WR.RSVD_70"
  | .rdRsvd80 _ => "RD.RSVD_80"
  | .wrRsvd80 _ _ => "WR.RSVD_80"

/-- The filter kind a COMPUTE command names (R83); none for a bus transaction. -/
def Instr.filterKind : Instr → Option FilterKind
  | .computeLowpass => some .lowpass
  | .computeHighpass => some .highpass
  | .computeBpskirt => some .bandpassSkirt
  | .computeBppeak => some .bandpassPeak
  | .computeNotch => some .notch
  | .computeAllpass => some .allpass
  | .computePeaking => some .peaking
  | .computeLowshelf => some .lowShelf
  | .computeHighshelf => some .highShelf
  | .rdCmd | .wrCmd _ | .rdStatus | .wrStatus _ | .rdCtrl | .wrCtrl _ | .rdSampleRate | .wrSampleRate _
  | .rdFreq | .wrFreq _ | .rdGainDb | .wrGainDb _ | .rdQ | .wrQ _ | .rdB0 | .wrB0 _ | .rdB1 | .wrB1 _
  | .rdB2 | .wrB2 _ | .rdA0 | .wrA0 _ | .rdA1 | .wrA1 _ | .rdA2 | .wrA2 _ | .rdRsvd38 | .wrRsvd38 _
  | .rdRsvd70 _ | .wrRsvd70 _ _ | .rdRsvd80 _ | .wrRsvd80 _ _ => none

/-- The COMPUTE command of a kind (R83's table read the other way). -/
def Instr.compute : FilterKind → Instr
  | .lowpass => .computeLowpass
  | .highpass => .computeHighpass
  | .bandpassSkirt => .computeBpskirt
  | .bandpassPeak => .computeBppeak
  | .notch => .computeNotch
  | .allpass => .computeAllpass
  | .peaking => .computePeaking
  | .lowShelf => .computeLowshelf
  | .highShelf => .computeHighshelf

/-- The register reads: the `RD` rows of opcode_table.json. -/
def Instr.isRead : Instr → Bool
  | .rdCmd | .rdStatus | .rdCtrl | .rdSampleRate | .rdFreq | .rdGainDb | .rdQ | .rdB0 | .rdB1 | .rdB2 | .rdA0
  | .rdA1 | .rdA2 | .rdRsvd38 | .rdRsvd70 _ | .rdRsvd80 _ => true
  | .computeLowpass | .computeHighpass | .computeBpskirt | .computeBppeak | .computeNotch | .computeAllpass
  | .computePeaking | .computeLowshelf | .computeHighshelf | .wrCmd _ | .wrStatus _ | .wrCtrl _
  | .wrSampleRate _ | .wrFreq _ | .wrGainDb _ | .wrQ _ | .wrB0 _ | .wrB1 _ | .wrB2 _ | .wrA0 _ | .wrA1 _
  | .wrA2 _ | .wrRsvd38 _ | .wrRsvd70 _ _ | .wrRsvd80 _ _ => false

/-- The bus transactions (format `bus`): every row but the nine COMPUTE rows. -/
def Instr.isBus (i : Instr) : Bool := i.filterKind.isNone

end Sys2Proof
end

