-- ==== Sys2Proof/WellFormed.lean ====
section
/-! DEFINITION. Which instruction terms are instructions of the block.

Only the reserved-offset rows whose offset is an operand can be ill formed: every data word is allowed
(10_state.md R22: "whatever the pattern"), and every other row fixes its descriptor or command word wholly. -/

namespace Sys2Proof

/-- The offsets of the rows `RD.RSVD_70` and `WR.RSVD_70`: 0x70 and 0x78 (42_host_access.md R196, R197). -/
def Offset.isRsvd70 (off : Offset) : Bool := off == 0x70#8 || off == 0x78#8

/-- The offsets of the rows `RD.RSVD_80` and `WR.RSVD_80`: "0x80–0xF8 … in steps of 8" (R196, R197). -/
def Offset.isRsvd80 (off : Offset) : Bool := off.getLsbD 7 && off.extractLsb' 0 3 == 0#3

/-- The instruction is one the block can receive. -/
def Instr.wellFormed : Instr → Bool
  | .rdRsvd70 off => Offset.isRsvd70 off
  | .wrRsvd70 off _ => Offset.isRsvd70 off
  | .rdRsvd80 off => Offset.isRsvd80 off
  | .wrRsvd80 off _ => Offset.isRsvd80 off
  | .computeLowpass | .computeHighpass | .computeBpskirt | .computeBppeak | .computeNotch | .computeAllpass
  | .computePeaking | .computeLowshelf | .computeHighshelf | .rdCmd | .wrCmd _ | .rdStatus | .wrStatus _ | .rdCtrl
  | .wrCtrl _ | .rdSampleRate | .wrSampleRate _ | .rdFreq | .wrFreq _ | .rdGainDb | .wrGainDb _ | .rdQ | .wrQ _
  | .rdB0 | .wrB0 _ | .rdB1 | .wrB1 _ | .rdB2 | .wrB2 _ | .rdA0 | .wrA0 _ | .rdA1 | .wrA1 _ | .rdA2 | .wrA2 _
  | .rdRsvd38 | .wrRsvd38 _ => true

end Sys2Proof
end

