-- ==== Sys2Proof/Decode.lean ====
section
/-! DEFINITION. Decoding and encoding (30_encoding.md R80–R86; spec/opcode_table.json).

Decoding is total in both stages (R85): every 16-bit descriptor and every 64-bit command word is either an instruction
or rejected by name. -/

namespace Sys2Proof

/-! ### The transaction descriptor, R81 -/

namespace Descriptor

/-- `WE`, TD[15]: 1 = write, 0 = read. -/
def we (td : Descriptor) : Bool := td.getLsbD 15

/-- `SIZE`, TD[14:12]: log2 of the access size in bytes. -/
def size (td : Descriptor) : BitVec 3 := td.extractLsb' 12 3

/-- `RSV`, TD[11:8]: "it is 0 in every descriptor a bus produces". -/
def rsv (td : Descriptor) : BitVec 4 := td.extractLsb' 8 4

/-- `OFF`, TD[7:0]: the byte offset within the window. -/
def off (td : Descriptor) : Offset := td.extractLsb' 0 8

/-- The descriptor with the given fields. -/
def make (we : Bool) (size : BitVec 3) (rsv : BitVec 4) (off : Offset) : Descriptor :=
  ((BitVec.ofBool we ++ size) ++ rsv) ++ off

/-- "A transaction is admitted only when `SIZE = 3`, `RSV = 0` and `OFF[2:0] = 0`" (R81; 20_memory.md R63). -/
def admitted (td : Descriptor) : Bool :=
  td.size == 3#3 && td.rsv == 0#4 && td.off.extractLsb' 0 3 == 0#3

end Descriptor

/-- Why an encoding is no instruction. The first three are the descriptors that are not admitted (R86a: they raise
AccessError, 60_exceptions.md R224); the last is a command word above 8 (R86c: UnsupportedFilterKind, R223). -/
inductive Reject where
  | badSize
  | rsvNotZero
  | misaligned
  | kindUnsupported
  deriving DecidableEq, Repr

/-! ### Stage 1: the bus transaction, R85 `decode_bus` -/

/-- The row of an admitted descriptor, by direction and offset (10_state.md R20's offsets). `data` are the data lines,
which only a write carries (R80). An offset that is no multiple of 8 reaches no row. -/
def decodeOffset (we : Bool) (off : Offset) (data : Word) : Except Reject Instr :=
  if off = 0x00#8 then .ok (if we then .wrCmd data else .rdCmd)
  else if off = 0x08#8 then .ok (if we then .wrStatus data else .rdStatus)
  else if off = 0x10#8 then .ok (if we then .wrCtrl data else .rdCtrl)
  else if off = 0x18#8 then .ok (if we then .wrSampleRate data else .rdSampleRate)
  else if off = 0x20#8 then .ok (if we then .wrFreq data else .rdFreq)
  else if off = 0x28#8 then .ok (if we then .wrGainDb data else .rdGainDb)
  else if off = 0x30#8 then .ok (if we then .wrQ data else .rdQ)
  else if off = 0x38#8 then .ok (if we then .wrRsvd38 data else .rdRsvd38)
  else if off = 0x40#8 then .ok (if we then .wrB0 data else .rdB0)
  else if off = 0x48#8 then .ok (if we then .wrB1 data else .rdB1)
  else if off = 0x50#8 then .ok (if we then .wrB2 data else .rdB2)
  else if off = 0x58#8 then .ok (if we then .wrA0 data else .rdA0)
  else if off = 0x60#8 then .ok (if we then .wrA1 data else .rdA1)
  else if off = 0x68#8 then .ok (if we then .wrA2 data else .rdA2)
  else if Offset.isRsvd70 off then .ok (if we then .wrRsvd70 off data else .rdRsvd70 off)
  else if Offset.isRsvd80 off then .ok (if we then .wrRsvd80 off data else .rdRsvd80 off)
  else .error .misaligned

/-- `decode_bus(TD)` of R85, with the data lines of the transaction. -/
def decodeBus (td : Descriptor) (data : Word) : Except Reject Instr :=
  if td.size ≠ 3#3 then .error .badSize
  else if td.rsv ≠ 0#4 then .error .rsvNotZero
  else if td.off.extractLsb' 0 3 ≠ 0#3 then .error .misaligned
  else decodeOffset td.we td.off data

/-! ### Stage 2: the command word, R85 `decode_cmd` -/

/-- The kind code of R83. -/
def FilterKind.code : FilterKind → Nat
  | .lowpass => 0
  | .highpass => 1
  | .bandpassSkirt => 2
  | .bandpassPeak => 3
  | .notch => 4
  | .allpass => 5
  | .peaking => 6
  | .lowShelf => 7
  | .highShelf => 8

/-- The kind of a command word: "`KIND = CMD[63:0]`, read as an unsigned 64-bit integer … no bit of the word is
ignored" (R82). -/
def kindOfWord (w : Word) : Option FilterKind :=
  if w = 0#64 then some .lowpass
  else if w = 1#64 then some .highpass
  else if w = 2#64 then some .bandpassSkirt
  else if w = 3#64 then some .bandpassPeak
  else if w = 4#64 then some .notch
  else if w = 5#64 then some .allpass
  else if w = 6#64 then some .peaking
  else if w = 7#64 then some .lowShelf
  else if w = 8#64 then some .highShelf
  else none

/-- `decode_cmd(w)` of R85. -/
def decodeCmd (w : Word) : Except Reject Instr :=
  match kindOfWord w with
  | some k => .ok (.compute k)
  | none => .error .kindUnsupported

/-! ### Both formats together -/

/-- What carries an instruction (R80): the signals of a bus transaction, or the data word of an accepted write to
`CMD`. -/
inductive Encoding where
  | bus (td : Descriptor) (data : Word)
  | cmd (w : Word)
  deriving DecidableEq, Repr

/-- The decoder. -/
def decode : Encoding → Except Reject Instr
  | .bus td data => decodeBus td data
  | .cmd w => decodeCmd w

/-- The instruction whose bits, numbered as spec/opcode_table.json numbers them, are `w`: a 64-bit row is a command word,
a 16-bit row is a descriptor, whose write's data word (bits 79..16) is 0 because it lies above the row's bits; 80 bits are
a descriptor with its data word. -/
def decodeTableWord (nbits w : Nat) : Option Instr :=
  if nbits = 64 then (decodeCmd (BitVec.ofNat 64 w)).toOption
  else if nbits = 16 ∨ nbits = 80 then
    (decodeBus (BitVec.ofNat 16 w) (BitVec.ofNat 64 (w >>> 16))).toOption
  else none

/-! ### The encoder -/

/-- The descriptor of an admitted transaction at an offset: SIZE = 3, RSV = 0 (R81). -/
def admittedTd (we : Bool) (off : Offset) : Descriptor := Descriptor.make we 3#3 0#4 off

/-- The signals of a read at an offset; a read drives no data, the lines are taken as 0 (log 16). -/
def encodeRead (off : Offset) : Encoding := .bus (admittedTd false off) 0#64

/-- The signals of a write of `w` at an offset. -/
def encodeWrite (off : Offset) (w : Word) : Encoding := .bus (admittedTd true off) w

/-- The words of an instruction, from R83's table of kind codes, R20's table of offsets and R81's descriptor. -/
def encode : Instr → Encoding
  | .computeLowpass => .cmd 0#64
  | .computeHighpass => .cmd 1#64
  | .computeBpskirt => .cmd 2#64
  | .computeBppeak => .cmd 3#64
  | .computeNotch => .cmd 4#64
  | .computeAllpass => .cmd 5#64
  | .computePeaking => .cmd 6#64
  | .computeLowshelf => .cmd 7#64
  | .computeHighshelf => .cmd 8#64
  | .rdCmd => encodeRead 0x00#8
  | .wrCmd w => encodeWrite 0x00#8 w
  | .rdStatus => encodeRead 0x08#8
  | .wrStatus w => encodeWrite 0x08#8 w
  | .rdCtrl => encodeRead 0x10#8
  | .wrCtrl w => encodeWrite 0x10#8 w
  | .rdSampleRate => encodeRead 0x18#8
  | .wrSampleRate w => encodeWrite 0x18#8 w
  | .rdFreq => encodeRead 0x20#8
  | .wrFreq w => encodeWrite 0x20#8 w
  | .rdGainDb => encodeRead 0x28#8
  | .wrGainDb w => encodeWrite 0x28#8 w
  | .rdQ => encodeRead 0x30#8
  | .wrQ w => encodeWrite 0x30#8 w
  | .rdB0 => encodeRead 0x40#8
  | .wrB0 w => encodeWrite 0x40#8 w
  | .rdB1 => encodeRead 0x48#8
  | .wrB1 w => encodeWrite 0x48#8 w
  | .rdB2 => encodeRead 0x50#8
  | .wrB2 w => encodeWrite 0x50#8 w
  | .rdA0 => encodeRead 0x58#8
  | .wrA0 w => encodeWrite 0x58#8 w
  | .rdA1 => encodeRead 0x60#8
  | .wrA1 w => encodeWrite 0x60#8 w
  | .rdA2 => encodeRead 0x68#8
  | .wrA2 w => encodeWrite 0x68#8 w
  | .rdRsvd38 => encodeRead 0x38#8
  | .wrRsvd38 w => encodeWrite 0x38#8 w
  | .rdRsvd70 off => encodeRead off
  | .wrRsvd70 off w => encodeWrite off w
  | .rdRsvd80 off => encodeRead off
  | .wrRsvd80 off w => encodeWrite off w

/-! ### The opcode table, format `bus` -/

/-- The pattern of a row of spec/opcode_table.json: it accepts the descriptors whose bits under `mask` are those of
`pattern` (the table's `match`). -/
structure BusRow where
  mnemonic : String
  pattern : Descriptor
  mask : Descriptor
  deriving DecidableEq, Repr

/-- The row accepts the descriptor. -/
def BusRow.accepts (r : BusRow) (td : Descriptor) : Bool := td &&& r.mask == r.pattern

/-- The rows that fix the whole descriptor: one register, one direction. -/
def busTableRegisters : List BusRow :=
  [⟨"RD.CMD", 0x3000#16, 0xFFFF#16⟩, ⟨"WR.CMD", 0xB000#16, 0xFFFF#16⟩,
   ⟨"RD.STATUS", 0x3008#16, 0xFFFF#16⟩, ⟨"WR.STATUS", 0xB008#16, 0xFFFF#16⟩,
   ⟨"RD.CTRL", 0x3010#16, 0xFFFF#16⟩, ⟨"WR.CTRL", 0xB010#16, 0xFFFF#16⟩,
   ⟨"RD.SAMPLE_RATE", 0x3018#16, 0xFFFF#16⟩, ⟨"WR.SAMPLE_RATE", 0xB018#16, 0xFFFF#16⟩,
   ⟨"RD.FREQ", 0x3020#16, 0xFFFF#16⟩, ⟨"WR.FREQ", 0xB020#16, 0xFFFF#16⟩,
   ⟨"RD.GAIN_DB", 0x3028#16, 0xFFFF#16⟩, ⟨"WR.GAIN_DB", 0xB028#16, 0xFFFF#16⟩,
   ⟨"RD.Q", 0x3030#16, 0xFFFF#16⟩, ⟨"WR.Q", 0xB030#16, 0xFFFF#16⟩]

/-- The rows of the result registers. -/
def busTableResults : List BusRow :=
  [⟨"RD.B0", 0x3040#16, 0xFFFF#16⟩, ⟨"WR.B0", 0xB040#16, 0xFFFF#16⟩,
   ⟨"RD.B1", 0x3048#16, 0xFFFF#16⟩, ⟨"WR.B1", 0xB048#16, 0xFFFF#16⟩,
   ⟨"RD.B2", 0x3050#16, 0xFFFF#16⟩, ⟨"WR.B2", 0xB050#16, 0xFFFF#16⟩,
   ⟨"RD.A0", 0x3058#16, 0xFFFF#16⟩, ⟨"WR.A0", 0xB058#16, 0xFFFF#16⟩,
   ⟨"RD.A1", 0x3060#16, 0xFFFF#16⟩, ⟨"WR.A1", 0xB060#16, 0xFFFF#16⟩,
   ⟨"RD.A2", 0x3068#16, 0xFFFF#16⟩, ⟨"WR.A2", 0xB068#16, 0xFFFF#16⟩]

/-- The rows of the reserved offsets. -/
def busTableReserved : List BusRow :=
  [⟨"RD.RSVD_38", 0x3038#16, 0xFFFF#16⟩, ⟨"WR.RSVD_38", 0xB038#16, 0xFFFF#16⟩,
   ⟨"RD.RSVD_70", 0x3070#16, 0xFFF7#16⟩, ⟨"WR.RSVD_70", 0xB070#16, 0xFFF7#16⟩,
   ⟨"RD.RSVD_80", 0x3080#16, 0xFF87#16⟩, ⟨"WR.RSVD_80", 0xB080#16, 0xFF87#16⟩]

/-- The 32 rows of format `bus`. -/
def busTable : List BusRow := busTableRegisters ++ busTableResults ++ busTableReserved

end Sys2Proof
end

