-- ==== Sys2Proof/Machine/State.lean ====
section
/-! DEFINITION. The state of the BQC (10_state.md R20, R31, R32), the outcomes of a step, and the state after reset
(70_reset_and_hazards.md R250). Plain data. -/

namespace Sys2Proof.Machine

/-- The reasons for the fault of R224. It is never the outcome of a step: it is what the sticky fault mark
`State.faultMark` records, because the block answers a transaction that is not admitted, changes nothing and goes on
(R224; log 4). -/
inductive Fault where
  /-- A bus transaction that is not admitted. Recorded by `raiseAccessError` (Machine/Ops.lean). Safe: "it is reached
  only by a transaction the host actually issued, with the block's state consistent before and after" (R224). -/
  | accessError
  deriving DecidableEq, Repr

/-- The reasons a step is refused. -/
inductive Refusal where
  /-- An instruction without a meaning. No arm of `exec` answers it: every row of the opcode table has its meaning.
  Safe. -/
  | notModelled (mnemonic : String)
  /-- STATUS holds an `ERRCAUSE` of 8–15 or the `ERRCLASS` 3, which no run reaches: "A model that reached one must
  `refuse`" (93_implementation_defined.md I11). Raised by `step` (Machine/Step.lean). Safe (log 13). -/
  | reservedErrorCode
  deriving DecidableEq, Repr

/-- The engine phase of R21 and R31. -/
inductive Phase where
  | idle
  | busy
  deriving DecidableEq, Repr

/-- The operand snapshot `snap` of R31: what the accept step captured (R120). -/
structure Snap where
  kind : Word
  f : Word
  g : Word
  q : Word
  fs : Word
  fval : Bool
  deriving DecidableEq, Repr

/-- One thing that happens next: a step of one of the three agents of 00_scope.md R5. The model's own type (log 1). -/
inductive Event where
  /-- A bus transaction the port accepts: its descriptor and its data lines. -/
  | bus (td : Descriptor) (data : Word)
  /-- The engine takes its completion step, if it has one enabled. -/
  | complete
  /-- The reset source asserts reset. -/
  | reset
  deriving DecidableEq, Repr

/-- How the port answers one transaction: "with data, an OK response or `AccessError`" (42_host_access.md R199). -/
inductive Response where
  | data (w : Word)
  | ok
  | accessError
  deriving DecidableEq, Repr

/-- The whole state. The first fourteen fields are the block's (R20, R31); the last three are the model's own. -/
structure State where
  /-- `STATUS`, offset 0x08 (R25). Fields by the accessors of Machine/Flags.lean. -/
  status : Word
  /-- `CTRL`, offset 0x10 (R24). -/
  ctrl : Word
  /-- `SAMPLE_RATE`, offset 0x18 (R23). -/
  sampleRate : Word
  /-- `FREQ`, offset 0x20 (R22). -/
  freq : Word
  /-- `GAIN_DB`, offset 0x28 (R22). -/
  gainDb : Word
  /-- `Q`, offset 0x30 (R22). -/
  q : Word
  /-- `B0`, offset 0x40 (R33). -/
  b0 : Word
  /-- `B1`, offset 0x48 (R33). -/
  b1 : Word
  /-- `B2`, offset 0x50 (R33). -/
  b2 : Word
  /-- `A0`, offset 0x58 (R33). -/
  a0 : Word
  /-- `A1`, offset 0x60 (R33). -/
  a1 : Word
  /-- `A2`, offset 0x68 (R33). -/
  a2 : Word
  /-- The engine phase, hidden (R31). -/
  phase : Phase
  /-- The operand snapshot, hidden (R31). -/
  snap : Snap
  /-- The model's sticky fault mark: "not architectural state, which no later step clears" (R224; log 4). -/
  faultMark : Option Fault
  /-- The events still to come, the next one first (the interleaving of R263; log 1). -/
  schedule : List Event
  /-- What the port has answered, the latest first (R198, R265; log 5). -/
  responses : List Response
  deriving DecidableEq, Repr

/-- The value of `snap` after reset. DESIGN CHOICE (log 7): R250 says "unspecified: any value … a model may leave it as
a free draw or set it to any fixed value". -/
def Snap.reset : Snap := { kind := 0#64, f := 0#64, g := 0#64, q := 0#64, fs := 0#64, fval := false }

/-- The state right after reset, R250. The model's own fields are empty: no event placed, nothing answered, no fault
recorded. -/
def State.reset : State :=
  { status := 0#64
    ctrl := 0#64
    sampleRate := 0x40E7700000000000#64
    freq := 0#64
    gainDb := 0#64
    q := 0#64
    b0 := 0#64
    b1 := 0#64
    b2 := 0#64
    a0 := 0#64
    a1 := 0#64
    a2 := 0#64
    phase := .idle
    snap := Snap.reset
    faultMark := none
    schedule := []
    responses := [] }

end Sys2Proof.Machine
end

