-- ==== Sys2Proof/Machine/Float.lean ====
section
/-! DEFINITION. IEEE 754 binary64 as R8 of 00_scope.md and R101 of 40_derivation.md use it: values, encodings, the five
operations rounded to nearest with ties to even, negation and the ordered comparisons. PRESUMED (log 14): the format
and the operations are "those of the IEEE 754 standard, which is not among the sources" (R8; 93 K1).

Operations convert their operands to integers, compute exactly, and round once. (`irreducible` only keeps the elaborator
from computing with them unasked.) The unit is 2^-1074, the smallest
positive binary64 value: every finite binary64 value is a whole number of units. -/

namespace Sys2Proof.Machine

/-! ### Values and encodings -/

/-- The magnitude (the low 63 bits of the encoding) of infinity. -/
abbrev magBound : Nat := 0x7FF0000000000000

/-- A binary64 value (R8). A finite value is its sign and its magnitude, the low 63 bits of its encoding (exponent and
fraction fields), which grows with the absolute value; a NaN carries no encoding (log 12). -/
inductive F64 where
  | nan
  | inf (neg : Bool)
  | fin (neg : Bool) (mag : Fin magBound)
  deriving DecidableEq, Repr

/-- `f64(w)`: "the IEEE 754 binary64 value whose encoding is the 64-bit word `w`" (R8). -/
def f64 (w : Word) : F64 :=
  let m := w.toNat % 2 ^ 63
  if h : m < magBound then .fin (w.getLsbD 63) ⟨m, h⟩
  else if m = magBound then .inf (w.getLsbD 63)
  else .nan

/-- The sign bit, bit 63, as a number. -/
def signBit (neg : Bool) : Nat := if neg then 2 ^ 63 else 0

/-- `bits(x)`: "the encoding of the binary64 value `x`" (R8); of a NaN a free value, never written (R134; log 12). -/
def bits : F64 → Word
  | .nan => Config.nanEncoding
  | .inf neg => BitVec.ofNat 64 (magBound + signBit neg)
  | .fin neg m => BitVec.ofNat 64 (m.val + signBit neg)

/-- `isFinite(x)` of R8. -/
def isFinite : F64 → Bool
  | .fin _ _ => true
  | .inf _ => false
  | .nan => false

/-- The absolute value of magnitude `m` in units of 2^-1074; for `m = magBound` the value 2^1024 that would follow the
largest finite one, which rounding compares against. -/
def units (m : Nat) : Nat :=
  if m < 2 ^ 52 then m else (2 ^ 52 + m % 2 ^ 52) * 2 ^ (m / 2 ^ 52 - 1)

/-- A finite value in units, with its sign. -/
def signedUnits (neg : Bool) (m : Nat) : Int :=
  if neg then - (units m : Int) else (units m : Int)

/-! ### Rounding -/

/-- `k n`, with `n` evaluated first; it is `k n` (`forceNat_eq`) and only keeps long computations flat. -/
def forceNat {α : Type} (n : Nat) (k : Nat → α) : α :=
  match n with
  | 0 => k 0
  | m + 1 => k (m + 1)

/-- The same for an integer. -/
def forceInt {α : Type} (i : Int) (k : Int → α) : α :=
  match i with
  | .ofNat n => forceNat n fun m => k (.ofNat m)
  | .negSucc n => forceNat n fun m => k (.negSucc m)

/-- The largest magnitude whose value is at most `n` units. -/
def floorMag (n : Nat) : Nat :=
  if n < 2 ^ 52 then n else (Nat.log2 n - 52) * 2 ^ 52 + n / 2 ^ (Nat.log2 n - 52)

/-- The value of a magnitude; from `magBound` on, an infinity (overflow, IEEE 754 round to nearest). -/
def ofMag (neg : Bool) (m : Nat) : F64 :=
  forceNat m fun m => if h : m < magBound then .fin neg ⟨m, h⟩ else .inf neg

/-- Of the two magnitudes `lo` and `lo + 1` the one nearer to the value whose double is `twice / d` units, the even one
when they are equally near: `cmp2` is how twice the value compares. -/
def nearerMag (lo : Nat) (cmp2 : Ordering) : Nat :=
  match cmp2 with
  | .lt => lo
  | .gt => lo + 1
  | .eq => if lo % 2 = 0 then lo else lo + 1

/-- The magnitude nearest to `n / d` units, ties to even. -/
def roundMag (n d : Nat) : Nat :=
  forceNat (floorMag (n / d)) fun lo => nearerMag lo (compare (2 * n) ((units lo + units (lo + 1)) * d))

/-- `± n / d` units rounded to nearest, ties to even. -/
def roundQuotient (neg : Bool) (n d : Nat) : F64 := ofMag neg (roundMag n d)

/-- Newton's iteration for the integer square root, from above. -/
def isqrtLoop (n : Nat) : Nat → Nat → Nat
  | 0, x => x
  | fuel + 1, x => forceNat ((x + n / x) / 2) fun y => if y < x then isqrtLoop n fuel y else x

/-- The integer square root, rounded down. -/
def isqrt (n : Nat) : Nat :=
  if n = 0 then 0 else isqrtLoop n (Nat.log2 n + 3) (2 ^ (Nat.log2 n / 2 + 1))

/-- The magnitude nearest to `√n` units, ties to even. -/
def roundSqrtMag (n : Nat) : Nat :=
  forceNat (floorMag (isqrt n)) fun lo => nearerMag lo (compare (4 * n) ((units lo + units (lo + 1)) ^ 2))

/-! ### The operations of R8 -/

/-- `fneg`: "flips the sign bit of `x` and changes nothing else. It never rounds." -/
def fneg : F64 → F64
  | .nan => .nan
  | .inf neg => .inf (!neg)
  | .fin neg m => .fin (!neg) m

/-- The sum of two finite values. An exact zero sum is +0 unless both operands are -0 (round to nearest). -/
def addFinite (a : Bool) (m : Nat) (b : Bool) (n : Nat) : F64 :=
  forceInt (signedUnits a m + signedUnits b n) fun v =>
    if v = 0 then ofMag (a && b) 0 else forceNat v.natAbs fun n => roundQuotient (decide (v < 0)) n 1

/-- `fadd`: addition, round to nearest even. -/
@[irreducible] def fadd : F64 → F64 → F64
  | .nan, _ => .nan
  | .inf _, .nan => .nan
  | .inf a, .inf b => if a = b then .inf a else .nan
  | .inf a, .fin _ _ => .inf a
  | .fin _ _, .nan => .nan
  | .fin _ _, .inf b => .inf b
  | .fin a m, .fin b n => addFinite a m.val b n.val

/-- `fsub`: subtraction, round to nearest even; `x - y` is `x + (-y)`. -/
def fsub (x y : F64) : F64 := fadd x (fneg y)

/-- `fmul`: multiplication, round to nearest even. -/
@[irreducible] def fmul : F64 → F64 → F64
  | .nan, _ => .nan
  | .inf _, .nan => .nan
  | .inf a, .inf b => .inf (a ^^ b)
  | .inf a, .fin b n => if n.val = 0 then .nan else .inf (a ^^ b)
  | .fin _ _, .nan => .nan
  | .fin a m, .inf b => if m.val = 0 then .nan else .inf (a ^^ b)
  | .fin a m, .fin b n => roundQuotient (a ^^ b) (units m.val * units n.val) (2 ^ 1074)

/-- `fdiv`: division, round to nearest even. -/
@[irreducible] def fdiv : F64 → F64 → F64
  | .nan, _ => .nan
  | .inf _, .nan => .nan
  | .inf _, .inf _ => .nan
  | .inf a, .fin b _ => .inf (a ^^ b)
  | .fin _ _, .nan => .nan
  | .fin a _, .inf b => ofMag (a ^^ b) 0
  | .fin a m, .fin b n =>
    if n.val = 0 then (if m.val = 0 then .nan else .inf (a ^^ b))
    else roundQuotient (a ^^ b) (units m.val * 2 ^ 1074) (units n.val)

/-- `fsqrt`: square root, round to nearest even (correctly rounded, R101; 93 K3). -/
@[irreducible] def fsqrt : F64 → F64
  | .nan => .nan
  | .inf neg => if neg then .nan else .inf false
  | .fin neg m =>
    if m.val = 0 then .fin neg m
    else if neg then .nan
    else ofMag false (roundSqrtMag (units m.val * 2 ^ 1074))

/-- `x < y`, the ordered comparison: false if either operand is a NaN, and +0.0 equals -0.0 (R8). -/
def flt : F64 → F64 → Bool
  | .nan, _ => false
  | .inf _, .nan => false
  | .inf a, .inf b => a && !b
  | .inf a, .fin _ _ => a
  | .fin _ _, .nan => false
  | .fin _ _, .inf b => !b
  | .fin a m, .fin b n => decide (signedUnits a m.val < signedUnits b n.val)

/-- `x > y`, the ordered comparison (R8). -/
def fgt (x y : F64) : Bool := flt y x

/-! ### Literals (R8, R102, R113) -/

/-- `+0.0`, `0x0000000000000000` (R113). -/
def zero : F64 := .fin false ⟨0, by decide⟩
/-- `1.0`, `0x3FF0000000000000` (R113). -/
def one : F64 := .fin false ⟨0x3FF0000000000000, by decide⟩
/-- `2.0`. -/
def two : F64 := .fin false ⟨0x4000000000000000, by decide⟩
/-- `40.0`. -/
def forty : F64 := .fin false ⟨0x4044000000000000, by decide⟩
/-- `-2.0` is `fneg(2.0)` (R8). -/
def minusTwo : F64 := fneg two
/-- `PI64`, `0x400921FB54442D18` (R102). -/
def pi64 : F64 := .fin false ⟨0x400921FB54442D18, by decide⟩
/-- `TWO_PI64 = fmul(2.0, PI64)` (R102). -/
def twoPi64 : F64 := fmul two pi64

end Sys2Proof.Machine
end

