-- ==== Sys2Proof/Machine/Prim.lean ====
section
/-! DEFINITION. The three primitives `Cos64`, `Sin64` and `Pow10_64`, the open parameter `PRIM` (40_derivation.md R103,
R104, R105).

R103 fixes the special values and asks for a faithful rounding elsewhere: the exact result where it is representable,
otherwise one of the two adjacent binary64 values, and "which of the two faithful values each function returns is the
open part of `PRIM`". So each primitive here computes the two candidates from an enclosure of the exact result by
integers, and a choice function says which one is returned. The choice functions of the machine are the free constants
of Config (log 8); the choice "always the nearer one" is `PRIM_REF` (R104). How the enclosure is computed is not
architectural (R105); log 9 says how sharp it is. -/

namespace Sys2Proof.Machine

/-- The parameter `PRIM` of R6. Not a field of State. -/
structure Prim where
  cos64 : F64 → F64
  sin64 : F64 → F64
  pow10 : F64 → F64

/-- For each primitive and each operand encoding: does it return the farther of the two faithful values? -/
structure PrimChoice where
  cosOther : Word → Bool
  sinOther : Word → Bool
  pow10Other : Word → Bool

/-! ### The two candidates -/

/-- The candidates for a result: adjacent magnitudes, or the same one twice when the result is representable; and
whether the larger one is the nearer. -/
structure Bracket where
  lo : Nat
  hi : Nat
  nearHi : Bool
  deriving DecidableEq, Repr

/-- The candidate taken: the nearer one, or the other one. -/
def Bracket.pick (b : Bracket) (other : Bool) : Nat := if b.nearHi != other then b.hi else b.lo

/-- The largest finite magnitude. -/
def maxMag : Nat := magBound - 1

/-- The candidates for a value between `l / d` and `u / d` units: the magnitude below it and the next one. If the
enclosure reaches a representable value, that value alone (it is then a faithful rounding whatever the exact result
is). The magnitude below is at most the largest finite one (R103: "that largest value or `+∞`"). -/
def bracketOf (l u d : Nat) : Bracket :=
  forceNat (min (floorMag (l / d)) maxMag) fun i =>
    forceNat (min (floorMag (u / d)) maxMag) fun j =>
      if i = j ∧ units i * d < l then
        { lo := i, hi := i + 1,
          nearHi :=
            if 2 * u < (units i + units (i + 1)) * d then false
            else if (units i + units (i + 1)) * d < 2 * l then true
            else i % 2 == 1 }
      else { lo := j, hi := j, nearHi := false }

/-! ### Cosine and sine

The operand is halved `k` times, the first Taylor terms give the versine `1 - cos y` and the sine of the small angle to
within 2 units of the last place, and `k` doublings (`1 - cos 2y = 2 (1 - cos y) (2 - (1 - cos y))`,
`sin 2y = 2 sin y cos y`) lead back, each making the error at most four times as large plus one. -/

/-- Operands below 2^-30 in absolute value. -/
def trigIsSmall (x : Nat) : Bool := decide (x < 2 ^ 1044)

/-- `E` with `|x| < 2^E`, for an operand of `x` units. -/
def trigExp (x : Nat) : Nat := Nat.log2 x + 1 - 1074

/-- The number `k` of halvings. -/
def trigHalvings (x : Nat) : Nat := 2 * trigExp x + 600

/-- The number of fraction bits of the fixed-point computation. -/
def trigBits (x : Nat) : Nat := 4 * trigExp x + 2350

/-- The error bound after the doublings. -/
def trigRadius (x : Nat) : Nat := 3 * 4 ^ trigHalvings x

/-- `1 - cos y ≈ y²/2` for `y = x / D`, scaled by `M`. -/
def versineStart (x D M : Nat) : Nat := x ^ 2 * M / (2 * D ^ 2)

/-- `sin y ≈ y - y³/6` for `y = x / D`, scaled by `M`. -/
def sineStart (x D M : Nat) : Nat := (6 * x * D ^ 2 - x ^ 3) * M / (6 * D ^ 3)

/-- The versine of the doubled angle, scaled by `M`. -/
def doubleVersine (M v : Nat) : Nat := 2 * v * (2 * M - v) / M

/-- `k` doublings of the angle for the versine. -/
def versineLoop (M : Nat) : Nat → Nat → Nat
  | 0, v => v
  | k + 1, v => forceNat (doubleVersine M v) fun v' => versineLoop M k v'

/-- `k` doublings of the angle for versine and sine; the sine by sign and absolute value. The cosine is `M - v`. -/
def sineLoop (M : Nat) : Nat → Nat → Bool → Nat → Bool × Nat
  | 0, _, neg, s => (neg, s)
  | k + 1, v, neg, s =>
    forceNat (doubleVersine M v) fun v' =>
      if v ≤ M then forceNat (2 * s * (M - v) / M) fun s' => sineLoop M k v' neg s'
      else
        forceNat (2 * s * (v - M) / M) fun s' =>
          match neg with
          | true => sineLoop M k v' false s'
          | false => sineLoop M k v' true s'

/-- The versine of `x` units, scaled by `2 ^ trigBits x`, within `trigRadius x`. -/
def versineApprox (x : Nat) : Nat :=
  forceNat (2 ^ (1074 + trigHalvings x)) fun D =>
    forceNat (2 ^ trigBits x) fun M =>
      forceNat (versineStart x D M) fun v => versineLoop M (trigHalvings x) v

/-- The sine of `x` units by sign and absolute value, scaled by `2 ^ trigBits x`, within `trigRadius x`. -/
def sineApprox (x : Nat) : Bool × Nat :=
  forceNat (2 ^ (1074 + trigHalvings x)) fun D =>
    forceNat (2 ^ trigBits x) fun M =>
      forceNat (versineStart x D M) fun v =>
        forceNat (sineStart x D M) fun s => sineLoop M (trigHalvings x) v false s

/-- The value `± v / M`, known to within `r / M`, as a faithfully rounded binary64 value. An enclosure that reaches 0
gives +0 (log 9: it does not occur). -/
def roundBall (neg : Bool) (v r M : Nat) (other : Bool) : F64 :=
  if r < v then ofMag neg ((bracketOf ((v - r) * 2 ^ 1074) ((v + r) * 2 ^ 1074) M).pick other)
  else ofMag false 0

/-- A cosine given as the versine `v`, both scaled by `M`. -/
def roundCosine (v r M : Nat) (other : Bool) : F64 :=
  if v ≤ M then roundBall false (M - v) r M other else roundBall true (v - M) r M other

/-- `Cos64` (R103) for an operand of magnitude `m`. Just below 1 for a small operand. -/
def cosFinite (other : Bool) (m : Nat) : F64 :=
  if m = 0 then one
  else if trigIsSmall (units m) then
    ofMag false ((Bracket.mk 0x3FEFFFFFFFFFFFFF 0x3FF0000000000000 true).pick other)
  else
    forceNat (units m) fun x =>
      forceNat (versineApprox x) fun v => roundCosine v (trigRadius x) (2 ^ trigBits x) other

/-- `Sin64` (R103) for a positive operand of magnitude `m`. Just below the operand for a small one. -/
def sinFinite (other : Bool) (m : Nat) : F64 :=
  if m = 0 then zero
  else if trigIsSmall (units m) then ofMag false ((Bracket.mk (m - 1) m true).pick other)
  else
    forceNat (units m) fun x =>
      match sineApprox x with
      | (neg, s) => roundBall neg s (trigRadius x) (2 ^ trigBits x) other

/-- `Cos64` (R103): `Cos64(±0) = 1`, `Cos64(±∞)` and `Cos64(NaN)` are NaN. The cosine is even; the choice between the
faithful values is made for each operand. -/
def cosWith (other : Word → Bool) : F64 → F64
  | .nan => .nan
  | .inf _ => .nan
  | .fin neg m => cosFinite (other (bits (.fin neg m))) m.val

/-- `Sin64` (R103): `Sin64(±0) = ±0`, `Sin64(±∞)` and `Sin64(NaN)` are NaN. The sine is odd. -/
def sinWith (other : Word → Bool) : F64 → F64
  | .nan => .nan
  | .inf _ => .nan
  | .fin neg m =>
    if neg then fneg (sinFinite (other (bits (.fin neg m))) m.val)
    else sinFinite (other (bits (.fin neg m))) m.val

/-! ### Powers of ten

`10^x` with `x = I + r / 2^112`: `10^(r / 2^112)` by one square root per bit of `r`, from the lowest bit up
(`10^((b + y) / 2) = √(10^b · 10^y)`), scaled by 2^256; then times `10^I` exactly. -/

/-- One square root per bit of `r`, `n` bits: a lower bound scaled by 2^256. -/
def tenthRoots : Nat → Nat → Nat → Nat
  | 0, _, t => t
  | n + 1, r, t => forceNat (isqrt (t * 10 ^ (r % 2) * 2 ^ 256)) fun t' => tenthRoots n (r / 2) t'

/-- Bounds of `10^(r / 2^112)`, scaled by 2^256: each square root makes the error at most twice as large plus one. -/
def pow10Frac (r : Nat) : Nat × Nat :=
  if r = 0 then (2 ^ 256, 2 ^ 256)
  else forceNat (tenthRoots 112 r (2 ^ 256)) fun t => (t, t + 2 ^ 112)

/-- The candidates for `10^(I + r / 2^112)`. -/
def pow10Bracket (I : Int) (r : Nat) : Bracket :=
  match I with
  | .ofNat i => bracketOf ((pow10Frac r).1 * 10 ^ i * 2 ^ 1074) ((pow10Frac r).2 * 10 ^ i * 2 ^ 1074) (2 ^ 256)
  | .negSucc i =>
    bracketOf ((pow10Frac r).1 * 2 ^ 1074) ((pow10Frac r).2 * 2 ^ 1074) (2 ^ 256 * 10 ^ (i + 1))

/-- `Pow10_64` (R103) for a finite operand. Just above or below 1 for an operand below 2^-60 in absolute value; beyond
the finite values from 400 on; below the smallest subnormal from -400 on. -/
def pow10Finite (other : Bool) (neg : Bool) (m : Nat) : F64 :=
  if m = 0 then one
  else if units m < 2 ^ 1014 then
    ofMag false
      ((if neg then Bracket.mk 0x3FEFFFFFFFFFFFFF 0x3FF0000000000000 true
        else Bracket.mk 0x3FF0000000000000 0x3FF0000000000001 false).pick other)
  else if 400 * 2 ^ 1074 ≤ units m then
    ofMag false ((if neg then Bracket.mk 0 1 false else Bracket.mk maxMag magBound true).pick other)
  else
    ofMag false
      ((pow10Bracket ((signedUnits neg m / 2 ^ 962) / 2 ^ 112) ((signedUnits neg m / 2 ^ 962) % 2 ^ 112).toNat).pick
        other)

/-- `Pow10_64` (R103): `Pow10_64(+∞) = +∞`, `Pow10_64(-∞) = +0`, `Pow10_64(NaN)` is NaN. -/
def pow10With (other : Word → Bool) : F64 → F64
  | .nan => .nan
  | .inf neg => if neg then zero else .inf false
  | .fin neg m => pow10Finite (other (bits (.fin neg m))) neg m.val

/-! ### PRIM -/

/-- The primitives that a choice gives. Every `PRIM` that R103 allows is one of these. -/
def PrimChoice.prim (c : PrimChoice) : Prim :=
  { cos64 := cosWith c.cosOther, sin64 := sinWith c.sinOther, pow10 := pow10With c.pow10Other }

/-- The machine's choice: free (log 8). -/
def primChoice : PrimChoice :=
  { cosOther := Config.cosTakesOther, sinOther := Config.sinTakesOther, pow10Other := Config.pow10TakesOther }

/-- The machine's `PRIM` (R6, R103). -/
def prim : Prim := primChoice.prim

/-- The choice of `PRIM_REF`: always the nearest value (R104). -/
def nearestChoice : PrimChoice :=
  { cosOther := fun _ => false, sinOther := fun _ => false, pow10Other := fun _ => false }

/-- `PRIM_REF`, "the reference configuration" (R104). -/
def primRef : Prim := nearestChoice.prim

end Sys2Proof.Machine
end

