-- ==== Sys2Proof/Machine/Operands.lean ====
section
/-! DEFINITION. Operands: what a command reads from its snapshot (30_encoding.md R84), the checks on it
(40_derivation.md R130 to R133, R135), and the derivation the kinds share (R110 to R112). -/

namespace Sys2Proof.Machine

/-! ### Operand assembly, R84 -/

/-- `f = f64(snap.f)`. -/
def Snap.freqValue (n : Snap) : F64 := f64 n.f
/-- `g = f64(snap.g)`. -/
def Snap.gainValue (n : Snap) : F64 := f64 n.g
/-- `q = f64(snap.q)`. -/
def Snap.qValue (n : Snap) : F64 := f64 n.q
/-- `fs = f64(snap.fs)`. -/
def Snap.fsValue (n : Snap) : F64 := f64 n.fs

/-! ### Causes, R131 -/

/-- The cause codes 1 to 7 of R131. Code 0 is success; 8–15 are "never produced". -/
inductive Cause where
  | kindUnsupported
  | fsInvalid
  | qInvalid
  | freqNonfinite
  | freqRange
  | gainNonfinite
  | resultNonfinite
  deriving DecidableEq, Repr

/-- The code written to `STATUS.ERRCAUSE` (R131). -/
def Cause.code : Cause → BitVec 4
  | .kindUnsupported => 1#4
  | .fsInvalid => 2#4
  | .qInvalid => 3#4
  | .freqNonfinite => 4#4
  | .freqRange => 5#4
  | .gainNonfinite => 6#4
  | .resultNonfinite => 7#4

/-- The class written to `STATUS.ERRCLASS`: `cause = 1 ? 2 : 1` (R121, R131; 10_state.md R30). -/
def Cause.errClass : Cause → BitVec 2
  | .kindUnsupported => 2#2
  | .fsInvalid => 1#2
  | .qInvalid => 1#2
  | .freqNonfinite => 1#2
  | .freqRange => 1#2
  | .gainNonfinite => 1#2
  | .resultNonfinite => 1#2

/-! ### Checks 2 to 6, R130 -/

/-- The gain-aware kinds, codes 6, 7 and 8 (R83). -/
def FilterKind.gainAware : FilterKind → Bool
  | .peaking => true
  | .lowShelf => true
  | .highShelf => true
  | .lowpass => false
  | .highpass => false
  | .bandpassSkirt => false
  | .bandpassPeak => false
  | .notch => false
  | .allpass => false

/-- Check 2: `isFinite(fs) and fs > 0.0`. -/
def Snap.fsValid (n : Snap) : Bool := isFinite n.fsValue && fgt n.fsValue zero

/-- Check 3: `q > 0.0` (R132: `+∞` passes, NaN and both zeros do not). -/
def Snap.qValid (n : Snap) : Bool := fgt n.qValue zero

/-- The condition of check 5: `f > 0.0 and f < fdiv(fs, 2.0)` (R133). -/
def Snap.freqInRange (n : Snap) : Bool := fgt n.freqValue zero && flt n.freqValue (fdiv n.fsValue two)

/-- Checks 2 to 6 of R130, for a command of kind `k`; "The first check that fails decides the outcome". -/
def Snap.checkOperands (n : Snap) (k : FilterKind) : Option Cause :=
  if !n.fsValid then some .fsInvalid
  else if !n.qValid then some .qInvalid
  else if !isFinite n.freqValue then some .freqNonfinite
  else if n.fval && !n.freqInRange then some .freqRange
  else if FilterKind.gainAware k && !isFinite n.gainValue then some .gainNonfinite
  else none

/-! ### The shared derivation, R110 to R112 -/

/-- The preamble quantities the kinds use (R110). -/
structure Preamble where
  /-- `cosW0` -/
  c : F64
  /-- `sinW0` -/
  s : F64
  /-- `alpha = sinW0 / (2 · q)` -/
  alpha : F64
  /-- `-2cosW0` -/
  m2c : F64
  deriving DecidableEq, Repr

/-- `w0 = fdiv(fmul(TWO_PI64, f), fs)` (R110). -/
def Snap.w0 (n : Snap) : F64 := fdiv (fmul twoPi64 n.freqValue) n.fsValue

/-- The preamble, R110. -/
def preamble (p : Prim) (n : Snap) : Preamble :=
  let c := p.cos64 n.w0
  let s := p.sin64 n.w0
  let q2 := fmul two n.qValue
  { c := c, s := s, alpha := fdiv s q2, m2c := fmul minusTwo c }

/-- `A = Pow10_64(fdiv(g, 40.0))` (R111). -/
def gainA (p : Prim) (n : Snap) : F64 := p.pow10 (fdiv n.gainValue forty)

/-- The shelf terms, R112 (its names). -/
structure Shelf where
  t : F64
  p : F64
  v : F64
  r : F64
  w : F64
  twoA : F64
  deriving DecidableEq, Repr

/-- The shelf terms from `A`, `c` and `alpha`, R112. -/
def shelfTerms (A : F64) (pre : Preamble) : Shelf :=
  let sA := fsqrt A
  let Ap1 := fadd A one
  let Am1 := fsub A one
  let m := fmul Am1 pre.c
  let n := fmul Ap1 pre.c
  { t := fmul (fmul two sA) pre.alpha
    p := fsub Ap1 m
    v := fadd Ap1 m
    r := fsub Am1 n
    w := fadd Am1 n
    twoA := fmul two A }

end Sys2Proof.Machine
end

