-- ==== Sys2Proof/Machine/Flags.lean ====
section
/-! DEFINITION. The fields of `STATUS` and `CTRL` (10_state.md R24 to R30) and every write of them the spec gives:
accept (40_derivation.md R120), completion (R121), dropped command (42_host_access.md R170), W1C (R173), `WR CTRL`
(R175). -/

namespace Sys2Proof.Machine

/-! ### Bit fields of a word (00_scope.md R7) -/

/-- The word with bit `i` set to `b`. -/
def setBit (w : Word) (i : Nat) (b : Bool) : Word :=
  if b then w ||| BitVec.twoPow 64 i else w &&& ~~~(BitVec.twoPow 64 i)

/-- The word with its bits from `lo` on, as many as `v` has, set to `v`. -/
def setField {n : Nat} (w : Word) (lo : Nat) (v : BitVec n) : Word :=
  (w &&& ~~~((BitVec.allOnes n).setWidth 64 <<< lo)) ||| (v.setWidth 64 <<< lo)

/-! ### STATUS, R25 -/

/-- `STATUS.BUSY`, bit 0 (R26). -/
def busyBit (st : Word) : Bool := st.getLsbD 0
/-- `STATUS.DONE`, bit 1 (R27). -/
def doneBit (st : Word) : Bool := st.getLsbD 1
/-- `STATUS.ERR`, bit 2 (R28). -/
def errBit (st : Word) : Bool := st.getLsbD 2
/-- `STATUS.CMDLOST`, bit 3 (R29). -/
def cmdLostBit (st : Word) : Bool := st.getLsbD 3
/-- `STATUS.ERRCLASS`, bits 9:8 (R30). -/
def errClassField (st : Word) : BitVec 2 := st.extractLsb' 8 2
/-- `STATUS.ERRCAUSE`, bits 15:12 (R25). -/
def errCauseField (st : Word) : BitVec 4 := st.extractLsb' 12 4

/-- The bits of `STATUS` that R25 lists; "All bits not listed are reserved". -/
def statusMask : Word := 0xF30F#64

/-- `STATUS` as a read returns it, "with reserved bits 0" (R172). -/
def statusRead (st : Word) : Word := st &&& statusMask

/-- The `STATUS` writes of the accept step (R120): `BUSY <- 1`, `DONE`, `ERR`, `ERRCLASS`, `ERRCAUSE <- 0`, "CMDLOST
unchanged". -/
def statusAccept (st : Word) : Word :=
  setField (setField (setBit (setBit (setBit st 0 true) 1 false) 2 false) 8 0#2) 12 0#4

/-- The `STATUS` writes of a successful completion step (R121). -/
def statusSuccess (st : Word) : Word :=
  setBit (setBit (setField (setField (setBit st 2 false) 8 0#2) 12 0#4) 0 false) 1 true

/-- The `STATUS` writes of a completion step with a cause: the command error record of 60_exceptions.md R221. -/
def statusError (st : Word) (cause : Cause) : Word :=
  setBit (setBit (setField (setField (setBit st 2 true) 12 cause.code) 8 cause.errClass) 0 false) 1 true

/-- The `STATUS` write of a dropped command: `CMDLOST <- 1` (R170). -/
def statusDropped (st : Word) : Word := setBit st 3 true

/-- The `STATUS` write of `WR STATUS, w`: `if w[3] = 1: CMDLOST <- 0` (R173). -/
def statusW1C (st : Word) (w : Word) : Word := if w.getLsbD 3 then setBit st 3 false else st

/-- STATUS holds a reserved code: `ERRCAUSE` 8–15 or `ERRCLASS` 3 (93_implementation_defined.md I11). -/
def reservedCode (st : Word) : Bool := decide (8 ≤ (errCauseField st).toNat) || errClassField st == 3#2

/-! ### CTRL, R24 -/

/-- `CTRL.FVAL`, bit 0. -/
def fvalBit (ctrl : Word) : Bool := ctrl.getLsbD 0

/-- `CTRL` as a read returns it: `zext_64(x[CTRL].FVAL)` (R174). -/
def ctrlRead (ctrl : Word) : Word := (BitVec.ofBool (fvalBit ctrl)).setWidth 64

/-- The `CTRL` write of `WR CTRL, w`: `FVAL <- w[0]`, "Bits 63:1 are ignored" (R175). -/
def ctrlWrite (ctrl : Word) (w : Word) : Word := setBit ctrl 0 (w.getLsbD 0)

end Sys2Proof.Machine
end

