-- ==== Sys2Proof/Machine/Ops.lean ====
section
/-! DEFINITION. The named operations over the state: what the port answers, the accept step, the completion step with
the command error record, `AccessError`, reset, the register window, and the next event. -/

namespace Sys2Proof.Machine

/-! ### The port -/

/-- The port answers the transaction (42_host_access.md R199; log 5). -/
def State.respond (s : State) (r : Response) : State := { s with responses := r :: s.responses }

/-! ### The command lifecycle, R120 and R121 -/

/-- The snapshot the accept step takes of a command word and of the operand registers (R120). -/
def State.takeSnap (s : State) (w : Word) : Snap :=
  { kind := w, f := s.freq, g := s.gainDb, q := s.q, fs := s.sampleRate, fval := fvalBit s.ctrl }

/-- **Accept**, R120. "The accept step does no checking". -/
def State.accept (s : State) (w : Word) : State :=
  { s with snap := s.takeSnap w, phase := .busy, status := statusAccept s.status }

/-- A write to `CMD` while BUSY is dropped and sets `CMDLOST` (R170). -/
def State.dropCommand (s : State) : State := { s with status := statusDropped s.status }

/-- The six coefficients of a command, `r` of R121. -/
structure Coeffs where
  b0 : F64
  b1 : F64
  b2 : F64
  a0 : F64
  a1 : F64
  a2 : F64
  deriving DecidableEq, Repr

/-- Check 8 of R130: every coefficient is finite. -/
def Coeffs.allFinite (r : Coeffs) : Bool :=
  isFinite r.b0 && isFinite r.b1 && isFinite r.b2 && isFinite r.a0 && isFinite r.a1 && isFinite r.a2

/-- What `Evaluate` returns (R122): a nonzero cause, or the six coefficients. -/
inductive EvalResult where
  | failed (cause : Cause)
  | computed (r : Coeffs)
  deriving DecidableEq, Repr

/-- **Taking a command exception**: `raise InvalidParameter(cause)` and `raise UnsupportedFilterKind(cause)` (00_scope.md
R9) write the command error record of 60_exceptions.md R221 "and only this": STATUS, `B0`…`A2` unchanged, `phase ← IDLE`.
There is no trap entry and no return (R227, R228): the record stays until the next accept step or reset. -/
def State.raiseCommandError (s : State) (cause : Cause) : State :=
  { s with status := statusError s.status cause, phase := .idle }

/-- The successful completion of R121: all six results and STATUS in one step. -/
def State.writeResults (s : State) (r : Coeffs) : State :=
  { s with
    b0 := bits r.b0, b1 := bits r.b1, b2 := bits r.b2
    a0 := bits r.a0, a1 := bits r.a1, a2 := bits r.a2
    status := statusSuccess s.status
    phase := .idle }

/-- **Complete**, R121, with the outcome of `Evaluate`. -/
def State.complete (s : State) : EvalResult → State
  | .failed cause => s.raiseCommandError cause
  | .computed r => s.writeResults r

/-! ### AccessError, R224 -/

/-- **Taking an AccessError**: the error response, the model's sticky fault mark, and "no register, no field of STATUS,
no phase and no snap changes" (R224; log 4). -/
def State.raiseAccessError (s : State) : State :=
  { s.respond .accessError with faultMark := some .accessError }

/-! ### Reset, R250 and R251 -/

/-- **Reset event**, R250: every piece of the block's state takes its reset value, whatever the phase (R251). The model's
own fields stay: the fault mark is "not touched by reset", and the events still to come and the answers given are the
environment's. -/
def State.resetBlock (s : State) : State :=
  { State.reset with faultMark := s.faultMark, schedule := s.schedule, responses := s.responses }

/-! ### The register window, 20_memory.md R60 to R62 -/

/-- The value a read of the register at an aligned offset returns (10_state.md R20; 42_host_access.md R171 to R189,
R196): reserved offsets and `CMD` read 0. -/
def State.registerAt (s : State) (off : Offset) : Word :=
  if off = 0x08#8 then statusRead s.status
  else if off = 0x10#8 then ctrlRead s.ctrl
  else if off = 0x18#8 then s.sampleRate
  else if off = 0x20#8 then s.freq
  else if off = 0x28#8 then s.gainDb
  else if off = 0x30#8 then s.q
  else if off = 0x40#8 then s.b0
  else if off = 0x48#8 then s.b1
  else if off = 0x50#8 then s.b2
  else if off = 0x58#8 then s.a0
  else if off = 0x60#8 then s.a1
  else if off = 0x68#8 then s.a2
  else 0#64

/-- The byte of the window at an offset: "The byte at address `BASE + off + i` (for `0 ≤ i ≤ 7`) is bits `[8i+7 : 8i]` of
the 64-bit register at `off`" (R62, little-endian). -/
def State.windowByte (s : State) (off : Offset) : Byte :=
  (s.registerAt (off &&& 0xF8#8)).extractLsb' (8 * (off &&& 0x07#8).toNat) 8

/-- The bus transaction of a host access of `2 ^ size` bytes at a byte address: `off = addr − BASE` (R61, R81). An address
outside the window is not the block's ("The block does not decode addresses outside the window", R61). -/
def hostAccess (write : Bool) (size : BitVec 3) (addr : Nat) (data : Word) : Option Event :=
  if Config.base ≤ addr ∧ addr < Config.base + 256 then
    some (.bus (Descriptor.make write size 0#4 (BitVec.ofNat 8 (addr - Config.base))) data)
  else none

/-- `MemRead(addr, 8)` of 00_scope.md R9. -/
def memRead8 (addr : Nat) : Option Event := hostAccess false 3#3 addr 0#64

/-- `MemWrite(addr, 8, v)` of 00_scope.md R9. -/
def memWrite8 (addr : Nat) (v : Word) : Option Event := hostAccess true 3#3 addr v

/-! ### The next event -/

/-- What happens next, and the state with it taken off the schedule. With no event left, the completion step of a
command in flight happens ("it must eventually happen", R121, R263; log 2); with no command in flight nothing does
(R235). -/
def State.nextEvent (s : State) : Option Event × State :=
  match s.schedule with
  | e :: rest => (some e, { s with schedule := rest })
  | [] =>
    match s.phase with
    | .busy => (some .complete, s)
    | .idle => (none, s)

end Sys2Proof.Machine
end

