-- ==== Sys2Proof/Machine/CmdStatus.lean ====
section
/-! DEFINITION. The transactions of `CMD` and `STATUS` (42_host_access.md R170 to R173). -/

namespace Sys2Proof.Machine

/-- `RD CMD`, R171: `CMD` "stores nothing" and reads 0. -/
def execRdCmd (s : State) : Host.Outcome State Fault Refusal := .next (s.respond (.data 0#64))

/-- `WR CMD`, R170: accepted in phase IDLE (40_derivation.md R120), dropped with `CMDLOST <- 1` in phase BUSY. -/
def execWrCmd (w : Word) (s : State) : Host.Outcome State Fault Refusal :=
  match s.phase with
  | .idle => .next ((s.accept w).respond .ok)
  | .busy => .next (s.dropCommand.respond .ok)

/-- `RD STATUS`, R172: `x[STATUS]`, "with reserved bits 0". -/
def execRdStatus (s : State) : Host.Outcome State Fault Refusal := .next (s.respond (.data (statusRead s.status)))

/-- `WR STATUS`, R173: `CMDLOST` is cleared when bit 3 of the data is 1; all other bits are ignored. -/
def execWrStatus (w : Word) (s : State) : Host.Outcome State Fault Refusal :=
  .next ({ s with status := statusW1C s.status w }.respond .ok)

end Sys2Proof.Machine
end

