-- ==== Sys2Proof/Machine/ControlOperands.lean ====
section
/-! DEFINITION. The transactions of the control and operand registers (42_host_access.md R174 to R183): a write stores
all 64 bits unchecked (10_state.md R22, R23), except that `CTRL` stores its one field. -/

namespace Sys2Proof.Machine

/-- `RD CTRL`, R174: `zext_64(x[CTRL].FVAL)`. -/
def execRdCtrl (s : State) : Host.Outcome State Fault Refusal := .next (s.respond (.data (ctrlRead s.ctrl)))

/-- `WR CTRL`, R175: `FVAL <- w[0]`. -/
def execWrCtrl (w : Word) (s : State) : Host.Outcome State Fault Refusal :=
  .next ({ s with ctrl := ctrlWrite s.ctrl w }.respond .ok)

/-- `RD SAMPLE_RATE`, R176: the stored bits. -/
def execRdSampleRate (s : State) : Host.Outcome State Fault Refusal := .next (s.respond (.data s.sampleRate))

/-- `WR SAMPLE_RATE`, R177: stores the data word. -/
def execWrSampleRate (w : Word) (s : State) : Host.Outcome State Fault Refusal :=
  .next ({ s with sampleRate := w }.respond .ok)

/-- `RD FREQ`, R178: the stored bits. -/
def execRdFreq (s : State) : Host.Outcome State Fault Refusal := .next (s.respond (.data s.freq))

/-- `WR FREQ`, R179: stores the data word. -/
def execWrFreq (w : Word) (s : State) : Host.Outcome State Fault Refusal :=
  .next ({ s with freq := w }.respond .ok)

/-- `RD GAIN_DB`, R180: the stored bits. -/
def execRdGainDb (s : State) : Host.Outcome State Fault Refusal := .next (s.respond (.data s.gainDb))

/-- `WR GAIN_DB`, R181: stores the data word. -/
def execWrGainDb (w : Word) (s : State) : Host.Outcome State Fault Refusal :=
  .next ({ s with gainDb := w }.respond .ok)

/-- `RD Q`, R182: the stored bits. -/
def execRdQ (s : State) : Host.Outcome State Fault Refusal := .next (s.respond (.data s.q))

/-- `WR Q`, R183: stores the data word. -/
def execWrQ (w : Word) (s : State) : Host.Outcome State Fault Refusal :=
  .next ({ s with q := w }.respond .ok)

end Sys2Proof.Machine
end

