-- ==== Sys2Proof/Machine/FilterKinds.lean ====
section
/-! DEFINITION. The nine COMPUTE commands (41_filter_kinds.md R140 to R148), `Evaluate` (40_derivation.md R122, R123,
R130) and the commands' meanings: the completion step (R121) of a command of that kind. -/

namespace Sys2Proof.Machine

/-! ### The formulas, R140 to R148 -/

/-- The feedback triple of kinds 0 to 5: `(1 + alpha, m2c, 1 - alpha)` (R140 to R145), with a given feedforward triple. -/
def withPlainFeedback (pre : Preamble) (b0 b1 b2 : F64) : Coeffs :=
  { b0 := b0, b1 := b1, b2 := b2
    a0 := fadd one pre.alpha, a1 := pre.m2c, a2 := fsub one pre.alpha }

/-- lowpass, R140. -/
def lowpassCoeffs (pre : Preamble) : Coeffs :=
  let u := fsub one pre.c
  withPlainFeedback pre (fdiv u two) u (fdiv u two)

/-- highpass, R141: "its own highpass formula" (R123; 90_conflicts.md C1). -/
def highpassCoeffs (pre : Preamble) : Coeffs :=
  let u := fadd one pre.c
  withPlainFeedback pre (fdiv u two) (fneg u) (fdiv u two)

/-- bandpassSkirt, R142. -/
def bandpassSkirtCoeffs (pre : Preamble) : Coeffs :=
  let h := fdiv pre.s two
  withPlainFeedback pre h zero (fneg h)

/-- bandpassPeak, R143. -/
def bandpassPeakCoeffs (pre : Preamble) : Coeffs :=
  withPlainFeedback pre pre.alpha zero (fneg pre.alpha)

/-- notch, R144. -/
def notchCoeffs (pre : Preamble) : Coeffs :=
  withPlainFeedback pre one pre.m2c one

/-- allpass, R145. -/
def allpassCoeffs (pre : Preamble) : Coeffs :=
  let ap := fadd one pre.alpha
  let am := fsub one pre.alpha
  { b0 := am, b1 := pre.m2c, b2 := ap, a0 := ap, a1 := pre.m2c, a2 := am }

/-- peaking, R146. -/
def peakingCoeffs (A : F64) (pre : Preamble) : Coeffs :=
  let aA := fmul pre.alpha A
  let adA := fdiv pre.alpha A
  { b0 := fadd one aA, b1 := pre.m2c, b2 := fsub one aA
    a0 := fadd one adA, a1 := pre.m2c, a2 := fsub one adA }

/-- lowShelf, R147. -/
def lowShelfCoeffs (A : F64) (pre : Preamble) : Coeffs :=
  let sh := shelfTerms A pre
  { b0 := fmul A (fadd sh.p sh.t), b1 := fmul sh.twoA sh.r, b2 := fmul A (fsub sh.p sh.t)
    a0 := fadd sh.v sh.t, a1 := fmul minusTwo sh.w, a2 := fsub sh.v sh.t }

/-- highShelf, R148. -/
def highShelfCoeffs (A : F64) (pre : Preamble) : Coeffs :=
  let sh := shelfTerms A pre
  { b0 := fmul A (fadd sh.v sh.t), b1 := fneg (fmul sh.twoA sh.w), b2 := fmul A (fsub sh.v sh.t)
    a0 := fadd sh.p sh.t, a1 := fmul two sh.r, a2 := fsub sh.p sh.t }

/-! ### Evaluate, R122, R123, R130 -/

/-- Step 7 of R130: the formula of the kind ("Every code selects exactly one formula", R123). -/
def formula (p : Prim) (k : FilterKind) (n : Snap) : Coeffs :=
  match k with
  | .lowpass => lowpassCoeffs (preamble p n)
  | .highpass => highpassCoeffs (preamble p n)
  | .bandpassSkirt => bandpassSkirtCoeffs (preamble p n)
  | .bandpassPeak => bandpassPeakCoeffs (preamble p n)
  | .notch => notchCoeffs (preamble p n)
  | .allpass => allpassCoeffs (preamble p n)
  | .peaking => peakingCoeffs (gainA p n) (preamble p n)
  | .lowShelf => lowShelfCoeffs (gainA p n) (preamble p n)
  | .highShelf => highShelfCoeffs (gainA p n) (preamble p n)

/-- Steps 2 to 9 of R130, for a command of kind `k`. -/
def evaluateKind (p : Prim) (k : FilterKind) (n : Snap) : EvalResult :=
  match n.checkOperands k with
  | some cause => .failed cause
  | none => if (formula p k n).allFinite then .computed (formula p k n) else .failed .resultNonfinite

/-- `Evaluate(snap)`, R122: step 1 of R130 and then the rest. -/
def evaluate (p : Prim) (n : Snap) : EvalResult :=
  match kindOfWord n.kind with
  | some k => evaluateKind p k n
  | none => .failed .kindUnsupported

/-! ### The meanings

A COMPUTE instruction is the completion step (R121) of the command of its kind that the engine holds; the accept step
that put it there is `WR CMD` (R120). In phase IDLE "the engine has no enabled step" (60_exceptions.md R235), so nothing
happens (log 6). -/

/-- The completion step of a command of kind `k` (R121), under the machine's `PRIM`. -/
def completeKind (k : FilterKind) (s : State) : Host.Outcome State Fault Refusal :=
  match s.phase with
  | .busy => .next (s.complete (evaluateKind prim k s.snap))
  | .idle => .next s

/-- `COMPUTE.LOWPASS`, R140. -/
def execComputeLowpass (s : State) : Host.Outcome State Fault Refusal := completeKind .lowpass s
/-- `COMPUTE.HIGHPASS`, R141. -/
def execComputeHighpass (s : State) : Host.Outcome State Fault Refusal := completeKind .highpass s
/-- `COMPUTE.BPSKIRT`, R142. -/
def execComputeBpskirt (s : State) : Host.Outcome State Fault Refusal := completeKind .bandpassSkirt s
/-- `COMPUTE.BPPEAK`, R143. -/
def execComputeBppeak (s : State) : Host.Outcome State Fault Refusal := completeKind .bandpassPeak s
/-- `COMPUTE.NOTCH`, R144. -/
def execComputeNotch (s : State) : Host.Outcome State Fault Refusal := completeKind .notch s
/-- `COMPUTE.ALLPASS`, R145. -/
def execComputeAllpass (s : State) : Host.Outcome State Fault Refusal := completeKind .allpass s
/-- `COMPUTE.PEAKING`, R146. -/
def execComputePeaking (s : State) : Host.Outcome State Fault Refusal := completeKind .peaking s
/-- `COMPUTE.LOWSHELF`, R147. -/
def execComputeLowshelf (s : State) : Host.Outcome State Fault Refusal := completeKind .lowShelf s
/-- `COMPUTE.HIGHSHELF`, R148. -/
def execComputeHighshelf (s : State) : Host.Outcome State Fault Refusal := completeKind .highShelf s

end Sys2Proof.Machine
end

