-- ==== Sys2Proof/Machine/Results.lean ====
section
/-! DEFINITION. The transactions of the result registers (42_host_access.md R184 to R195): reads return the last
successful result, writes are ignored and complete normally. -/

namespace Sys2Proof.Machine

/-- A write that is ignored: "no effect … the write completes normally" (R190); the data word is not looked at. -/
def ignoreWrite (_w : Word) (s : State) : State := s.respond .ok

/-- `RD B0`, R184. -/
def execRdB0 (s : State) : Host.Outcome State Fault Refusal := .next (s.respond (.data s.b0))

/-- `WR B0`, R190: ignored. -/
def execWrB0 (w : Word) (s : State) : Host.Outcome State Fault Refusal := .next (ignoreWrite w s)

/-- `RD B1`, R185. -/
def execRdB1 (s : State) : Host.Outcome State Fault Refusal := .next (s.respond (.data s.b1))

/-- `WR B1`, R191: ignored. -/
def execWrB1 (w : Word) (s : State) : Host.Outcome State Fault Refusal := .next (ignoreWrite w s)

/-- `RD B2`, R186. -/
def execRdB2 (s : State) : Host.Outcome State Fault Refusal := .next (s.respond (.data s.b2))

/-- `WR B2`, R192: ignored. -/
def execWrB2 (w : Word) (s : State) : Host.Outcome State Fault Refusal := .next (ignoreWrite w s)

/-- `RD A0`, R187. -/
def execRdA0 (s : State) : Host.Outcome State Fault Refusal := .next (s.respond (.data s.a0))

/-- `WR A0`, R193: ignored. -/
def execWrA0 (w : Word) (s : State) : Host.Outcome State Fault Refusal := .next (ignoreWrite w s)

/-- `RD A1`, R188. -/
def execRdA1 (s : State) : Host.Outcome State Fault Refusal := .next (s.respond (.data s.a1))

/-- `WR A1`, R194: ignored. -/
def execWrA1 (w : Word) (s : State) : Host.Outcome State Fault Refusal := .next (ignoreWrite w s)

/-- `RD A2`, R189. -/
def execRdA2 (s : State) : Host.Outcome State Fault Refusal := .next (s.respond (.data s.a2))

/-- `WR A2`, R195: ignored. -/
def execWrA2 (w : Word) (s : State) : Host.Outcome State Fault Refusal := .next (ignoreWrite w s)

end Sys2Proof.Machine
end

