-- ==== Sys2Proof/Machine/Reserved.lean ====
section
/-! DEFINITION. The transactions of the reserved offsets, RAZ/WI (42_host_access.md R196, R197). -/

namespace Sys2Proof.Machine

/-- A read of a reserved offset: `return 0x0000000000000000`, whatever the offset (R196). -/
def readReserved (_off : Offset) (s : State) : State := s.respond (.data 0#64)

/-- `RD.RSVD_38`, R196. -/
def execRdRsvd38 (s : State) : Host.Outcome State Fault Refusal := .next (readReserved 0x38#8 s)

/-- `WR.RSVD_38`, R197: no effect. -/
def execWrRsvd38 (w : Word) (s : State) : Host.Outcome State Fault Refusal :=
  .next (ignoreWrite w s)

/-- `RD.RSVD_70`, R196. -/
def execRdRsvd70 (off : Offset) (s : State) : Host.Outcome State Fault Refusal := .next (readReserved off s)

/-- `WR.RSVD_70`, R197: no effect. -/
def execWrRsvd70 (_off : Offset) (w : Word) (s : State) : Host.Outcome State Fault Refusal :=
  .next (ignoreWrite w s)

/-- `RD.RSVD_80`, R196. -/
def execRdRsvd80 (off : Offset) (s : State) : Host.Outcome State Fault Refusal := .next (readReserved off s)

/-- `WR.RSVD_80`, R197: no effect. -/
def execWrRsvd80 (_off : Offset) (w : Word) (s : State) : Host.Outcome State Fault Refusal :=
  .next (ignoreWrite w s)

end Sys2Proof.Machine
end

