-- ==== Sys2Proof/Machine/Dispatch.lean ====
section
/-! DEFINITION. The meaning of every instruction: one arm per constructor of `Instr`. -/

namespace Sys2Proof.Machine

def exec (i : Instr) (s : State) : Host.Outcome State Fault Refusal :=
  match i with
  | .computeLowpass => Sys2Proof.Machine.execComputeLowpass s
  | .computeHighpass => Sys2Proof.Machine.execComputeHighpass s
  | .computeBpskirt => Sys2Proof.Machine.execComputeBpskirt s
  | .computeBppeak => Sys2Proof.Machine.execComputeBppeak s
  | .computeNotch => Sys2Proof.Machine.execComputeNotch s
  | .computeAllpass => Sys2Proof.Machine.execComputeAllpass s
  | .computePeaking => Sys2Proof.Machine.execComputePeaking s
  | .computeLowshelf => Sys2Proof.Machine.execComputeLowshelf s
  | .computeHighshelf => Sys2Proof.Machine.execComputeHighshelf s
  | .rdCmd => Sys2Proof.Machine.execRdCmd s
  | .wrCmd w => Sys2Proof.Machine.execWrCmd w s
  | .rdStatus => Sys2Proof.Machine.execRdStatus s
  | .wrStatus w => Sys2Proof.Machine.execWrStatus w s
  | .rdCtrl => Sys2Proof.Machine.execRdCtrl s
  | .wrCtrl w => Sys2Proof.Machine.execWrCtrl w s
  | .rdSampleRate => Sys2Proof.Machine.execRdSampleRate s
  | .wrSampleRate w => Sys2Proof.Machine.execWrSampleRate w s
  | .rdFreq => Sys2Proof.Machine.execRdFreq s
  | .wrFreq w => Sys2Proof.Machine.execWrFreq w s
  | .rdGainDb => Sys2Proof.Machine.execRdGainDb s
  | .wrGainDb w => Sys2Proof.Machine.execWrGainDb w s
  | .rdQ => Sys2Proof.Machine.execRdQ s
  | .wrQ w => Sys2Proof.Machine.execWrQ w s
  | .rdB0 => Sys2Proof.Machine.execRdB0 s
  | .wrB0 w => Sys2Proof.Machine.execWrB0 w s
  | .rdB1 => Sys2Proof.Machine.execRdB1 s
  | .wrB1 w => Sys2Proof.Machine.execWrB1 w s
  | .rdB2 => Sys2Proof.Machine.execRdB2 s
  | .wrB2 w => Sys2Proof.Machine.execWrB2 w s
  | .rdA0 => Sys2Proof.Machine.execRdA0 s
  | .wrA0 w => Sys2Proof.Machine.execWrA0 w s
  | .rdA1 => Sys2Proof.Machine.execRdA1 s
  | .wrA1 w => Sys2Proof.Machine.execWrA1 w s
  | .rdA2 => Sys2Proof.Machine.execRdA2 s
  | .wrA2 w => Sys2Proof.Machine.execWrA2 w s
  | .rdRsvd38 => Sys2Proof.Machine.execRdRsvd38 s
  | .wrRsvd38 w => Sys2Proof.Machine.execWrRsvd38 w s
  | .rdRsvd70 off => Sys2Proof.Machine.execRdRsvd70 off s
  | .wrRsvd70 off w => Sys2Proof.Machine.execWrRsvd70 off w s
  | .rdRsvd80 off => Sys2Proof.Machine.execRdRsvd80 off s
  | .wrRsvd80 off w => Sys2Proof.Machine.execWrRsvd80 off w s

end Sys2Proof.Machine
end

