-- ==== Sys2Proof/Machine/Agents.lean ====
section
/-! DEFINITION. One step of each agent (00_scope.md R5): the host's bus transaction, the engine's completion step, the
reset source's reset; and how the port and the engine hold the instruction that runs next. -/

namespace Sys2Proof.Machine

/-- A **host** step: the port decodes the descriptor (30_encoding.md R85). An admitted one runs its transaction; any
other raises `AccessError` (R86a; 60_exceptions.md R224). -/
def busStep (td : Descriptor) (data : Word) (s : State) : Host.Outcome State Fault Refusal :=
  match decodeBus td data with
  | .ok i => exec i s
  | .error _ => .next s.raiseAccessError

/-- An **engine** step: the completion step, enabled exactly in phase BUSY (40_derivation.md R121). The command word held
in `snap` is decoded (R85); a word above 8 fails check 1 of R130 and raises `UnsupportedFilterKind` (R223). In phase IDLE
the engine has no enabled step (R235; log 3). -/
def engineStep (s : State) : Host.Outcome State Fault Refusal :=
  match s.phase with
  | .idle => .next s
  | .busy =>
    match decodeCmd s.snap.kind with
    | .ok i => exec i s
    | .error _ => .next (s.raiseCommandError .kindUnsupported)

/-- The step of the agent whose event it is. -/
def agentStep (e : Event) (s : State) : Host.Outcome State Fault Refusal :=
  match e with
  | .bus td data => busStep td data s
  | .complete => engineStep s
  | .reset => .next s.resetBlock

/-- The state that runs the transaction `td`, `data` next: it is the next one the port accepts. -/
def State.placeBus (s : State) (td : Descriptor) (data : Word) : State :=
  { s with schedule := .bus td data :: s.schedule }

/-- The state that runs the command word `w` next: accepted (R120), and the engine's completion step is the next event
(log 6). -/
def State.placeCommand (s : State) (w : Word) : State :=
  { s.accept w with schedule := .complete :: s.schedule }

end Sys2Proof.Machine
end

