-- ==== Sys2Proof/Machine/Step.lean ====
section
/-! DEFINITION. One step of the machine: the next event, by the agent whose event it is (log 1). -/

namespace Sys2Proof.Machine

/-- One step. A state whose STATUS holds a reserved code is refused (93_implementation_defined.md I11; no run reaches
one, log 13). With nothing left to happen the machine stays as it is: "no state of the block is stuck" (60_exceptions.md
R236), and in phase IDLE it "does nothing until a `CMD` write is accepted" (R235; log 2). -/
def step (s : State) : Host.Outcome State Fault Refusal :=
  if reservedCode s.status then .refused .reservedErrorCode
  else
    match s.nextEvent with
    | (some e, s') => agentStep e s'
    | (none, s') => .next s'

/-- `s` with the instruction whose bits are `w` placed where the next step runs it: a 64-bit row is a command word, which
the engine holds once it is accepted; any other row is a transaction at the port, the descriptor in bits 15..0 and the
data word above it. -/
def State.withFetchWord (s : State) (nbits w : Nat) : State :=
  if nbits = 64 then s.placeCommand (BitVec.ofNat 64 w)
  else s.placeBus (BitVec.ofNat 16 w) (BitVec.ofNat 64 (w >>> 16))

end Sys2Proof.Machine
end

