-- ==== Sys2Proof/Safety.lean ====
section
/-! DEFINITION. The terms the claims are written in: the legal states (10_state.md R34), a run without `AccessError`
(60_exceptions.md R224), the end of a run and what is observed then (70_reset_and_hazards.md R265), the operand
conditions of R130, and what it means for a binary64 result to be rounded to nearest even (R101) or faithfully rounded
(R103). -/

namespace Sys2Proof.Machine

/-! ### Legal states, R34 -/

/-- `ERRCLASS` as the function of `ERRCAUSE` that R30 states (causes 2 to 7 give class 1). -/
def classOfCause (cause : BitVec 4) : BitVec 2 :=
  if cause = 0#4 then 0#2 else if cause = 1#4 then 2#2 else 1#2

/-- The word is the encoding of a finite binary64 value: its exponent field is not all ones. -/
def wordFinite (w : Word) : Bool := w.extractLsb' 52 11 != 0x7FF#11

/-- What R34 says holds "In every reachable state", its eight clauses. -/
structure State.Legal (s : State) : Prop where
  /-- (1) -/
  busy_iff : busyBit s.status = true ↔ s.phase = .busy
  /-- (2) -/
  busy_clear : busyBit s.status = true →
    doneBit s.status = false ∧ errBit s.status = false ∧ errCauseField s.status = 0#4
  /-- (3) -/
  err_done : errBit s.status = true → doneBit s.status = true
  /-- (4) -/
  cause_iff : errCauseField s.status ≠ 0#4 ↔ errBit s.status = true
  /-- (5) -/
  class_eq : errClassField s.status = classOfCause (errCauseField s.status)
  /-- (6) -/
  reserved_status : s.status &&& ~~~statusMask = 0#64
  reserved_ctrl : s.ctrl &&& ~~~1#64 = 0#64
  /-- (7) -/
  b0_finite : wordFinite s.b0 = true
  b1_finite : wordFinite s.b1 = true
  b2_finite : wordFinite s.b2 = true
  a0_finite : wordFinite s.a0 = true
  a1_finite : wordFinite s.a1 = true
  a2_finite : wordFinite s.a2 = true
  /-- (8) -/
  cause_le : (errCauseField s.status).toNat ≤ 7
  class_le : (errClassField s.status).toNat ≤ 2

/-! ### Runs -/

/-- "*no `AccessError` recorded*" (R224): the premise of claims about a host program. -/
abbrev State.noAccessError (s : State) : Prop := s.faultMark = none

/-- The event is a transaction of the host. -/
def Event.isTransaction : Event → Bool
  | .bus _ _ => true
  | .complete => false
  | .reset => false

/-- The end of a run: the host has issued its last transaction and no command is in flight (R265). What the engine or the
reset source may still do does not count. -/
abbrev State.runEnded (s : State) : Prop := s.schedule.any Event.isTransaction = false ∧ s.phase = .idle

/-- The value that an answer returned to a read. -/
def Response.readValue : Response → Option Word
  | .data w => some w
  | .ok => none
  | .accessError => none

/-- What R265 observes. -/
structure Observation where
  /-- The registers of R20 in the order of their offsets, as reads return them. -/
  registers : List Word
  /-- The values the host's reads returned, the first one first. -/
  reads : List Word
  deriving DecidableEq, Repr

/-- What the observation would be if it were taken in this state. -/
def State.observation (s : State) : Observation :=
  { registers :=
      [s.registerAt 0x00#8, s.registerAt 0x08#8, s.registerAt 0x10#8, s.registerAt 0x18#8, s.registerAt 0x20#8,
        s.registerAt 0x28#8, s.registerAt 0x30#8, s.registerAt 0x40#8, s.registerAt 0x48#8, s.registerAt 0x50#8,
        s.registerAt 0x58#8, s.registerAt 0x60#8, s.registerAt 0x68#8]
    reads := (s.responses.filterMap Response.readValue).reverse }

/-- The observation at the end of a run. A run that is not over has none, and "A run that recorded an `AccessError` fault …
has no defined end observation" (R265). -/
def State.endObservation (s : State) : Option Observation :=
  if s.runEnded ∧ s.noAccessError then some s.observation else none

/-- The registers the host writes and the engine only reads (10_state.md R22 to R24). -/
def State.operandRegisters (s : State) : Word × Word × Word × Word × Word :=
  (s.ctrl, s.sampleRate, s.freq, s.gainDb, s.q)

/-- The six result registers (R33). -/
def State.resultRegisters (s : State) : Word × Word × Word × Word × Word × Word :=
  (s.b0, s.b1, s.b2, s.a0, s.a1, s.a2)

/-- `n` steps of the machine. -/
def State.run : Nat → State → Host.Outcome State Fault Refusal
  | 0, s => .next s
  | n + 1, s =>
    match step s with
    | .next t => t.run n
    | .fault e => .fault e
    | .refused e => .refused e

/-- Steps until the run is over, at most `n`: the state in which it ends (R265). -/
def State.runToEnd : Nat → State → Host.Outcome State Fault Refusal
  | 0, s => .next s
  | n + 1, s =>
    if s.runEnded then .next s
    else
      match step s with
      | .next t => t.runToEnd n
      | .fault e => .fault e
      | .refused e => .refused e

/-- The end observation of the run from a state (R265): taken in the first state in which the run is over, so after the
completion step of a command in flight, and before anything that comes later. -/
def State.runObservation (s : State) : Option Observation :=
  match s.runToEnd (s.schedule.length + 1) with
  | .next t => t.endObservation
  | .fault _ => none
  | .refused _ => none

/-- STATUS holds no reserved code (93_implementation_defined.md I11). -/
def State.NoReservedCode (s : State) : Prop := (errCauseField s.status).toNat ≤ 7 ∧ errClassField s.status ≠ 3#2

/-! ### What a transaction does -/

/-- The transaction `i` returns the data word `f s`, in every state `s`, and changes nothing else. -/
def Reads (i : Instr) (f : State → Word) : Prop :=
  ∀ s : State, exec i s = .next { s with responses := .data (f s) :: s.responses }

/-- The transaction `i` completes with OK and makes the state `f s`, in every state `s`. -/
def Writes (i : Instr) (f : State → State) : Prop :=
  ∀ s : State, exec i s = .next { f s with responses := .ok :: s.responses }

/-! ### What a completion step leaves, R121 and R221 -/

/-- The reserved bits of `STATUS` are those of before. -/
def SameReserved (st st' : Word) : Prop := st' &&& ~~~statusMask = st &&& ~~~statusMask

/-- `t` is `s` after a successful completion with the coefficients `r` (40_derivation.md R121): the six results, the
`STATUS` fields that R121 writes and the phase; nothing else. -/
def Succeeded (s t : State) (r : Coeffs) : Prop :=
  t = { s with
    b0 := bits r.b0, b1 := bits r.b1, b2 := bits r.b2
    a0 := bits r.a0, a1 := bits r.a1, a2 := bits r.a2
    status := t.status
    phase := .idle } ∧
  busyBit t.status = false ∧ doneBit t.status = true ∧ errBit t.status = false ∧
  errClassField t.status = 0#2 ∧ errCauseField t.status = 0#4 ∧
  cmdLostBit t.status = cmdLostBit s.status ∧ SameReserved s.status t.status

/-- `t` is `s` after a completion that raised the cause with the code `code` (60_exceptions.md R221): the record in
`STATUS` and the phase; nothing else. -/
def FailedWith (s t : State) (code : Nat) : Prop :=
  t = { s with status := t.status, phase := .idle } ∧
  busyBit t.status = false ∧ doneBit t.status = true ∧ errBit t.status = true ∧
  (errCauseField t.status).toNat = code ∧ (errClassField t.status).toNat = (if code = 1 then 2 else 1) ∧
  cmdLostBit t.status = cmdLostBit s.status ∧ SameReserved s.status t.status

/-! ### Operand conditions, R130 -/

/-- Checks 2 to 6 of R130 pass for a command of kind `k`. -/
structure Snap.Passes (n : Snap) (k : FilterKind) : Prop where
  fs_finite : isFinite (f64 n.fs) = true
  fs_pos : fgt (f64 n.fs) zero = true
  q_pos : fgt (f64 n.q) zero = true
  f_finite : isFinite (f64 n.f) = true
  f_range : n.fval = true → fgt (f64 n.f) zero = true ∧ flt (f64 n.f) (fdiv (f64 n.fs) two) = true
  g_finite : FilterKind.gainAware k = true → isFinite (f64 n.g) = true

/-- The six coefficients are finite: step 8 of R130 passes. -/
def Coeffs.Finite (r : Coeffs) : Prop :=
  isFinite r.b0 = true ∧ isFinite r.b1 = true ∧ isFinite r.b2 = true ∧
  isFinite r.a0 = true ∧ isFinite r.a1 = true ∧ isFinite r.a2 = true

/-- What a COMPUTE command `i` of kind `k` does with the coefficients `r` of its formula (R121, R130): in phase BUSY, with
checks 2 to 6 passed, it succeeds with `r` if `r` is finite, and raises `RESULT_NONFINITE` (cause 7) otherwise. -/
def Computes (i : Instr) (k : FilterKind) (r : Snap → Coeffs) : Prop :=
  ∀ s : State, s.phase = .busy → s.snap.Passes k →
    ((r s.snap).Finite → ∃ t, exec i s = .next t ∧ Succeeded s t (r s.snap)) ∧
    (¬ (r s.snap).Finite → ∃ t, exec i s = .next t ∧ FailedWith s t 7)

/-! ### Rounding -/

/-- The rational value of a finite binary64 value (0 for the others, which have none). -/
def F64.toRat : F64 → ℚ
  | .nan => 0
  | .inf _ => 0
  | .fin neg m => (signedUnits neg m.val : ℚ) / 2 ^ 1074

/-- The sign of a value, true for a negative one and for -0 (of a NaN, which carries none here: false, log 12). -/
def F64.sign : F64 → Bool
  | .nan => false
  | .inf neg => neg
  | .fin neg _ => neg

/-- From here on, round to nearest gives an infinity: half a unit in the last place above the largest finite value. -/
def overflowBound : ℚ := 2 ^ 1024 - 2 ^ 970

/-- The binary64 value is the real number rounded to nearest, ties to even (R101; IEEE 754, log 14). The sign of a zero
result is not part of it. -/
def RoundsTo (v : ℝ) (y : F64) : Prop :=
  match y with
  | .nan => False
  | .inf false => (overflowBound : ℝ) ≤ v
  | .inf true => v ≤ -(overflowBound : ℝ)
  | .fin neg m =>
    |v| < (overflowBound : ℝ) ∧
    (0 < v → neg = false) ∧ (v < 0 → neg = true) ∧
    (∀ z : F64, isFinite z = true → |v - ((F64.fin neg m).toRat : ℝ)| ≤ |v - (z.toRat : ℝ)|) ∧
    (∀ z : F64, isFinite z = true → z.toRat ≠ (F64.fin neg m).toRat →
      |v - ((F64.fin neg m).toRat : ℝ)| = |v - (z.toRat : ℝ)| → m.val % 2 = 0)

/-- Faithfully rounded: "the result is the exact real value when that value is representable, and otherwise one of the
two binary64 values adjacent to it" (00_scope.md glossary; R103). (`irreducible` only keeps the elaborator from computing
with it unasked.) -/
@[irreducible] def Faithful (v : ℝ) (y : F64) : Prop :=
  match y with
  | .nan => False
  | .inf false => ∀ z : F64, isFinite z = true → (z.toRat : ℝ) < v
  | .inf true => ∀ z : F64, isFinite z = true → v < (z.toRat : ℝ)
  | .fin neg m =>
    ((F64.fin neg m).toRat : ℝ) = v ∨
    (∀ z : F64, isFinite z = true → (z.toRat : ℝ) ≠ v) ∧
      ((((F64.fin neg m).toRat : ℝ) < v ∧
          ∀ z : F64, isFinite z = true → (z.toRat : ℝ) < v → z.toRat ≤ (F64.fin neg m).toRat) ∨
        (v < ((F64.fin neg m).toRat : ℝ) ∧
          ∀ z : F64, isFinite z = true → v < (z.toRat : ℝ) → (F64.fin neg m).toRat ≤ z.toRat))

end Sys2Proof.Machine
end

