-- ==== Sys2Proof/Certificates/Slice0/Obligations.lean ====
section
/-! DEFINITION. The statements for the provers. -/

open Sys2Proof Sys2Proof.Machine

/-! ### Encoding -/

/-- Decoding the encoding of a well-formed instruction gives it back, for every row and every operand. -/
def Obligations.DecodeOfEncode : Prop :=
  ∀ i : Instr, i.wellFormed = true → decode (encode i) = .ok i

/-- The other direction: what decodes to an instruction is that instruction's encoding (the data lines of a read, which
carry nothing, apart: log 16), and the instruction is well formed. -/
def Obligations.EncodeOfDecode : Prop :=
  (∀ td data i, decodeBus td data = .ok i →
    i.wellFormed = true ∧ encode i = .bus td (if td.we then data else 0#64)) ∧
  (∀ w i, decodeCmd w = .ok i → i.wellFormed = true ∧ encode i = .cmd w)

/-- R85: decoding is total; exactly one `bus` row accepts each of the 64 admitted descriptors, and it is the row of the
decoded instruction; a command word of at most 8 is `COMPUTE.<kind w>`, any other is KIND_UNSUPPORTED. -/
def Obligations.ExactlyOneRow : Prop :=
  (∀ td : Descriptor, td.admitted = true ↔
    ∃ (we : Bool) (k : Fin 32), td = Descriptor.make we 3#3 0#4 (BitVec.ofNat 8 (8 * k.val))) ∧
  (∀ (td : Descriptor) (data : Word), td.admitted = true →
    ∃ r ∈ busTable, (∀ r' ∈ busTable, r'.accepts td = true ↔ r' = r) ∧
      ∃ i, decodeBus td data = .ok i ∧ i.mnemonic = r.mnemonic ∧ i.isRead = !td.getLsbD 15) ∧
  (∀ (td : Descriptor) (data : Word), td.admitted = false → ∃ e, decodeBus td data = .error e) ∧
  (∀ w : Word, w.toNat ≤ 8 → ∃ k, FilterKind.code k = w.toNat ∧ decodeCmd w = .ok (.compute k)) ∧
  (∀ w : Word, 8 < w.toNat → decodeCmd w = .error .kindUnsupported)

/-- R82, R83: the whole 64-bit word is the kind code, and the codes follow the table. -/
def Obligations.CommandWordIsKind : Prop :=
  (∀ (w : Word) (i : Instr), decodeCmd w = .ok i ↔ ∃ k, w.toNat = FilterKind.code k ∧ i = .compute k) ∧
  [FilterKind.lowpass, .highpass, .bandpassSkirt, .bandpassPeak, .notch, .allpass, .peaking, .lowShelf,
    .highShelf].map (fun k => (FilterKind.code k, (Instr.compute k).mnemonic, FilterKind.gainAware k)) =
    [(0, "COMPUTE.LOWPASS", false), (1, "COMPUTE.HIGHPASS", false), (2, "COMPUTE.BPSKIRT", false),
     (3, "COMPUTE.BPPEAK", false), (4, "COMPUTE.NOTCH", false), (5, "COMPUTE.ALLPASS", false),
     (6, "COMPUTE.PEAKING", true), (7, "COMPUTE.LOWSHELF", true), (8, "COMPUTE.HIGHSHELF", true)]

/-- The words of 42_host_access.md and 41_filter_kinds.md, one of each family, decode to their rows. -/
def Obligations.SampleWords : Prop :=
  ∀ d : Word,
    decodeBus 0xB000#16 d = .ok (.wrCmd d) ∧ decodeBus 0x3008#16 d = .ok .rdStatus ∧
    decodeBus 0xB020#16 d = .ok (.wrFreq d) ∧ decodeBus 0x3068#16 d = .ok .rdA2 ∧
    decodeBus 0xB078#16 d = .ok (.wrRsvd70 0x78#8 d) ∧ decodeBus 0x30F8#16 d = .ok (.rdRsvd80 0xF8#8) ∧
    decodeCmd 0x0000000000000001#64 = .ok .computeHighpass ∧ decodeCmd 0x0000000000000008#64 = .ok .computeHighshelf

/-- 20_memory.md R60, R61: a host access inside the window is a transaction at `addr - BASE`, one outside is none of the
block's; an aligned 8-byte access inside is admitted. -/
def Obligations.HostAccessOffset : Prop :=
  Config.base % 256 = 0 ∧
  (∀ (write : Bool) (size : BitVec 3) (d : Word) (off : Nat), off < 256 →
    ∃ td, hostAccess write size (Config.base + off) d = some (.bus td d) ∧ td.we = write ∧ td.size = size ∧
      td.off.toNat = off ∧ (td.admitted = true ↔ size = 3#3 ∧ off % 8 = 0)) ∧
  (∀ write size d addr, addr < Config.base ∨ Config.base + 256 ≤ addr → hostAccess write size addr d = none)

/-! ### Steps -/

/-- A step runs the decoded instruction: of the next transaction at the port, or of the command the engine holds when its
completion step comes (the next event, or what is left when no event is). That step is the engine's, whatever the command
word; with neither an event nor a command in flight nothing happens. The schedule is the model's own (log 1, log 2). -/
def Obligations.StepRunsDecodedInstruction : Prop :=
  (∀ (s : State) (td : Descriptor) (d : Word) (rest : List Event) (i : Instr), s.NoReservedCode →
    s.schedule = .bus td d :: rest → decodeBus td d = .ok i → step s = exec i { s with schedule := rest }) ∧
  (∀ (s : State) (rest : List Event) (i : Instr), s.NoReservedCode → s.phase = .busy →
    s.schedule = .complete :: rest → decodeCmd s.snap.kind = .ok i → step s = exec i { s with schedule := rest }) ∧
  (∀ (s : State) (i : Instr), s.NoReservedCode → s.phase = .busy →
    s.schedule = [] → decodeCmd s.snap.kind = .ok i → step s = exec i s) ∧
  (∀ (s : State) (rest : List Event), s.NoReservedCode → s.schedule = .complete :: rest →
    step s = engineStep { s with schedule := rest }) ∧
  (∀ s : State, s.NoReservedCode → s.schedule = [] →
    step s = match s.phase with
      | .busy => engineStep s
      | .idle => .next s)

/-- No step faults, and a step is refused exactly in a state whose STATUS holds a reserved code (I11, log 13); in every
other state something happens: no state is stuck. -/
def Obligations.OnlyReservedCodesRefuse : Prop :=
  ∀ s : State, (s.NoReservedCode → ∃ t, step s = .next t) ∧
    (¬ s.NoReservedCode → step s = .refused .reservedErrorCode)

/-- R64: a transaction that is not admitted raises `AccessError`: the error response, no data, and no register, no field of
STATUS, no phase and no snap changes. The response list and the sticky mark are the model's own (log 4, log 5). -/
def Obligations.AccessErrorChangesNothing : Prop :=
  ∀ (s : State) (td : Descriptor) (d : Word) (rest : List Event), s.NoReservedCode →
    s.schedule = .bus td d :: rest →
    (td.extractLsb' 12 3 ≠ 3#3 ∨ td.extractLsb' 8 4 ≠ 0#4 ∨ td.extractLsb' 0 3 ≠ 0#3) →
    step s = .next { s with
      schedule := rest, responses := .accessError :: s.responses, faultMark := some .accessError }

/-- R224: the fault mark is set by a transaction that is not admitted and by nothing else, and no step clears it. -/
def Obligations.FaultMarkIsSticky : Prop :=
  ∀ s t : State, step s = .next t →
    ((∃ td d rest, s.schedule = .bus td d :: rest ∧ Descriptor.admitted td = false) →
      t.faultMark = some .accessError) ∧
    ((∀ td d rest, s.schedule = .bus td d :: rest → Descriptor.admitted td = true) → t.faultMark = s.faultMark) ∧
    (s.faultMark = some .accessError → t.faultMark = some .accessError)

/-- R250: the reset event, in either phase, sets every register, the phase and what every offset reads to the reset value;
the model's fault mark is not touched. (`snap`, which R250 leaves unspecified, is not spoken of.) -/
def Obligations.ResetEvent : Prop :=
  ∀ (s : State) (rest : List Event), s.NoReservedCode → s.schedule = .reset :: rest →
    ∃ t, step s = .next t ∧
      t.status = 0#64 ∧ t.ctrl = 0#64 ∧ t.sampleRate = 0x40E7700000000000#64 ∧ t.freq = 0#64 ∧ t.gainDb = 0#64 ∧
      t.q = 0#64 ∧ t.b0 = 0#64 ∧ t.b1 = 0#64 ∧ t.b2 = 0#64 ∧ t.a0 = 0#64 ∧ t.a1 = 0#64 ∧ t.a2 = 0#64 ∧
      t.phase = .idle ∧ t.faultMark = s.faultMark ∧ t.schedule = rest ∧ t.responses = s.responses ∧
      ∀ off : Offset, t.registerAt off = if off = 0x18#8 then 0x40E7700000000000#64 else 0#64

/-- R251: a reset while BUSY abandons the command in flight. After it no completion step happens (a completion point that
follows does nothing), the results and STATUS read 0, and a `CMD` write ordered after it snapshots the reset values. -/
def Obligations.ResetAbandonsCommand : Prop :=
  ∀ (s : State) (rest : List Event), s.NoReservedCode → s.phase = .busy → s.schedule = .reset :: rest →
    ∃ t, step s = .next t ∧ t.status = 0#64 ∧ t.resultRegisters = (0#64, 0#64, 0#64, 0#64, 0#64, 0#64) ∧
      (∀ rest', rest = .complete :: rest' → step t = .next { t with schedule := rest' }) ∧
      (∀ w, ∃ u, exec (.wrCmd w) t = .next u ∧ u.phase = .busy ∧
        u.snap = { kind := w, f := 0#64, g := 0#64, q := 0#64, fs := 0x40E7700000000000#64, fval := false })

/-- R250: the state right after reset holds the values of R250's table, and the model's own fields are empty. -/
def Obligations.ResetState : Prop :=
  State.reset.status = 0#64 ∧ State.reset.ctrl = 0#64 ∧ State.reset.sampleRate = 0x40E7700000000000#64 ∧
  (f64 State.reset.sampleRate).toRat = 48000 ∧
  State.reset.freq = 0#64 ∧ State.reset.gainDb = 0#64 ∧ State.reset.q = 0#64 ∧
  State.reset.resultRegisters = (0#64, 0#64, 0#64, 0#64, 0#64, 0#64) ∧ State.reset.phase = .idle ∧
  State.reset.noAccessError ∧ State.reset.schedule = [] ∧ State.reset.responses = []

/-! ### Register transactions -/

/-- R171, R176, R178, R180, R182, R184 to R189, R196: a read of an operand or result register returns the stored bits, one of
`CMD` or of a reserved offset returns 0, in either phase, and nothing changes. -/
def Obligations.ReadRegisters : Prop :=
  Reads .rdSampleRate State.sampleRate ∧ Reads .rdFreq State.freq ∧ Reads .rdGainDb State.gainDb ∧ Reads .rdQ State.q ∧
  Reads .rdB0 State.b0 ∧ Reads .rdB1 State.b1 ∧ Reads .rdB2 State.b2 ∧
  Reads .rdA0 State.a0 ∧ Reads .rdA1 State.a1 ∧ Reads .rdA2 State.a2 ∧
  Reads .rdCmd (fun _ => 0#64) ∧ Reads .rdRsvd38 (fun _ => 0#64) ∧
  ∀ off : Offset, Reads (.rdRsvd70 off) (fun _ => 0#64) ∧ Reads (.rdRsvd80 off) (fun _ => 0#64)

/-- R172, R174: a read of `STATUS` returns its listed fields, one of `CTRL` returns `FVAL` in bit 0; every other bit is 0, and
nothing changes. -/
def Obligations.ReadStatusAndControl : Prop :=
  ∀ s : State,
    (∃ w, exec .rdStatus s = .next { s with responses := .data w :: s.responses } ∧
      busyBit w = busyBit s.status ∧ doneBit w = doneBit s.status ∧ errBit w = errBit s.status ∧
      cmdLostBit w = cmdLostBit s.status ∧ errClassField w = errClassField s.status ∧
      errCauseField w = errCauseField s.status ∧
      ∀ j, ¬ (j < 4 ∨ j = 8 ∨ j = 9 ∨ (12 ≤ j ∧ j < 16)) → w.getLsbD j = false) ∧
    (∃ w, exec .rdCtrl s = .next { s with responses := .data w :: s.responses } ∧
      w.toNat = (s.ctrl.getLsbD 0).toNat)

/-- R66: a read, of any register or reserved offset, leaves the state unchanged (the list of answers, the model's own, grows
by the data), and its data do not depend on what was answered before: it may be repeated. -/
def Obligations.ReadsHaveNoSideEffects : Prop :=
  ∀ (i : Instr) (s : State), i.isRead = true →
    ∃ w, ∀ answers : List Response,
      exec i { s with responses := answers } = .next { s with responses := .data w :: answers }

/-- R177, R179, R181, R183: a write of an operand register stores all 64 bits unchanged, whatever the pattern and the phase,
and changes nothing else. -/
def Obligations.WriteOperandRegisters : Prop :=
  ∀ w : Word, Writes (.wrSampleRate w) (fun s => { s with sampleRate := w }) ∧
    Writes (.wrFreq w) (fun s => { s with freq := w }) ∧
    Writes (.wrGainDb w) (fun s => { s with gainDb := w }) ∧
    Writes (.wrQ w) (fun s => { s with q := w })

/-- R173, R175: a write of `CTRL` sets `FVAL` to bit 0 of the data, one of `STATUS` clears `CMDLOST` if bit 3 of the data
is 1; the other bits of the data are ignored, and nothing else changes. -/
def Obligations.WriteStatusAndControl : Prop :=
  ∀ (w : Word) (s : State),
    (∃ t, exec (.wrCtrl w) s = .next t ∧ t = { s with ctrl := t.ctrl, responses := .ok :: s.responses } ∧
      ∀ j, t.ctrl.getLsbD j = if j = 0 then w.getLsbD 0 else s.ctrl.getLsbD j) ∧
    (∃ t, exec (.wrStatus w) s = .next t ∧ t = { s with status := t.status, responses := .ok :: s.responses } ∧
      ∀ j, t.status.getLsbD j = if j = 3 ∧ w.getLsbD 3 = true then false else s.status.getLsbD j)

/-- R120: a write of `CMD` with phase IDLE is accepted, whatever the word: the snapshot, phase BUSY, the `STATUS` fields of
the accept step with `CMDLOST` unchanged; nothing else changes and nothing is checked. -/
def Obligations.AcceptCommand : Prop :=
  ∀ (w : Word) (s : State), s.phase = .idle → ∃ t, exec (.wrCmd w) s = .next t ∧
    t = { s with
      snap := { kind := w, f := s.freq, g := s.gainDb, q := s.q, fs := s.sampleRate, fval := s.ctrl.getLsbD 0 }
      phase := .busy, status := t.status, responses := .ok :: s.responses } ∧
    busyBit t.status = true ∧ doneBit t.status = false ∧ errBit t.status = false ∧
    errClassField t.status = 0#2 ∧ errCauseField t.status = 0#4 ∧ cmdLostBit t.status = cmdLostBit s.status ∧
    SameReserved s.status t.status

/-- R170, R256: a write of `CMD` with phase BUSY is dropped: `CMDLOST` is set and nothing else changes, the snapshot of the
command in flight included. -/
def Obligations.DropCommand : Prop :=
  ∀ (w : Word) (s : State), s.phase = .busy → ∃ t, exec (.wrCmd w) s = .next t ∧
    t = { s with status := t.status, responses := .ok :: s.responses } ∧
    ∀ j, t.status.getLsbD j = if j = 3 then true else s.status.getLsbD j

/-- R190 to R195, R197: a write of a result register or of a reserved offset completes normally and has no effect. -/
def Obligations.IgnoredWrites : Prop :=
  ∀ w : Word, Writes (.wrB0 w) id ∧ Writes (.wrB1 w) id ∧ Writes (.wrB2 w) id ∧
    Writes (.wrA0 w) id ∧ Writes (.wrA1 w) id ∧ Writes (.wrA2 w) id ∧ Writes (.wrRsvd38 w) id ∧
    ∀ off : Offset, Writes (.wrRsvd70 off w) id ∧ Writes (.wrRsvd80 off w) id

/-- R67: the side effects of writes, and none other. No write changes a result; each of the five registers changes only by
its own write, to the data (of `CTRL`, only bit 0, to bit 0 of the data); STATUS only by a write of `CMD` (`CMDLOST` while
BUSY, the other listed fields while IDLE) or of `STATUS` (`CMDLOST`, if bit 3 of the data is 1); phase and snapshot only by a
write of `CMD` while IDLE. Every write but of `CMD` is idempotent. -/
def Obligations.WriteSideEffects : Prop :=
  ∀ (i : Instr) (s t : State), i.isBus = true → i.isRead = false → exec i s = .next t →
    t.resultRegisters = s.resultRegisters ∧ t.schedule = s.schedule ∧ t.faultMark = s.faultMark ∧
    t.responses = .ok :: s.responses ∧
    ((∀ w, i ≠ .wrCtrl w) → t.ctrl = s.ctrl) ∧
    (∀ w, i = .wrCtrl w → ∀ j, t.ctrl.getLsbD j = if j = 0 then w.getLsbD 0 else s.ctrl.getLsbD j) ∧
    ((∀ w, i ≠ .wrSampleRate w) → t.sampleRate = s.sampleRate) ∧ (∀ w, i = .wrSampleRate w → t.sampleRate = w) ∧
    ((∀ w, i ≠ .wrFreq w) → t.freq = s.freq) ∧ (∀ w, i = .wrFreq w → t.freq = w) ∧
    ((∀ w, i ≠ .wrGainDb w) → t.gainDb = s.gainDb) ∧ (∀ w, i = .wrGainDb w → t.gainDb = w) ∧
    ((∀ w, i ≠ .wrQ w) → t.q = s.q) ∧ (∀ w, i = .wrQ w → t.q = w) ∧
    ((∀ w, i ≠ .wrCmd w) → (∀ w, i ≠ .wrStatus w) → t.status = s.status) ∧
    (∀ w, i = .wrStatus w →
      ∀ j, t.status.getLsbD j = if j = 3 ∧ w.getLsbD 3 = true then false else s.status.getLsbD j) ∧
    (∀ w, i = .wrCmd w → s.phase = .busy → t.phase = .busy ∧ t.snap = s.snap ∧
      ∀ j, t.status.getLsbD j = if j = 3 then true else s.status.getLsbD j) ∧
    (∀ w, i = .wrCmd w → s.phase = .idle → t.phase = .busy ∧ t.snap.kind = w ∧
      ∀ j, t.status.getLsbD j = if j = 0 then true
        else if j = 1 ∨ j = 2 ∨ j = 8 ∨ j = 9 ∨ (12 ≤ j ∧ j < 16) then false else s.status.getLsbD j) ∧
    ((∀ w, i ≠ .wrCmd w) → t.phase = s.phase ∧ t.snap = s.snap ∧
      exec i t = .next { t with responses := .ok :: t.responses })

/-- R62: the data of a read are the eight bytes of the window from its offset on, the lowest address in the least
significant byte; and no read changes a byte of the window. -/
def Obligations.WindowIsLittleEndian : Prop :=
  ∀ (off : Offset) (d : Word) (s : State), off.extractLsb' 0 3 = 0#3 →
    ∃ w t, busStep (Descriptor.make false 3#3 0#4 off) d s = .next t ∧ t.responses = .data w :: s.responses ∧
      (∀ i : Nat, i < 8 → w.extractLsb' (8 * i) 8 = s.windowByte (off + BitVec.ofNat 8 i)) ∧
      ∀ a : Offset, t.windowByte a = s.windowByte a

/-- The frame of the writes over the window (R61, R62, R67): the bytes of the written operand register become those of the
data word, those of `CTRL` the field `FVAL`; every other byte reads as before. A write of `CMD` or `STATUS` changes no byte
outside `STATUS`, any other write none. -/
def Obligations.WriteFrame : Prop :=
  ∀ (off : Offset) (w : Word) (s : State), off.extractLsb' 0 3 = 0#3 →
    ∃ t, busStep (Descriptor.make true 3#3 0#4 off) w s = .next t ∧
      (off = 0x18#8 ∨ off = 0x20#8 ∨ off = 0x28#8 ∨ off = 0x30#8 →
        ∀ a : Offset, t.windowByte a =
          if off.toNat ≤ a.toNat ∧ a.toNat < off.toNat + 8 then w.extractLsb' (8 * (a.toNat - off.toNat)) 8
          else s.windowByte a) ∧
      (off = 0x10#8 → ∀ a : Offset, t.windowByte a =
        if a = 0x10#8 then (BitVec.ofBool (w.getLsbD 0)).setWidth 8 else s.windowByte a) ∧
      (off = 0x00#8 ∨ off = 0x08#8 → ∀ a : Offset, ¬ (0x08 ≤ a.toNat ∧ a.toNat < 0x10) →
        t.windowByte a = s.windowByte a) ∧
      (0x38 ≤ off.toNat → ∀ a : Offset, t.windowByte a = s.windowByte a)

/-! ### The command lifecycle -/

/-- R121: in phase BUSY the engine's step is the completion step. With a cause it leaves the error record and the results
of before; without one, the six results; in both cases phase IDLE, BUSY 0, DONE 1, `CMDLOST` and all else unchanged. -/
def Obligations.CompletionStep : Prop :=
  ∀ s : State, s.phase = .busy → ∃ t, engineStep s = .next t ∧
    (∀ c, evaluate prim s.snap = .failed c → FailedWith s t (Cause.code c).toNat) ∧
    (∀ r, evaluate prim s.snap = .computed r → Succeeded s t r)

/-- R131, R222, R223: the code and the class of every cause. R221: the value of `STATUS` that its error record leaves, as a
read returns it. -/
def Obligations.ErrorRecordValue : Prop :=
  [Cause.kindUnsupported, .fsInvalid, .qInvalid, .freqNonfinite, .freqRange, .gainNonfinite, .resultNonfinite].map
    (fun c => ((Cause.code c).toNat, (Cause.errClass c).toNat)) =
    [(1, 2), (2, 1), (3, 1), (4, 1), (5, 1), (6, 1), (7, 1)] ∧
  ∀ (s t : State) (c : Cause), s.phase = .busy → evaluate prim s.snap = .failed c → engineStep s = .next t →
    (statusRead t.status).toNat = (if cmdLostBit s.status then 8 else 0) +
      match c with
      | .kindUnsupported => 0x1206
      | .fsInvalid => 0x2106
      | .qInvalid => 0x3106
      | .freqNonfinite => 0x4106
      | .freqRange => 0x5106
      | .gainNonfinite => 0x6106
      | .resultNonfinite => 0x7106

/-- R223: a command word above 8 completes with cause 1, whatever the operands: STATUS reads 0x1206, with bit 3 kept; the
results are unchanged. -/
def Obligations.UnsupportedKind : Prop :=
  ∀ s : State, s.phase = .busy → 8 < s.snap.kind.toNat → ∃ t, engineStep s = .next t ∧ FailedWith s t 1 ∧
    statusRead t.status = if cmdLostBit s.status then 0x120E#64 else 0x1206#64

/-- R130, R131, R225(a): the first check that fails decides the cause. -/
def Obligations.FirstFailingCheckDecides : Prop :=
  ∀ (p : Prim) (n : Snap),
    let fsOk := isFinite (f64 n.fs) = true ∧ fgt (f64 n.fs) zero = true
    let qOk := fgt (f64 n.q) zero = true
    let fOk := isFinite (f64 n.f) = true
    let rangeOk := n.fval = true → fgt (f64 n.f) zero = true ∧ flt (f64 n.f) (fdiv (f64 n.fs) two) = true
    let gainOk := 6 ≤ n.kind.toNat → isFinite (f64 n.g) = true
    (evaluate p n = .failed .kindUnsupported ↔ 8 < n.kind.toNat) ∧
    (evaluate p n = .failed .fsInvalid ↔ n.kind.toNat ≤ 8 ∧ ¬ fsOk) ∧
    (evaluate p n = .failed .qInvalid ↔ n.kind.toNat ≤ 8 ∧ fsOk ∧ ¬ qOk) ∧
    (evaluate p n = .failed .freqNonfinite ↔ n.kind.toNat ≤ 8 ∧ fsOk ∧ qOk ∧ ¬ fOk) ∧
    (evaluate p n = .failed .freqRange ↔ n.kind.toNat ≤ 8 ∧ fsOk ∧ qOk ∧ fOk ∧ ¬ rangeOk) ∧
    (evaluate p n = .failed .gainNonfinite ↔ n.kind.toNat ≤ 8 ∧ fsOk ∧ qOk ∧ fOk ∧ rangeOk ∧ ¬ gainOk) ∧
    (∀ k, FilterKind.code k = n.kind.toNat → fsOk → qOk → fOk → rangeOk → gainOk →
      ((formula p k n).Finite → evaluate p n = .computed (formula p k n)) ∧
      (¬ (formula p k n).Finite → evaluate p n = .failed .resultNonfinite))

/-- R23, R130, R132: checks 2 and 3 by the encodings. `fs` passes exactly if positive and finite; `q` passes exactly if
positive, subnormals and infinity included, and at `q` = +∞ `alpha` is a zero of the sign of `s`. -/
def Obligations.ChecksByEncoding : Prop :=
  (∀ n : Snap, n.fsValid = true ↔ 0 < n.fs.toNat ∧ n.fs.toNat < 0x7FF0000000000000) ∧
  (∀ n : Snap, n.qValid = true ↔ 0 < n.q.toNat ∧ n.q.toNat ≤ 0x7FF0000000000000) ∧
  (∀ (p : Prim) (n : Snap) (neg : Bool) (m : Fin magBound), n.q = 0x7FF0000000000000#64 →
    p.sin64 n.w0 = .fin neg m → bits (preamble p n).alpha = if neg then 0x8000000000000000#64 else 0#64)

/-- R24, R133: with `fval` = 0 no frequency is rejected for its range; with `fval` = 1 exactly the frequencies outside
`(0, fs/2)` are, where a positive finite `f` counts as below `fs/2` when it is below the rounded half. -/
def Obligations.FrequencyValidation : Prop :=
  ∀ (p : Prim) (n : Snap), n.kind.toNat ≤ 8 → n.fsValid = true → n.qValid = true → isFinite (f64 n.f) = true →
    (n.fval = false → evaluate p n ≠ .failed .freqRange) ∧
    (n.fval = true → (evaluate p n = .failed .freqRange ↔
      (f64 n.f).toRat ≤ 0 ∨ (fdiv (f64 n.fs) two).toRat ≤ (f64 n.f).toRat))

/-- R135: kinds 0 to 5 never read `snap.g`. -/
def Obligations.GainIgnored : Prop :=
  ∀ (p : Prim) (n : Snap) (g : Word), n.kind.toNat ≤ 5 → evaluate p { n with g := g } = evaluate p n

/-- R106: two commands with the same snapshot have the same result, whatever else differs. -/
def Obligations.ResultIsFunctionOfSnapshot : Prop :=
  ∀ s s' t t' : State, s.phase = .busy → s'.phase = .busy → s.snap = s'.snap →
    engineStep s = .next t → engineStep s' = .next t' →
    errBit t.status = errBit t'.status ∧ errCauseField t.status = errCauseField t'.status ∧
    errClassField t.status = errClassField t'.status ∧ doneBit t.status = doneBit t'.status ∧
    (errBit t.status = false → t.resultRegisters = t'.resultRegisters)

/-- R258: a write of an operand register while a command is in flight and the completion step of that command commute. -/
def Obligations.OperandWritesCommuteWithCompletion : Prop :=
  ∀ (i : Instr) (w : Word) (s : State), s.phase = .busy →
    i ∈ [Instr.wrFreq w, .wrGainDb w, .wrQ w, .wrSampleRate w, .wrCtrl w] →
    ∃ t u v, exec i s = .next t ∧ engineStep t = .next u ∧ engineStep s = .next v ∧ exec i v = .next u

/-! ### The nine COMPUTE commands

Each statement writes its kind's formula out, operation by operation in the order of the rule, under the machine's `PRIM`. -/

/-- R140, with the preamble of R110. -/
def Obligations.ComputeLowpass : Prop :=
  Computes .computeLowpass .lowpass fun n =>
    let w0 := fdiv (fmul twoPi64 (f64 n.f)) (f64 n.fs)
    let c := prim.cos64 w0
    let s := prim.sin64 w0
    let alpha := fdiv s (fmul two (f64 n.q))
    let m2c := fmul (fneg two) c
    let u := fsub one c
    { b0 := fdiv u two, b1 := u, b2 := fdiv u two
      a0 := fadd one alpha, a1 := m2c, a2 := fsub one alpha }

/-- R141, with the preamble of R110: its own formula, not bandpassSkirt's (R123). -/
def Obligations.ComputeHighpass : Prop :=
  Computes .computeHighpass .highpass fun n =>
    let w0 := fdiv (fmul twoPi64 (f64 n.f)) (f64 n.fs)
    let c := prim.cos64 w0
    let s := prim.sin64 w0
    let alpha := fdiv s (fmul two (f64 n.q))
    let m2c := fmul (fneg two) c
    let u := fadd one c
    { b0 := fdiv u two, b1 := fneg u, b2 := fdiv u two
      a0 := fadd one alpha, a1 := m2c, a2 := fsub one alpha }

/-- R142, with the preamble of R110. -/
def Obligations.ComputeBandpassSkirt : Prop :=
  Computes .computeBpskirt .bandpassSkirt fun n =>
    let w0 := fdiv (fmul twoPi64 (f64 n.f)) (f64 n.fs)
    let c := prim.cos64 w0
    let s := prim.sin64 w0
    let alpha := fdiv s (fmul two (f64 n.q))
    let m2c := fmul (fneg two) c
    let h := fdiv s two
    { b0 := h, b1 := f64 0x0000000000000000#64, b2 := fneg h
      a0 := fadd one alpha, a1 := m2c, a2 := fsub one alpha }

/-- R143, with the preamble of R110. -/
def Obligations.ComputeBandpassPeak : Prop :=
  Computes .computeBppeak .bandpassPeak fun n =>
    let w0 := fdiv (fmul twoPi64 (f64 n.f)) (f64 n.fs)
    let c := prim.cos64 w0
    let s := prim.sin64 w0
    let alpha := fdiv s (fmul two (f64 n.q))
    let m2c := fmul (fneg two) c
    { b0 := alpha, b1 := f64 0x0000000000000000#64, b2 := fneg alpha
      a0 := fadd one alpha, a1 := m2c, a2 := fsub one alpha }

/-- R144, with the preamble of R110. -/
def Obligations.ComputeNotch : Prop :=
  Computes .computeNotch .notch fun n =>
    let w0 := fdiv (fmul twoPi64 (f64 n.f)) (f64 n.fs)
    let c := prim.cos64 w0
    let s := prim.sin64 w0
    let alpha := fdiv s (fmul two (f64 n.q))
    let m2c := fmul (fneg two) c
    { b0 := f64 0x3FF0000000000000#64, b1 := m2c, b2 := f64 0x3FF0000000000000#64
      a0 := fadd one alpha, a1 := m2c, a2 := fsub one alpha }

/-- R145, with the preamble of R110: the feedforward triple is the feedback triple reversed. -/
def Obligations.ComputeAllpass : Prop :=
  Computes .computeAllpass .allpass fun n =>
    let w0 := fdiv (fmul twoPi64 (f64 n.f)) (f64 n.fs)
    let c := prim.cos64 w0
    let s := prim.sin64 w0
    let alpha := fdiv s (fmul two (f64 n.q))
    let m2c := fmul (fneg two) c
    { b0 := fsub one alpha, b1 := m2c, b2 := fadd one alpha
      a0 := fadd one alpha, a1 := m2c, a2 := fsub one alpha }

/-- R146, with the preamble of R110 and the gain of R111. -/
def Obligations.ComputePeaking : Prop :=
  Computes .computePeaking .peaking fun n =>
    let w0 := fdiv (fmul twoPi64 (f64 n.f)) (f64 n.fs)
    let c := prim.cos64 w0
    let s := prim.sin64 w0
    let alpha := fdiv s (fmul two (f64 n.q))
    let m2c := fmul (fneg two) c
    let A := prim.pow10 (fdiv (f64 n.g) forty)
    let aA := fmul alpha A
    let adA := fdiv alpha A
    { b0 := fadd one aA, b1 := m2c, b2 := fsub one aA
      a0 := fadd one adA, a1 := m2c, a2 := fsub one adA }

/-- R147, with the preamble of R110, the gain of R111 and the shelf terms of R112. -/
def Obligations.ComputeLowShelf : Prop :=
  Computes .computeLowshelf .lowShelf fun n =>
    let w0 := fdiv (fmul twoPi64 (f64 n.f)) (f64 n.fs)
    let c := prim.cos64 w0
    let s := prim.sin64 w0
    let alpha := fdiv s (fmul two (f64 n.q))
    let A := prim.pow10 (fdiv (f64 n.g) forty)
    let t := fmul (fmul two (fsqrt A)) alpha
    let p := fsub (fadd A one) (fmul (fsub A one) c)
    let v := fadd (fadd A one) (fmul (fsub A one) c)
    let r := fsub (fsub A one) (fmul (fadd A one) c)
    let w := fadd (fsub A one) (fmul (fadd A one) c)
    let twoA := fmul two A
    { b0 := fmul A (fadd p t), b1 := fmul twoA r, b2 := fmul A (fsub p t)
      a0 := fadd v t, a1 := fmul (fneg two) w, a2 := fsub v t }

/-- R148, with the preamble of R110, the gain of R111 and the shelf terms of R112. -/
def Obligations.ComputeHighShelf : Prop :=
  Computes .computeHighshelf .highShelf fun n =>
    let w0 := fdiv (fmul twoPi64 (f64 n.f)) (f64 n.fs)
    let c := prim.cos64 w0
    let s := prim.sin64 w0
    let alpha := fdiv s (fmul two (f64 n.q))
    let A := prim.pow10 (fdiv (f64 n.g) forty)
    let t := fmul (fmul two (fsqrt A)) alpha
    let p := fsub (fadd A one) (fmul (fsub A one) c)
    let v := fadd (fadd A one) (fmul (fsub A one) c)
    let r := fsub (fsub A one) (fmul (fadd A one) c)
    let w := fadd (fsub A one) (fmul (fadd A one) c)
    let twoA := fmul two A
    { b0 := fmul A (fadd v t), b1 := fneg (fmul twoA w), b2 := fmul A (fsub v t)
      a0 := fadd p t, a1 := fmul two r, a2 := fsub p t }

/-- The operand conditions of R130 and the IDLE phase, for every COMPUTE command: with a failing operand check it raises the
cause of that check; in phase IDLE, where the engine has no enabled step, nothing happens (log 6). -/
def Obligations.ComputeTraps : Prop :=
  ∀ (k : FilterKind) (s : State),
    (s.phase = .idle → exec (.compute k) s = .next s) ∧
    (s.phase = .busy → ¬ s.snap.Passes k →
      ∃ t c, exec (.compute k) s = .next t ∧ s.snap.checkOperands k = some c ∧ FailedWith s t (Cause.code c).toNat ∧
        2 ≤ (Cause.code c).toNat ∧ (Cause.code c).toNat ≤ 6)

/-- The corner `f` = ±0 of R133, R140, R141 and R144 under every `PRIM`: with valid `fs` and `q` and `fval` = 0, lowpass
gives (+0, +0, +0), highpass and notch (1, -2, 1), each with the feedback triple (1, -2, 1). -/
def Obligations.ZeroFrequencyCorner : Prop :=
  ∀ (c : PrimChoice) (n : Snap), n.fsValid = true → n.qValid = true → n.fval = false →
    n.f = 0x0000000000000000#64 ∨ n.f = 0x8000000000000000#64 →
    (n.kind.toNat = 0 → evaluate c.prim n = .computed
      { b0 := zero, b1 := zero, b2 := zero, a0 := one, a1 := fneg two, a2 := one }) ∧
    (n.kind.toNat = 1 ∨ n.kind.toNat = 4 → evaluate c.prim n = .computed
      { b0 := one, b1 := fneg two, b2 := one, a0 := one, a1 := fneg two, a2 := one })

/-- R149: for the gain-aware kinds, whenever `A` is exactly 1 and `c` is no zero (which R149 takes from general knowledge,
K4), the feedforward triple is the feedback triple; and `A` is 1 at `g` = ±0, under every `PRIM`. -/
def Obligations.FlatResponse : Prop :=
  (∀ (p : Prim) (n : Snap) (k : FilterKind), FilterKind.gainAware k = true → gainA p n = one →
    (preamble p n).c ≠ zero → (preamble p n).c ≠ fneg zero →
    (formula p k n).b0 = (formula p k n).a0 ∧ (formula p k n).b1 = (formula p k n).a1 ∧
      (formula p k n).b2 = (formula p k n).a2) ∧
  (∀ (c : PrimChoice) (n : Snap), n.g = 0x0000000000000000#64 ∨ n.g = 0x8000000000000000#64 → gainA c.prim n = one)

/-! ### Every step, every state -/

/-- R34: every step keeps the eight clauses. -/
def Obligations.LegalIsInvariant : Prop :=
  ∀ s t : State, s.Legal → step s = .next t → t.Legal

/-- R34: the state right after reset is legal. -/
def Obligations.ResetIsLegal : Prop :=
  State.reset.Legal

/-- R33, R255: the result registers change only at a successful completion step, all six together and with STATUS, and at
reset; in every other step they keep their values. -/
def Obligations.ResultsChangeOnlyOnSuccess : Prop :=
  ∀ s t : State, step s = .next t →
    t.resultRegisters = s.resultRegisters ∨
    (s.phase = .busy ∧ (∃ rest, s.schedule = .complete :: rest ∨ s.schedule = []) ∧
      ∃ r, evaluate prim s.snap = .computed r ∧
        t.resultRegisters = (bits r.b0, bits r.b1, bits r.b2, bits r.a0, bits r.a1, bits r.a2) ∧
        r.Finite ∧ doneBit t.status = true ∧ errBit t.status = false ∧ t.phase = .idle) ∨
    ((∃ rest, s.schedule = .reset :: rest) ∧ t.resultRegisters = (0#64, 0#64, 0#64, 0#64, 0#64, 0#64))

/-- R22, R23: nothing but a host write of it or reset changes an operand register; the engine never does. -/
def Obligations.OperandsChangeOnlyByWriteOrReset : Prop :=
  ∀ s t : State, step s = .next t →
    t.operandRegisters = s.operandRegisters ∨
    (∃ td w rest i, s.schedule = .bus td w :: rest ∧ decodeBus td w = .ok i ∧
      (i = .wrFreq w ∧ t.operandRegisters = (s.ctrl, s.sampleRate, w, s.gainDb, s.q) ∨
       i = .wrGainDb w ∧ t.operandRegisters = (s.ctrl, s.sampleRate, s.freq, w, s.q) ∨
       i = .wrQ w ∧ t.operandRegisters = (s.ctrl, s.sampleRate, s.freq, s.gainDb, w) ∨
       i = .wrSampleRate w ∧ t.operandRegisters = (s.ctrl, w, s.freq, s.gainDb, s.q) ∨
       i = .wrCtrl w ∧ t.operandRegisters = (t.ctrl, s.sampleRate, s.freq, s.gainDb, s.q) ∧
         t.ctrl.getLsbD 0 = w.getLsbD 0)) ∨
    ((∃ rest, s.schedule = .reset :: rest) ∧
      t.operandRegisters = (0#64, 0x40E7700000000000#64, 0#64, 0#64, 0#64))

/-- R29: `CMDLOST` is set by a `CMD` write while BUSY, cleared by a `STATUS` write with bit 3 = 1 and by reset, and left
unchanged by every other step. -/
def Obligations.CmdLostIsSticky : Prop :=
  ∀ s t : State, s.Legal → step s = .next t →
    ((∃ td w rest, s.schedule = .bus td w :: rest ∧ decodeBus td w = .ok (.wrCmd w) ∧ busyBit s.status = true) →
      cmdLostBit t.status = true) ∧
    ((∃ td w rest, s.schedule = .bus td w :: rest ∧ decodeBus td w = .ok (.wrStatus w) ∧ w.getLsbD 3 = true) ∨
      (∃ rest, s.schedule = .reset :: rest) → cmdLostBit t.status = false) ∧
    (cmdLostBit t.status ≠ cmdLostBit s.status →
      (∃ td w rest, s.schedule = .bus td w :: rest ∧
        (decodeBus td w = .ok (.wrCmd w) ∧ busyBit s.status = true ∨
         decodeBus td w = .ok (.wrStatus w) ∧ w.getLsbD 3 = true)) ∨
      ∃ rest, s.schedule = .reset :: rest)

/-- R26, R27, R28, R30: who writes `BUSY`, `DONE`, `ERR`, `ERRCLASS` and `ERRCAUSE`. Only the accept step, the completion
step and reset do; a completion sets `DONE`, an accept clears it and sets `BUSY`. -/
def Obligations.StatusWriters : Prop :=
  ∀ s t : State, s.Legal → step s = .next t →
    (busyBit t.status = busyBit s.status ∧ doneBit t.status = doneBit s.status ∧ errBit t.status = errBit s.status ∧
      errClassField t.status = errClassField s.status ∧ errCauseField t.status = errCauseField s.status) ∨
    (busyBit s.status = false ∧ (∃ td w rest, s.schedule = .bus td w :: rest ∧ decodeBus td w = .ok (.wrCmd w)) ∧
      busyBit t.status = true ∧ doneBit t.status = false ∧ errBit t.status = false ∧
      errClassField t.status = 0#2 ∧ errCauseField t.status = 0#4) ∨
    (busyBit s.status = true ∧ (∃ rest, s.schedule = .complete :: rest ∨ s.schedule = []) ∧
      busyBit t.status = false ∧ doneBit t.status = true ∧
      (errBit t.status = true ↔ ∃ c, evaluate prim s.snap = .failed c)) ∨
    ((∃ rest, s.schedule = .reset :: rest) ∧ t.status = 0#64)

/-- R263, R265: a run ends. From a legal state, once the events at hand are taken and one more step is granted, no event is
left and no command is in flight: the completion step of a command in flight happens (log 2). And there is a first state in
which the run is over; the end observation is that of this state, and there is none if an `AccessError` was recorded. -/
def Obligations.EveryRunEnds : Prop :=
  ∀ s : State, s.Legal →
    (∃ t, s.run (s.schedule.length + 1) = .next t ∧ t.schedule = [] ∧ t.phase = .idle ∧ t.Legal) ∧
    ∃ n t, n ≤ s.schedule.length + 1 ∧ s.run n = .next t ∧ t.runEnded ∧ t.Legal ∧
      (∀ m, m < n → ∃ u, s.run m = .next u ∧ ¬ u.runEnded) ∧
      s.runObservation = if t.noAccessError then some t.observation else none

/-- R70, R199: the port takes one transaction per step, in the order they are accepted, and answers each at once: after
`n` steps of a legal state the first `n` events are gone, and the answers given are those of before with one more for
every transaction among them. -/
def Obligations.PortOrder : Prop :=
  ∀ (s t : State) (n : Nat), s.Legal → n ≤ s.schedule.length → s.run n = .next t →
    t.schedule = s.schedule.drop n ∧
    ∃ answers, t.responses = answers ++ s.responses ∧
      answers.length = ((s.schedule.take n).filter fun
        | .bus _ _ => true
        | .complete => false
        | .reset => false).length

/-! ### Numbers -/

/-- R8: `f64` and `bits` are inverse to each other but for NaNs; `isFinite` is what the exponent field says; and the value of
a finite encoding is that of its fields: sign, exponent with bias 1023, 52 fraction bits, subnormals below. -/
def Obligations.Encodings : Prop :=
  (∀ x : F64, x ≠ .nan → f64 (bits x) = x) ∧ (∀ w : Word, f64 w ≠ .nan → bits (f64 w) = w) ∧
  (∀ w : Word, isFinite (f64 w) = true ↔ w.extractLsb' 52 11 ≠ 0x7FF#11) ∧
  (∀ w : Word, f64 w = .nan ↔ w.extractLsb' 52 11 = 0x7FF#11 ∧ w.extractLsb' 0 52 ≠ 0#52) ∧
  ∀ (neg : Bool) (e f : Nat), e < 2047 → f < 2 ^ 52 →
    (f64 (BitVec.ofNat 64 ((if neg then 2 ^ 63 else 0) + 2 ^ 52 * e + f))).toRat =
      (if neg then -1 else 1) *
        (if e = 0 then (f : ℚ) / 2 ^ 1074 else (1 + (f : ℚ) / 2 ^ 52) * 2 ^ e / 2 ^ 1023)

/-- R101: each of the five operations on finite operands is the real result rounded to nearest, ties to even. -/
def Obligations.OperationsRoundToNearestEven : Prop :=
  ∀ x y : F64, isFinite x = true → isFinite y = true →
    RoundsTo ((x.toRat : ℝ) + (y.toRat : ℝ)) (fadd x y) ∧
    RoundsTo ((x.toRat : ℝ) - (y.toRat : ℝ)) (fsub x y) ∧
    RoundsTo ((x.toRat : ℝ) * (y.toRat : ℝ)) (fmul x y) ∧
    (y.toRat ≠ 0 → RoundsTo ((x.toRat : ℝ) / (y.toRat : ℝ)) (fdiv x y)) ∧
    (0 ≤ x.toRat → RoundsTo (√(x.toRat : ℝ)) (fsqrt x))

/-- R8: the ordered comparison of finite values is that of their values, so +0 equals -0, and with a NaN it is false;
`fneg` flips bit 63 and nothing else. R114: a sign moves through a multiplication or a division without changing a bit, so
the two spellings of a factor -2 agree. -/
def Obligations.ComparisonsAndSigns : Prop :=
  (∀ x y : F64, isFinite x = true → isFinite y = true → (flt x y = true ↔ x.toRat < y.toRat)) ∧
  (∀ x y : F64, x = .nan ∨ y = .nan → flt x y = false ∧ fgt x y = false) ∧
  (∀ x : F64, x ≠ .nan → bits (fneg x) = bits x ^^^ 0x8000000000000000#64) ∧
  (∀ x y : F64, fmul (fneg x) y = fneg (fmul x y) ∧ fmul x (fneg y) = fneg (fmul x y) ∧
    fdiv (fneg x) y = fneg (fdiv x y)) ∧
  (∀ x : F64, fmul (fneg two) x = fneg (fmul two x))

/-- R102: `PI64` is the binary64 value nearest to π, and `TWO_PI64`, the product of 2 and `PI64`, is exactly twice it. -/
def Obligations.TwoPi : Prop :=
  pi64 = f64 0x400921FB54442D18#64 ∧ fmul (f64 0x4000000000000000#64) pi64 = twoPi64 ∧
  twoPi64 = f64 0x401921FB54442D18#64 ∧ twoPi64.toRat = 2 * pi64.toRat ∧
  ∀ z : F64, isFinite z = true → |Real.pi - (pi64.toRat : ℝ)| ≤ |Real.pi - (z.toRat : ℝ)|

/-- R103, `Cos64` and `Sin64`: special values and faithful rounding, the result of `Sin64` having the sign of the sine, a
zero included, for every choice the model's `PRIM` may make. The faithful clauses are stated where the exact value is at
least 2^-1100 in absolute value; no operand is known to fall below (K4), but that is not proved (log 9). -/
def Obligations.TrigIsFaithful : Prop :=
  ∀ c : PrimChoice,
    (∀ x : F64, isFinite x = true → x.toRat ≠ 0 → 1 ≤ |Real.cos (x.toRat : ℝ)| * 2 ^ 1100 →
      Faithful (Real.cos (x.toRat : ℝ)) (c.prim.cos64 x)) ∧
    (∀ x : F64, isFinite x = true → x.toRat ≠ 0 → 1 ≤ |Real.sin (x.toRat : ℝ)| * 2 ^ 1100 ∨ |x.toRat| * 2 ^ 30 < 1 →
      Faithful (Real.sin (x.toRat : ℝ)) (c.prim.sin64 x) ∧
        ((c.prim.sin64 x).sign = true ↔ Real.sin (x.toRat : ℝ) < 0)) ∧
    c.prim.cos64 zero = one ∧ c.prim.cos64 (fneg zero) = one ∧
    c.prim.sin64 zero = zero ∧ c.prim.sin64 (fneg zero) = fneg zero ∧
    (∀ x : F64, isFinite x = false → c.prim.cos64 x = .nan ∧ c.prim.sin64 x = .nan)

/-- R103, `Pow10_64`: special values and faithful rounding of every finite operand, a zero result being +0, for every choice
the model's `PRIM` may make. -/
def Obligations.PowerOfTenIsFaithful : Prop :=
  ∀ c : PrimChoice,
    (∀ x : F64, isFinite x = true → Faithful ((10 : ℝ) ^ (x.toRat : ℝ)) (c.prim.pow10 x)) ∧
    (∀ x : F64, isFinite x = true → (c.prim.pow10 x).sign = false ∧ flt (c.prim.pow10 x) zero = false) ∧
    c.prim.pow10 zero = one ∧ c.prim.pow10 (fneg zero) = one ∧
    c.prim.pow10 (.inf false) = .inf false ∧ c.prim.pow10 (.inf true) = zero ∧ c.prim.pow10 .nan = .nan

/-- R101 and R8 (IEEE 754, log 14) where `OperationsRoundToNearestEven` does not speak: operands that are NaN or infinite,
division by zero, roots of negative values, the sign of every product, quotient and zero sum, and the comparisons of
infinities. -/
def Obligations.SpecialOperandsAndSigns : Prop :=
  (∀ x : F64, fadd .nan x = .nan ∧ fadd x .nan = .nan ∧ fsub .nan x = .nan ∧ fsub x .nan = .nan ∧
    fmul .nan x = .nan ∧ fmul x .nan = .nan ∧ fdiv .nan x = .nan ∧ fdiv x .nan = .nan ∧ fsqrt .nan = .nan) ∧
  (∀ a b : Bool, fadd (.inf a) (.inf b) = (if a = b then .inf a else .nan) ∧
    fsub (.inf a) (.inf b) = (if a = b then .nan else .inf a) ∧
    fmul (.inf a) (.inf b) = .inf (a ^^ b) ∧ fdiv (.inf a) (.inf b) = .nan ∧
    fsqrt (.inf a) = (if a then .nan else .inf false) ∧ flt (.inf a) (.inf b) = (a && !b)) ∧
  (∀ (a : Bool) (x : F64), isFinite x = true →
    fadd (.inf a) x = .inf a ∧ fadd x (.inf a) = .inf a ∧ fsub (.inf a) x = .inf a ∧ fsub x (.inf a) = .inf (!a) ∧
    fmul (.inf a) x = (if x.toRat = 0 then .nan else .inf (a ^^ x.sign)) ∧
    fmul x (.inf a) = (if x.toRat = 0 then .nan else .inf (x.sign ^^ a)) ∧
    fdiv (.inf a) x = .inf (a ^^ x.sign) ∧ fdiv x (.inf a) = (if x.sign ^^ a then fneg zero else zero) ∧
    flt (.inf a) x = a ∧ flt x (.inf a) = !a) ∧
  (∀ x : F64, isFinite x = true → (x.toRat < 0 → fsqrt x = .nan) ∧ (x.toRat = 0 → fsqrt x = x)) ∧
  (∀ x y : F64, isFinite x = true → isFinite y = true →
    (x.toRat + y.toRat = 0 → fadd x y = if x.sign && y.sign then fneg zero else zero) ∧
    (x.toRat = y.toRat → fsub x y = if x.sign && !y.sign then fneg zero else zero) ∧
    (fmul x y).sign = (x.sign ^^ y.sign) ∧
    (y.toRat ≠ 0 → (fdiv x y).sign = (x.sign ^^ y.sign)) ∧
    (y.toRat = 0 → fdiv x y = if x.toRat = 0 then .nan else .inf (x.sign ^^ y.sign)))
end

