-- ==== Sys2Proof/Laws/Float.lean ====
section
/-! SUPPORT. What each definition of Machine/Float.lean computes: magnitudes and their values, rounding to nearest even,
the integer square root, encodings. -/

namespace Sys2Proof.Machine

/-! ### Forcing is no operation -/

@[simp] theorem forceNat_eq {α : Type} (n : Nat) (k : Nat → α) : forceNat n k = k n := by
  cases n <;> rfl

@[simp] theorem forceInt_eq {α : Type} (i : Int) (k : Int → α) : forceInt i k = k i := by
  cases i <;> simp [forceInt]

/-! ### Magnitudes and their values -/

/-- A normal magnitude by exponent and fraction field. -/
theorem units_normal (e f : Nat) (he : 1 ≤ e) (hf : f < 2 ^ 52) :
    units (2 ^ 52 * e + f) = (2 ^ 52 + f) * 2 ^ (e - 1) := by
  unfold units
  rw [if_neg (by omega)]
  congr 2
  · omega
  · congr 1; omega

theorem units_subnormal {m : Nat} (h : m ≤ 2 ^ 52) : units m = m := by
  unfold units
  split
  · rfl
  · have : m = 2 ^ 52 := by omega
    subst this; rfl

/-- The step from a normal magnitude to the next. -/
theorem units_succ_normal (e f : Nat) (he : 1 ≤ e) (hf : f < 2 ^ 52) :
    units (2 ^ 52 * e + f + 1) = (2 ^ 52 + f + 1) * 2 ^ (e - 1) := by
  by_cases h : f + 1 < 2 ^ 52
  · rw [Nat.add_assoc, units_normal e (f + 1) he h, Nat.add_assoc]
  · have h1 : 2 ^ 52 * e + f + 1 = 2 ^ 52 * (e + 1) + 0 := by omega
    have h2 : 2 ^ 52 + f + 1 = 2 ^ 52 * 2 := by omega
    obtain ⟨e, rfl⟩ : ∃ e', e = e' + 1 := ⟨e - 1, by omega⟩
    rw [h1, units_normal _ 0 (by omega) (by norm_num), h2]
    simp [pow_succ]; ring

/-- Every magnitude is subnormal or normal. -/
theorem mag_cases (m : Nat) : m < 2 ^ 52 ∨ ∃ e f, 1 ≤ e ∧ f < 2 ^ 52 ∧ m = 2 ^ 52 * e + f := by
  by_cases h : m < 2 ^ 52
  · exact Or.inl h
  · exact Or.inr ⟨m / 2 ^ 52, m % 2 ^ 52, by omega, by omega, by omega⟩

/-- The step to the next magnitude is at least one unit and at least 2^-53 of the value. -/
theorem units_succ_ge (m : Nat) : units m + 1 ≤ units (m + 1) ∧ units m ≤ 2 ^ 53 * (units (m + 1) - units m) := by
  rcases mag_cases m with h | ⟨e, f, he, hf, rfl⟩
  · rw [units_subnormal (by omega), units_subnormal (by omega)]; omega
  · rw [units_normal e f he hf, units_succ_normal e f he hf]
    have hp : 1 ≤ 2 ^ (e - 1) := Nat.one_le_two_pow
    have h1 : (2 ^ 52 + f + 1) * 2 ^ (e - 1) = (2 ^ 52 + f) * 2 ^ (e - 1) + 2 ^ (e - 1) := by ring
    rw [h1, Nat.add_sub_cancel_left]
    exact ⟨by omega, Nat.mul_le_mul_right _ (by omega)⟩

theorem units_strictMono : StrictMono units :=
  strictMono_nat_of_lt_succ fun m => by have := (units_succ_ge m).1; omega

@[simp] theorem units_le_units {m n : Nat} : units m ≤ units n ↔ m ≤ n := units_strictMono.le_iff_le
@[simp] theorem units_lt_units {m n : Nat} : units m < units n ↔ m < n := units_strictMono.lt_iff_lt
@[simp] theorem units_zero : units 0 = 0 := rfl
theorem units_pos {m : Nat} (h : 0 < m) : 0 < units m := by rw [← units_zero]; exact units_lt_units.2 h

/-- `floorMag n` is the largest magnitude whose value is at most `n`. -/
theorem floorMag_spec (n : Nat) : units (floorMag n) ≤ n ∧ n < units (floorMag n + 1) := by
  unfold floorMag
  split
  · rename_i h
    rw [units_subnormal (by omega), units_subnormal (by omega)]; omega
  · rename_i h
    have hn : n ≠ 0 := by omega
    have hL : 52 ≤ Nat.log2 n := (Nat.le_log2 hn).2 (by omega)
    obtain ⟨k, hk⟩ : ∃ k, Nat.log2 n = k + 52 := ⟨Nat.log2 n - 52, by omega⟩
    have h1 : 2 ^ (k + 52) ≤ n := hk ▸ Nat.log2_self_le hn
    have h2 : n < 2 ^ (k + 52 + 1) := hk ▸ Nat.lt_log2_self
    have hp : 0 < 2 ^ k := Nat.two_pow_pos k
    have hq1 : 2 ^ 52 ≤ n / 2 ^ k := by
      rw [Nat.le_div_iff_mul_le hp, ← pow_add, Nat.add_comm]; exact h1
    have hq2 : n / 2 ^ k < 2 ^ 53 := by
      rw [Nat.div_lt_iff_lt_mul hp, ← pow_add, show 53 + k = k + 52 + 1 by omega]; exact h2
    rw [hk, Nat.add_sub_cancel]
    obtain ⟨f, hf⟩ : ∃ f, n / 2 ^ k = 2 ^ 52 + f := ⟨n / 2 ^ k - 2 ^ 52, by omega⟩
    have hm : k * 2 ^ 52 + n / 2 ^ k = 2 ^ 52 * (k + 1) + f := by rw [hf]; ring
    rw [hm, units_normal _ f (by omega) (by omega), units_succ_normal _ f (by omega) (by omega), ← hf,
      Nat.add_sub_cancel]
    exact ⟨Nat.div_mul_le_self n _, by
      have := Nat.div_add_mod n (2 ^ k); have := Nat.mod_lt n hp; nlinarith⟩

/-- The magnitude below a value is determined by its defining property. -/
theorem floorMag_eq {n m : Nat} (h1 : units m ≤ n) (h2 : n < units (m + 1)) : floorMag n = m := by
  have h := floorMag_spec n
  have a : m < floorMag n + 1 := units_lt_units.1 (lt_of_le_of_lt h1 h.2)
  have b : floorMag n < m + 1 := units_lt_units.1 (lt_of_le_of_lt h.1 h2)
  omega

/-! ### The integer square root -/

theorem isqrtLoop_eq (n : Nat) : ∀ fuel x, Nat.sqrt n ≤ x → x < Nat.sqrt n + 2 ^ fuel → 0 < n →
    isqrtLoop n fuel x = Nat.sqrt n
  | 0, x, h1, h2, _ => by simp [isqrtLoop]; omega
  | fuel + 1, x, h1, h2, hn => by
    have hs : 0 < Nat.sqrt n := Nat.sqrt_pos.2 hn
    have hx : 0 < x := by omega
    -- Newton's step from above stays above
    have hge : Nat.sqrt n ≤ (x + n / x) / 2 := by
      rw [Nat.le_div_iff_mul_le (by norm_num)]
      have hlt : n < x * (n / x + 1) := Nat.lt_mul_div_succ n hx
      have hsq : Nat.sqrt n * Nat.sqrt n ≤ n := Nat.sqrt_le n
      by_contra hc
      have h3 : x + n / x + 1 ≤ Nat.sqrt n * 2 := by omega
      have h4 : x * (n / x + 1) * 4 ≤ (x + (n / x + 1)) ^ 2 := by nlinarith [sq_nonneg ((x : ℤ) - (n / x + 1 : ℕ)), four_mul_le_sq_add x (n / x + 1)]
      nlinarith
    simp only [isqrtLoop, forceNat_eq]
    split
    · rename_i hy
      refine isqrtLoop_eq n fuel _ hge ?_ hn
      have hxs : Nat.sqrt n < x := lt_of_le_of_lt hge hy
      have hd : n / x ≤ Nat.sqrt n := by
        rw [← Nat.lt_succ_iff, Nat.div_lt_iff_lt_mul hx]
        have := Nat.lt_succ_sqrt n
        nlinarith
      rw [pow_succ] at h2
      omega
    · rename_i hy
      -- no smaller value: `x * x ≤ n`
      have hle : x * 2 ≤ x + n / x := by
        have : x ≤ (x + n / x) / 2 := by omega
        omega
      have : x * x ≤ n := by
        have h5 : x ≤ n / x := by omega
        calc x * x ≤ x * (n / x) := Nat.mul_le_mul_left _ h5
          _ ≤ n := Nat.mul_div_le n x
      exact le_antisymm (Nat.le_sqrt.2 this) h1

/-- `isqrt` is the integer square root. -/
theorem isqrt_eq (n : Nat) : isqrt n = Nat.sqrt n := by
  unfold isqrt
  split
  · rename_i h; subst h; simp
  · rename_i h
    have h1 : n < 2 ^ (Nat.log2 n + 1) := Nat.lt_log2_self
    have h2 : (2 : ℕ) ^ (Nat.log2 n + 1) ≤ (2 ^ (Nat.log2 n / 2 + 1)) ^ 2 := by
      rw [← pow_mul]; exact Nat.pow_le_pow_right (by norm_num) (by omega)
    refine isqrtLoop_eq n _ _ ?_ ?_ (Nat.pos_of_ne_zero h)
    · rw [← Nat.lt_succ_iff]
      exact Nat.lt_succ_of_le (Nat.le_of_lt (Nat.sqrt_lt'.2 (lt_of_lt_of_le h1 h2)))
    · have : (2 : ℕ) ^ (Nat.log2 n / 2 + 1) < 2 ^ (Nat.log2 n + 3) := Nat.pow_lt_pow_right (by norm_num) (by omega)
      omega

end Sys2Proof.Machine
end

