-- ==== Sys2Proof/Laws/Round.lean ====
section
/-! SUPPORT. Rounding to nearest even (40_derivation.md R101): the rounded magnitude is the nearest one, and the rounded
value is `RoundsTo`. -/

namespace Sys2Proof.Machine

/-! ### The nearest magnitude -/

/-- Of all magnitudes (from `magBound` on, those of an unbounded format) `m` is the nearest to `v` units, and even where
another one is as near. -/
structure Nearest (v : ℝ) (m : Nat) : Prop where
  le : ∀ k : Nat, |v - units m| ≤ |v - units k|
  even : ∀ k : Nat, k ≠ m → |v - units m| = |v - units k| → m % 2 = 0

theorem cast_units_le {m n : Nat} (h : m ≤ n) : (units m : ℝ) ≤ units n := by exact_mod_cast units_le_units.2 h
theorem cast_units_lt {m n : Nat} (h : m < n) : (units m : ℝ) < units n := by exact_mod_cast units_lt_units.2 h
theorem cast_units_nonneg (m : Nat) : (0 : ℝ) ≤ units m := Nat.cast_nonneg _

/-- The choice between the magnitude below `v` and the next one is the nearest magnitude. -/
theorem nearerMag_nearest {v : ℝ} {lo : Nat} {cmp : Ordering} (h1 : (units lo : ℝ) ≤ v) (h2 : v < units (lo + 1))
    (hlt : cmp = .lt → 2 * v < units lo + units (lo + 1)) (heq : cmp = .eq → 2 * v = units lo + units (lo + 1))
    (hgt : cmp = .gt → (units lo : ℝ) + units (lo + 1) < 2 * v) : Nearest v (nearerMag lo cmp) := by
  -- distances
  have dlo : ∀ k, k ≤ lo → |v - units k| = v - units k := fun k hk =>
    abs_of_nonneg (by have := cast_units_le hk; linarith)
  have dhi : ∀ k, lo + 1 ≤ k → |v - units k| = units k - v := fun k hk => by
    rw [abs_sub_comm]; exact abs_of_nonneg (by have := cast_units_le hk; linarith)
  have key : ∀ k, (k ≤ lo ∧ (k ≠ lo → (units k : ℝ) < units lo)) ∨
      (lo + 1 ≤ k ∧ (k ≠ lo + 1 → (units (lo + 1) : ℝ) < units k)) := fun k => by
    by_cases hk : k ≤ lo
    · exact Or.inl ⟨hk, fun hne => cast_units_lt (by omega)⟩
    · exact Or.inr ⟨by omega, fun hne => cast_units_lt (by omega)⟩
  have nearLo : 2 * v ≤ units lo + units (lo + 1) → ∀ k, |v - units lo| ≤ |v - units k| := fun h k => by
    rw [dlo lo le_rfl]
    rcases key k with ⟨hk, -⟩ | ⟨hk, -⟩
    · rw [dlo k hk]; have := cast_units_le hk; linarith
    · rw [dhi k hk]; have := cast_units_le hk; linarith
  have nearHi : units lo + units (lo + 1) ≤ 2 * v → ∀ k, |v - units (lo + 1)| ≤ |v - units k| := fun h k => by
    rw [dhi _ le_rfl]
    rcases key k with ⟨hk, -⟩ | ⟨hk, -⟩
    · rw [dlo k hk]; have := cast_units_le hk; linarith
    · rw [dhi k hk]; have := cast_units_le hk; linarith
  cases cmp with
  | lt =>
    have h := hlt rfl
    refine ⟨nearLo h.le, fun k hk ht => ?_⟩
    exfalso
    simp only [nearerMag] at hk ht
    rw [dlo lo le_rfl] at ht
    rcases key k with ⟨hk', hk2⟩ | ⟨hk', -⟩
    · rw [dlo k hk'] at ht; have := hk2 hk; linarith
    · rw [dhi k hk'] at ht; have := cast_units_le hk'; linarith
  | gt =>
    have h := hgt rfl
    refine ⟨nearHi h.le, fun k hk ht => ?_⟩
    exfalso
    simp only [nearerMag] at hk ht
    rw [dhi _ le_rfl] at ht
    rcases key k with ⟨hk', -⟩ | ⟨hk', hk2⟩
    · rw [dlo k hk'] at ht; have := cast_units_le hk'; linarith
    · rw [dhi k hk'] at ht; have := hk2 hk; linarith
  | eq =>
    have h := heq rfl
    simp only [nearerMag]
    split
    · exact ⟨nearLo h.le, fun _ _ _ => by assumption⟩
    · exact ⟨nearHi h.ge, fun _ _ _ => by omega⟩

/-- `roundMag n d` is the magnitude nearest to `n / d`. -/
theorem roundMag_nearest (n : Nat) {d : Nat} (hd : 0 < d) : Nearest ((n : ℝ) / d) (roundMag n d) := by
  obtain ⟨h1, h2⟩ := floorMag_spec (n / d)
  have hd' : (0 : ℝ) < d := by exact_mod_cast hd
  simp only [roundMag, forceNat_eq]
  generalize floorMag (n / d) = lo at *
  have e : ∀ a : ℝ, 2 * ((n : ℝ) / d) < a ↔ 2 * (n : ℝ) < a * d := fun a => by
    rw [← mul_div_assoc, div_lt_iff₀ hd']
  have e' : ∀ a : ℝ, a < 2 * ((n : ℝ) / d) ↔ a * d < 2 * (n : ℝ) := fun a => by
    rw [← mul_div_assoc, lt_div_iff₀ hd']
  apply nearerMag_nearest
  · rw [le_div_iff₀ hd']
    exact_mod_cast (Nat.le_div_iff_mul_le hd).1 h1
  · rw [div_lt_iff₀ hd']
    exact_mod_cast (Nat.div_lt_iff_lt_mul hd).1 h2
  · intro h
    rw [e]; exact_mod_cast Nat.compare_eq_lt.1 h
  · intro h
    rw [← mul_div_assoc, div_eq_iff hd'.ne']; exact_mod_cast Nat.compare_eq_eq.1 h
  · intro h
    rw [e']; exact_mod_cast Nat.compare_eq_gt.1 h

/-- `roundSqrtMag n` is the magnitude nearest to `√n`. -/
theorem roundSqrtMag_nearest (n : Nat) : Nearest (√(n : ℝ)) (roundSqrtMag n) := by
  obtain ⟨h1, h2⟩ := floorMag_spec (isqrt n)
  simp only [roundSqrtMag, forceNat_eq]
  rw [isqrt_eq] at *
  generalize floorMag (Nat.sqrt n) = lo at *
  have h4 : (2 * √(n : ℝ)) ^ 2 = ((4 * n : ℕ) : ℝ) := by
    rw [mul_pow, Real.sq_sqrt (Nat.cast_nonneg _)]; push_cast; ring
  have hs : 0 ≤ 2 * √(n : ℝ) := by positivity
  have hu : (0 : ℝ) ≤ units lo + units (lo + 1) := by positivity
  have hq : ((units lo : ℝ) + units (lo + 1)) ^ 2 = (((units lo + units (lo + 1)) ^ 2 : ℕ) : ℝ) := by push_cast; rfl
  apply nearerMag_nearest
  · apply Real.le_sqrt_of_sq_le
    exact_mod_cast Nat.le_sqrt'.1 h1
  · rw [Real.sqrt_lt' (by exact_mod_cast lt_of_le_of_lt (Nat.zero_le _) h2)]
    exact_mod_cast Nat.sqrt_lt'.1 h2
  · intro h
    refine lt_of_pow_lt_pow_left₀ 2 hu ?_
    rw [h4, hq]; exact_mod_cast Nat.compare_eq_lt.1 h
  · intro h
    refine (pow_left_inj₀ hs hu two_ne_zero).1 ?_
    rw [h4, hq]; exact_mod_cast Nat.compare_eq_eq.1 h
  · intro h
    refine lt_of_pow_lt_pow_left₀ 2 hs ?_
    rw [h4, hq]; exact_mod_cast Nat.compare_eq_gt.1 h

/-! ### The rounded value -/

/-- The middle between the largest finite value and 2^1024, in units. -/
theorem overflowBound_units :
    (overflowBound : ℝ) * 2 ^ 1074 = ((units (magBound - 1) : ℝ) + units magBound) / 2 := by
  have h1 : units (magBound - 1) = (2 ^ 53 - 1) * 2 ^ 2045 := by
    rw [show magBound - 1 = 2 ^ 52 * 2046 + (2 ^ 52 - 1) by decide, units_normal _ _ (by norm_num) (by norm_num),
      show 2 ^ 52 + (2 ^ 52 - 1) = 2 ^ 53 - 1 by norm_num]
  have h2 : units magBound = 2 ^ 53 * 2 ^ 2045 := by
    rw [show magBound = 2 ^ 52 * 2047 + 0 by decide, units_normal _ _ (by norm_num) (by norm_num)]
    rw [show (2 : ℕ) ^ 53 = 2 * 2 ^ 52 by norm_num, show 2047 - 1 = 2045 + 1 from rfl, pow_succ (n := 2045)]
    generalize (2 : ℕ) ^ 2045 = a
    omega
  rw [h1, h2]
  unfold overflowBound
  push_cast
  rw [show (1024 : ℕ) = 971 + 53 from rfl, show (2045 : ℕ) = 971 + 1074 from rfl, show (971 : ℕ) = 970 + 1 from rfl]
  simp only [pow_add]
  generalize (2 : ℝ) ^ 970 = a
  generalize (2 : ℝ) ^ 1074 = b
  ring

/-- Rounding overflows exactly from the middle on. -/
theorem Nearest.lt_magBound_iff {v : ℝ} {m : Nat} (h : Nearest v m) :
    m < magBound ↔ v < overflowBound * 2 ^ 1074 := by
  rw [overflowBound_units]
  have hM : (units (magBound - 1) : ℝ) < units magBound := cast_units_lt (by decide)
  have hinj : (units m : ℝ) = units (magBound - 1) → m = magBound - 1 := fun e =>
    units_strictMono.injective (by exact_mod_cast e)
  have hle1 := h.le (magBound - 1)
  have hle2 := h.le magBound
  have heven := h.even magBound
  have hlow : m < magBound → (units m : ℝ) ≤ units (magBound - 1) := fun hm => cast_units_le (by omega)
  have hhigh : ¬ m < magBound → (units magBound : ℝ) ≤ units m := fun hm => cast_units_le (by omega)
  generalize (units (magBound - 1) : ℝ) = A at *
  generalize (units magBound : ℝ) = B at *
  generalize (units m : ℝ) = u at *
  constructor
  · intro hm
    have hle := hlow hm
    by_contra hc
    rw [not_lt] at hc
    rw [abs_of_nonneg (by linarith : 0 ≤ v - u)] at hle2 heven
    rcases le_total v B with hvb | hvb
    · rw [abs_of_nonpos (by linarith : v - B ≤ 0)] at hle2 heven
      -- a tie with the odd largest magnitude
      have hmm := hinj (by linarith)
      have := heven (by omega) (by linarith)
      rw [hmm] at this
      exact absurd this (by decide)
    · rw [abs_of_nonneg (by linarith : 0 ≤ v - B)] at hle2
      linarith
  · intro hv2
    by_contra hm
    have hle := hhigh hm
    rw [abs_of_nonpos (by linarith : v - u ≤ 0)] at hle1
    rcases le_total v A with hvm | hvm
    · rw [abs_of_nonpos (by linarith)] at hle1; linarith
    · rw [abs_of_nonneg (by linarith)] at hle1; linarith

/-- `v` with a sign. -/
def withSign (neg : Bool) (v : ℝ) : ℝ := if neg then -v else v

/-- The sign of a magnitude with its sign, an infinity included. -/
@[simp] theorem sign_ofMag (neg : Bool) (m : Nat) : (ofMag neg m).sign = neg := by
  simp only [ofMag, forceNat_eq]
  split <;> rfl

@[simp] theorem sign_roundQuotient (neg : Bool) (n d : Nat) : (roundQuotient neg n d).sign = neg := sign_ofMag _ _

theorem sign_fneg {x : F64} (h : x ≠ .nan) : (fneg x).sign = !x.sign := by
  cases x <;> first | exact absurd rfl h | rfl

theorem toRat_fin (neg : Bool) (m : Fin magBound) :
    ((F64.fin neg m).toRat : ℝ) = withSign neg (units m.val : ℝ) / 2 ^ 1074 := by
  cases neg <;> simp [F64.toRat, signedUnits, withSign]

/-- The value of a magnitude nearest to `v` units is the value rounded to nearest even. -/
theorem Nearest.roundsTo {v : ℝ} {m : Nat} (h : Nearest v m) (hv : 0 ≤ v) (neg : Bool) :
    RoundsTo (withSign neg v / 2 ^ 1074) (ofMag neg m) := by
  have hp : (0 : ℝ) < 2 ^ 1074 := by positivity
  simp only [ofMag, forceNat_eq]
  by_cases hm : m < magBound
  · rw [dif_pos hm]
    have hov := h.lt_magBound_iff.1 hm
    -- distances between scaled signed values
    have dist : ∀ x y : ℝ, |x / 2 ^ 1074 - y / 2 ^ 1074| = |x - y| / 2 ^ 1074 := fun x y => by
      rw [← sub_div, abs_div, abs_of_pos hp]
    have habs : |withSign neg v| = v := by cases neg <;> simp [withSign, abs_of_nonneg hv]
    have hd0 : |withSign neg v - withSign neg (units m : ℝ)| = |v - units m| := by
      cases neg
      · rfl
      · simp only [withSign, if_true]; rw [← abs_neg]; congr 1; ring
    have hd : ∀ s (k : Nat), s = neg ∨ s ≠ neg ∧
        |withSign neg v - withSign s (units k : ℝ)| = v + units k := fun s k => by
      by_cases hs : s = neg
      · exact Or.inl hs
      · refine Or.inr ⟨hs, ?_⟩
        have hk : (0 : ℝ) ≤ units k := cast_units_nonneg k
        cases s <;> cases neg
        · exact absurd rfl hs
        · show |-v - (units k : ℝ)| = _
          rw [abs_of_nonpos (by linarith)]; ring
        · show |v - -(units k : ℝ)| = _
          rw [abs_of_nonneg (by linarith)]; ring
        · exact absurd rfl hs
    have h0 := h.le 0
    simp only [units_zero, Nat.cast_zero, sub_zero, abs_of_nonneg hv] at h0
    refine ⟨?_, ?_, ?_, ?_, ?_⟩
    · rw [abs_div, abs_of_pos hp, habs, div_lt_iff₀ hp]; exact hov
    · intro hpos
      rw [div_pos_iff_of_pos_right hp] at hpos
      cases neg
      · rfl
      · simp [withSign] at hpos; linarith
    · intro hneg
      rw [div_lt_iff₀ hp, zero_mul] at hneg
      cases neg
      · simp [withSign] at hneg; linarith
      · rfl
    · intro z hz
      cases z with
      | nan => cases hz
      | inf _ => cases hz
      | fin s k =>
        rw [toRat_fin, toRat_fin, dist, dist, hd0]
        refine div_le_div_of_nonneg_right ?_ hp.le
        rcases hd s k.val with rfl | ⟨-, hdk⟩
        · have : |withSign s v - withSign s (units k.val : ℝ)| = |v - units k.val| := by
            cases s
            · rfl
            · simp only [withSign, if_true]; rw [← abs_neg]; congr 1; ring
          rw [this]; exact h.le k.val
        · rw [hdk]; have := cast_units_nonneg k.val; linarith
    · intro z hz hne ht
      cases z with
      | nan => cases hz
      | inf _ => cases hz
      | fin s k =>
        have hneR : (withSign s (units k.val : ℝ)) ≠ withSign neg (units m : ℝ) := fun he => hne (by
          have : ((F64.fin s k).toRat : ℝ) = ((F64.fin neg ⟨m, hm⟩).toRat : ℝ) := by
            rw [toRat_fin, toRat_fin, he]
          exact_mod_cast this)
        rw [toRat_fin, toRat_fin, dist, dist, hd0, div_left_inj' hp.ne'] at ht
        rcases hd s k.val with rfl | ⟨-, hdk⟩
        · have : |withSign s v - withSign s (units k.val : ℝ)| = |v - units k.val| := by
            cases s
            · rfl
            · simp only [withSign, if_true]; rw [← abs_neg]; congr 1; ring
          rw [this] at ht
          exact h.even k.val (fun he => hneR (by rw [he])) ht
        · -- a value of the other sign as near: it is a zero
          rw [hdk] at ht
          have hk := cast_units_nonneg k.val
          have hk0 : (units k.val : ℝ) = 0 := by linarith
          have hm0 : m ≠ 0 := fun he => hneR (by rw [hk0, he]; simp [withSign])
          refine h.even 0 (Ne.symm hm0) ?_
          rw [ht, hk0]
          simp [abs_of_nonneg hv]
  · rw [dif_neg hm]
    have hov : (overflowBound : ℝ) * 2 ^ 1074 ≤ v := by
      rw [← not_lt]; exact fun hc => hm (h.lt_magBound_iff.2 hc)
    cases neg
    · show (overflowBound : ℝ) ≤ _
      rw [le_div_iff₀ hp]; exact hov
    · show _ ≤ -(overflowBound : ℝ)
      rw [div_le_iff₀ hp]; simp only [withSign, if_true]; linarith

end Sys2Proof.Machine
end

