-- ==== Sys2Proof/Laws/Faithful.lean ====
section
/-! SUPPORT. Faithful rounding (40_derivation.md R103): what the candidates of an enclosure are. -/

namespace Sys2Proof.Machine

/-- The magnitude `m` is a faithful rounding of `v` units: exact, or just below, or just above (`magBound` standing for
infinity). -/
def FaithfulMag (v : ℝ) (m : Nat) : Prop :=
  (m < magBound ∧ (units m : ℝ) = v) ∨
  (m < magBound ∧ (units m : ℝ) < v ∧ (v < units (m + 1) ∨ m = maxMag)) ∨
  (0 < m ∧ m ≤ magBound ∧ (units (m - 1) : ℝ) < v ∧ (v < units m ∨ m = magBound))

/-- A faithful magnitude with its sign is a faithful value. -/
theorem FaithfulMag.faithful {v : ℝ} {m : Nat} (h : FaithfulMag v m) (hv : 0 < v) (neg : Bool) :
    Faithful (withSign neg v / 2 ^ 1074) (ofMag neg m) := by
  have hp : (0 : ℝ) < 2 ^ 1074 := by positivity
  have hz : ∀ z : F64, isFinite z = true → ∃ s, ∃ k : Nat, k < magBound ∧
      (z.toRat : ℝ) = withSign s (units k : ℝ) / 2 ^ 1074 := by
    intro z hz
    cases z with
    | nan => cases hz
    | inf _ => cases hz
    | fin s k => exact ⟨s, k.val, k.isLt, toRat_fin s k⟩
  have hw : ∀ a : ℝ, withSign neg a = if neg then -a else a := fun _ => rfl
  have hmax : ∀ k, k < magBound → (units k : ℝ) ≤ units maxMag := fun k hk =>
    cast_units_le (by have : maxMag + 1 = magBound := rfl; omega)
  simp only [ofMag, forceNat_eq]
  unfold Faithful
  by_cases hm : m < magBound
  · rw [dif_pos hm]
    show ((F64.fin neg ⟨m, hm⟩).toRat : ℝ) = _ ∨ _
    have ht := toRat_fin neg ⟨m, hm⟩
    by_cases heq : (units m : ℝ) = v
    · left; rw [ht, ← heq]
    right
    -- between two adjacent magnitudes, or above all of them
    have hgap : ∃ lo, (units lo : ℝ) < v ∧ (∀ k, k < magBound → (units k : ℝ) ≤ units lo ∨ v < units k) ∧
        (m = lo ∨ m = lo + 1 ∧ v < units m) := by
      rcases h with ⟨-, h⟩ | ⟨-, h1, h2⟩ | ⟨h0, -, h1, h2⟩
      · exact absurd h heq
      · refine ⟨m, h1, fun k hk => ?_, Or.inl rfl⟩
        rcases h2 with h2 | rfl
        · by_cases hkm : k ≤ m
          · exact Or.inl (cast_units_le hkm)
          · exact Or.inr (lt_of_lt_of_le h2 (cast_units_le (by omega)))
        · exact Or.inl (hmax k hk)
      · have h2 : v < units m := h2.resolve_right (by omega)
        refine ⟨m - 1, h1, fun k _ => ?_, Or.inr ⟨by omega, h2⟩⟩
        by_cases hkm : k ≤ m - 1
        · exact Or.inl (cast_units_le hkm)
        · exact Or.inr (lt_of_lt_of_le h2 (cast_units_le (by omega)))
    obtain ⟨lo, hlo, hall, hml⟩ := hgap
    have hlo0 := cast_units_nonneg lo
    -- the same for the signed finite values
    have hside : ∀ z : F64, isFinite z = true → (z.toRat : ℝ) ≠ withSign neg v / 2 ^ 1074 := by
      intro z hzf he
      obtain ⟨s, k, hk, hzk⟩ := hz z hzf
      rw [hzk, div_left_inj' hp.ne'] at he
      have : (units k : ℝ) = v := by
        have hk0 := cast_units_nonneg k
        cases s <;> cases neg <;> simp [withSign] at he <;> linarith
      rcases hall k hk with h | h <;> linarith
    refine ⟨hside, ?_⟩
    have cmp : ∀ z : F64, isFinite z = true → ∃ s, ∃ k : Nat,
        (z.toRat : ℝ) = withSign s (units k : ℝ) / 2 ^ 1074 ∧ ((units k : ℝ) ≤ units lo ∨ v < units k ∧ (units (lo + 1) : ℝ) ≤ units k) := by
      intro z hzf
      obtain ⟨s, k, hk, hzk⟩ := hz z hzf
      refine ⟨s, k, hzk, ?_⟩
      rcases hall k hk with h | h
      · exact Or.inl h
      · refine Or.inr ⟨h, cast_units_le ?_⟩
        by_contra hc
        have := cast_units_le (show k ≤ lo by omega)
        linarith
    have hcast : ∀ z : F64, ∀ y : F64, (z.toRat : ℝ) ≤ (y.toRat : ℝ) → z.toRat ≤ y.toRat := fun z y h => by
      exact_mod_cast h
    have hdiv : ∀ a b : ℝ, a / 2 ^ 1074 < b / 2 ^ 1074 ↔ a < b := fun a b => div_lt_div_iff_of_pos_right hp
    have hdivle : ∀ a b : ℝ, a / 2 ^ 1074 ≤ b / 2 ^ 1074 ↔ a ≤ b := fun a b => div_le_div_iff_of_pos_right hp
    rw [ht]
    rcases hml with rfl | ⟨rfl, hvm⟩
    · cases neg
      · left
        refine ⟨(hdiv _ _).2 hlo, fun z hzf hlt => hcast _ _ ?_⟩
        obtain ⟨s, k, hzk, hk⟩ := cmp z hzf
        rw [ht, hzk, hdivle]; rw [hzk, hdiv] at hlt
        have hk0 := cast_units_nonneg k
        cases s <;> simp only [withSign, Bool.false_eq_true, if_true, if_false] at hlt ⊢
        · rcases hk with hk | ⟨hk, -⟩ <;> linarith
        · linarith
      · right
        refine ⟨(hdiv _ _).2 (by simp only [withSign, if_true]; linarith), fun z hzf hlt => hcast _ _ ?_⟩
        obtain ⟨s, k, hzk, hk⟩ := cmp z hzf
        rw [ht, hzk, hdivle]; rw [hzk, hdiv] at hlt
        have hk0 := cast_units_nonneg k
        cases s <;> simp only [withSign, Bool.false_eq_true, if_true, if_false] at hlt ⊢
        · linarith
        · rcases hk with hk | ⟨hk, -⟩ <;> linarith
    · cases neg
      · right
        refine ⟨(hdiv _ _).2 hvm, fun z hzf hlt => hcast _ _ ?_⟩
        obtain ⟨s, k, hzk, hk⟩ := cmp z hzf
        rw [ht, hzk, hdivle]; rw [hzk, hdiv] at hlt
        have hk0 := cast_units_nonneg k
        cases s <;> simp only [withSign, Bool.false_eq_true, if_true, if_false] at hlt ⊢
        · rcases hk with hk | ⟨-, hk⟩ <;> linarith
        · linarith
      · left
        refine ⟨(hdiv _ _).2 (by simp only [withSign, if_true]; linarith), fun z hzf hlt => hcast _ _ ?_⟩
        obtain ⟨s, k, hzk, hk⟩ := cmp z hzf
        rw [ht, hzk, hdivle]; rw [hzk, hdiv] at hlt
        have hk0 := cast_units_nonneg k
        cases s <;> simp only [withSign, Bool.false_eq_true, if_true, if_false] at hlt ⊢
        · linarith
        · rcases hk with hk | ⟨-, hk⟩ <;> linarith
  · -- an infinity: the value is above every finite one
    rw [dif_neg hm]
    have hbig : (units maxMag : ℝ) < v := by
      rcases h with ⟨h, -⟩ | ⟨h, -⟩ | ⟨-, h, h1, -⟩
      · exact absurd h hm
      · exact absurd h hm
      · have : m - 1 = maxMag := by have : maxMag + 1 = magBound := rfl; omega
        rwa [this] at h1
    cases neg
    · intro z hzf
      obtain ⟨s, k, hk, hzk⟩ := hz z hzf
      rw [hzk]
      refine div_lt_div_of_pos_right ?_ hp
      have := hmax k hk
      have := cast_units_nonneg k
      cases s <;> simp only [withSign, Bool.false_eq_true, if_true, if_false] <;> linarith
    · intro z hzf
      obtain ⟨s, k, hk, hzk⟩ := hz z hzf
      rw [hzk]
      refine div_lt_div_of_pos_right ?_ hp
      have := hmax k hk
      have := cast_units_nonneg k
      cases s <;> simp only [withSign, Bool.false_eq_true, if_true, if_false] <;> linarith

theorem pick_cases (b : Bracket) (other : Bool) : b.pick other = b.lo ∨ b.pick other = b.hi := by
  unfold Bracket.pick
  split
  · exact Or.inr rfl
  · exact Or.inl rfl

/-- Either pick of an enclosure is faithful, if no two adjacent magnitudes lie in the enclosure. -/
theorem bracketOf_faithful {v : ℝ} {l u d : Nat} (hd : 0 < d) (hl0 : 0 < l) (hl : (l : ℝ) ≤ v * d)
    (hu : v * d ≤ u) (hsep : ∀ m, l ≤ units m * d → u < units (m + 1) * d) (other : Bool) :
    FaithfulMag v ((bracketOf l u d).pick other) := by
  have hd' : (0 : ℝ) < d := by exact_mod_cast hd
  have hb : maxMag + 1 = magBound := rfl
  have lt_of_mul : ∀ a b : ℝ, a * d < b * d → a < b := fun a b h => lt_of_mul_lt_mul_right h hd'.le
  obtain ⟨hi1, hi2⟩ := floorMag_spec (l / d)
  obtain ⟨hj1, hj2⟩ := floorMag_spec (u / d)
  rw [Nat.le_div_iff_mul_le hd] at hi1 hj1
  rw [Nat.div_lt_iff_lt_mul hd] at hi2 hj2
  have hij : floorMag (l / d) ≤ floorMag (u / d) := by
    have hlu : l ≤ u := by exact_mod_cast hl.trans hu
    have : units (floorMag (l / d)) < units (floorMag (u / d) + 1) :=
      lt_of_mul_lt_mul_right (lt_of_le_of_lt (hi1.trans hlu) hj2) (Nat.zero_le d)
    have := units_lt_units.1 this
    omega
  unfold bracketOf
  simp only [forceNat_eq]
  generalize floorMag (l / d) = a at *
  generalize floorMag (u / d) = b at *
  by_cases hs : min a maxMag = min b maxMag ∧ units (min a maxMag) * d < l
  · rw [if_pos hs]
    obtain ⟨he, hlt⟩ := hs
    generalize hi : min a maxMag = i at *
    have hiv : (units i : ℝ) < v := lt_of_mul _ _ (lt_of_lt_of_le (by exact_mod_cast hlt) hl)
    have htop : v < units (i + 1) ∨ i = maxMag := by
      by_cases hbm : b ≤ maxMag
      · left
        have : i = b := by omega
        subst this
        exact lt_of_mul _ _ (lt_of_le_of_lt hu (by exact_mod_cast hj2))
      · right; omega
    have him : i ≤ maxMag := by omega
    rcases pick_cases _ other with hp | hp <;> rw [hp] <;> dsimp only
    · exact Or.inr (Or.inl ⟨by omega, hiv, htop⟩)
    · exact Or.inr (Or.inr ⟨by omega, by omega, hiv, htop.imp_right fun h => by rw [h, hb]⟩)
  · rw [if_neg hs, Bracket.pick]
    simp only [ite_self]
    have hju : units (min b maxMag) * d ≤ u :=
      (Nat.mul_le_mul_right d (units_le_units.2 (min_le_left _ _))).trans hj1
    have hjl : l ≤ units (min b maxMag) * d := by
      by_cases he : min a maxMag = min b maxMag
      · have := Nat.not_lt.1 fun h => hs ⟨he, h⟩
        rwa [he] at this
      · have : units (a + 1) ≤ units (min b maxMag) := units_le_units.2 (by omega)
        exact hi2.le.trans (Nat.mul_le_mul_right d this)
    have hjm : min b maxMag < magBound := by omega
    generalize min b maxMag = j at *
    rcases lt_trichotomy (units j : ℝ) v with h | h | h
    · exact Or.inr (Or.inl ⟨hjm, h, Or.inl (lt_of_mul _ _ (lt_of_le_of_lt hu (by exact_mod_cast hsep j hjl)))⟩)
    · exact Or.inl ⟨hjm, h⟩
    · have hj0 : 0 < j := by
        by_contra h0
        have : j = 0 := by omega
        subst this
        simp at hjl; omega
      refine Or.inr (Or.inr ⟨hj0, hjm.le, ?_, Or.inl h⟩)
      by_contra hc
      have hlj : units (j - 1) * d < l := by
        by_contra hc2
        have := hsep (j - 1) (by omega)
        rw [Nat.sub_add_cancel hj0] at this
        omega
      exact hc (lt_of_mul _ _ (lt_of_lt_of_le (by exact_mod_cast hlj) hl))

/-- An enclosure narrower than one unit separates magnitudes. -/
theorem sep_of_width {l u d : Nat} (h : u < l + d) : ∀ m, l ≤ units m * d → u < units (m + 1) * d := by
  intro m hm
  have := (units_succ_ge m).1
  have : (units m + 1) * d ≤ units (m + 1) * d := Nat.mul_le_mul_right d this
  rw [add_mul] at this
  omega

/-- An enclosure narrower than 2^-53 of its value separates magnitudes. -/
theorem sep_of_relative {l u d : Nat} (h : 2 ^ 53 * (u - l) < l) :
    ∀ m, l ≤ units m * d → u < units (m + 1) * d := by
  intro m hm
  have h1 := (units_succ_ge m).2
  have h2 := (units_succ_ge m).1
  have h3 : units m * d ≤ 2 ^ 53 * ((units (m + 1) - units m) * d) := by
    rw [← mul_assoc]; exact Nat.mul_le_mul_right d h1
  have h4 : units (m + 1) * d = units m * d + (units (m + 1) - units m) * d := by
    rw [← add_mul]; congr 1; omega
  omega

end Sys2Proof.Machine
end

