-- ==== Sys2Proof/Laws/Trig.lean ====
section
/-! SUPPORT. The enclosures of cosine and sine (Machine/Prim.lean): the doublings keep the error below `trigRadius`. -/

namespace Sys2Proof.Machine

/-! ### Doubling -/

/-- A quotient rounded down. -/
theorem cast_div_near (a b : Nat) (hb : 0 < b) : |((a / b : ℕ) : ℝ) - (a : ℝ) / b| ≤ 1 := by
  have hb' : (0 : ℝ) < b := by exact_mod_cast hb
  have h1 : ((a / b : ℕ) : ℝ) ≤ (a : ℝ) / b := Nat.cast_div_le
  have h2 : (a : ℝ) / b < (a / b : ℕ) + 1 := by
    rw [div_lt_iff₀ hb']
    exact_mod_cast (Nat.lt_mul_div_succ a hb).trans_eq (by ring)
  rw [abs_le]; constructor <;> linarith

theorem doubleVersine_le {M v : Nat} (hv : v ≤ 2 * M) : doubleVersine M v ≤ 2 * M := by
  unfold doubleVersine
  obtain ⟨w, hw⟩ := Nat.exists_eq_add_of_le hv
  rw [show 2 * M - v = w by omega]
  refine Nat.div_le_of_le_mul ?_
  have : (2 * M) * (2 * M) = (v + w) * (v + w) := by rw [hw]
  nlinarith [sq_nonneg ((v : ℤ) - w), four_mul_le_sq_add v w]

theorem doubleVersine_near {M v : Nat} {φ e : ℝ} (hM : 0 < M) (hv : v ≤ 2 * M)
    (h : |(v : ℝ) - M * (1 - Real.cos φ)| ≤ e) :
    |(doubleVersine M v : ℝ) - M * (1 - Real.cos (2 * φ))| ≤ 4 * e + 1 := by
  have hM' : (0 : ℝ) < M := by exact_mod_cast hM
  have h1 := cast_div_near (2 * v * (2 * M - v)) M hM
  have h2 : (((2 * v * (2 * M - v) : ℕ) : ℝ)) / M - M * (1 - Real.cos (2 * φ)) =
      2 * ((v : ℝ) - M * (1 - Real.cos φ)) * ((2 * M - v - M * (1 - Real.cos φ)) / M) := by
    rw [Real.cos_two_mul]
    push_cast [Nat.cast_sub hv]
    field_simp
    ring
  have hv' : (v : ℝ) ≤ 2 * M := by exact_mod_cast hv
  have hv0 : (0 : ℝ) ≤ v := Nat.cast_nonneg v
  have hc1 := Real.cos_le_one φ
  have hc2 := Real.neg_one_le_cos φ
  have h3 : |(2 * M - v - M * (1 - Real.cos φ)) / M| ≤ 2 := by
    rw [abs_div, abs_of_pos hM', div_le_iff₀ hM', abs_le]
    constructor <;> nlinarith
  have h4 : |(((2 * v * (2 * M - v) : ℕ) : ℝ)) / M - M * (1 - Real.cos (2 * φ))| ≤ 4 * e := by
    rw [h2, abs_mul, abs_mul, abs_two]
    have := abs_nonneg ((v : ℝ) - M * (1 - Real.cos φ))
    have := abs_nonneg ((2 * M - v - M * (1 - Real.cos φ)) / M)
    nlinarith
  have h5 := abs_add_le (((doubleVersine M v : ℕ) : ℝ) - ((2 * v * (2 * M - v) : ℕ) : ℝ) / M)
    (((2 * v * (2 * M - v) : ℕ) : ℝ) / M - M * (1 - Real.cos (2 * φ)))
  rw [sub_add_sub_cancel] at h5
  have h1' : |((doubleVersine M v : ℕ) : ℝ) - ((2 * v * (2 * M - v) : ℕ) : ℝ) / M| ≤ 1 := h1
  linarith

/-- The error after `k` doublings. -/
noncomputable def doubledError (k : Nat) (e : ℝ) : ℝ := 4 ^ k * (e + 1 / 3) - 1 / 3

theorem doubledError_succ (k : Nat) (e : ℝ) : doubledError k (4 * e + 1) = doubledError (k + 1) e := by
  unfold doubledError; rw [pow_succ]; ring

theorem versineLoop_near {M : Nat} (hM : 0 < M) : ∀ k v (φ e : ℝ), v ≤ 2 * M →
    |(v : ℝ) - M * (1 - Real.cos φ)| ≤ e →
    |(versineLoop M k v : ℝ) - M * (1 - Real.cos (2 ^ k * φ))| ≤ doubledError k e
  | 0, v, φ, e, _, h => by simpa [versineLoop, doubledError] using h
  | k + 1, v, φ, e, hv, h => by
    have := versineLoop_near hM k _ (2 * φ) _ (doubleVersine_le hv) (doubleVersine_near hM hv h)
    rw [doubledError_succ, ← mul_assoc, ← pow_succ] at this
    simpa [versineLoop] using this

/-- Doubling the sine. -/
theorem doubleSine_near {M v s : Nat} {neg : Bool} {φ e : ℝ} (hM : 0 < M) (hv : v ≤ 2 * M)
    (hc : |(v : ℝ) - M * (1 - Real.cos φ)| ≤ e) (hs : |withSign neg s - M * Real.sin φ| ≤ e)
    (neg' : Bool) (c : Nat) (hn : withSign neg' (c : ℝ) = withSign neg (M - v : ℝ)) :
    |withSign neg' (((2 * s * c / M : ℕ)) : ℝ) - M * Real.sin (2 * φ)| ≤ 4 * e + 1 := by
  have hM' : (0 : ℝ) < M := by exact_mod_cast hM
  have hv' : (v : ℝ) ≤ 2 * M := by exact_mod_cast hv
  have hv0 : (0 : ℝ) ≤ v := Nat.cast_nonneg v
  have h1 := cast_div_near (2 * s * c) M hM
  have h1' : |withSign neg' (((2 * s * c / M : ℕ)) : ℝ) - 2 * withSign neg s * ((M - v) / M)| ≤ 1 := by
    have e1 : 2 * withSign neg (s : ℝ) * ((M - v) / M) = withSign neg' (((2 * s * c : ℕ) : ℝ) / M) := by
      push_cast
      cases neg <;> cases neg' <;> simp only [withSign, Bool.false_eq_true, if_true, if_false] at hn ⊢ <;>
        (first | rw [hn] | rw [show (c : ℝ) = -((M : ℝ) - v) by linarith] | rw [show (c : ℝ) = (M : ℝ) - v by linarith]) <;> ring
    rw [e1]
    cases neg'
    · exact h1
    · simp only [withSign, if_true]
      rw [abs_sub_comm, neg_sub_neg]; exact h1
  have hsin : |Real.sin φ| ≤ 1 := Real.abs_sin_le_one φ
  have hcc : |((M : ℝ) - v) / M| ≤ 1 := by
    rw [abs_div, abs_of_pos hM', div_le_iff₀ hM', abs_le]; constructor <;> linarith
  have h2 : 2 * withSign neg s * (((M : ℝ) - v) / M) - M * Real.sin (2 * φ) =
      2 * (withSign neg s - M * Real.sin φ) * ((M - v) / M) -
        2 * Real.sin φ * ((v : ℝ) - M * (1 - Real.cos φ)) := by
    rw [Real.sin_two_mul]; field_simp; ring
  have h3 : |2 * withSign neg s * (((M : ℝ) - v) / M) - M * Real.sin (2 * φ)| ≤ 4 * e := by
    rw [h2]
    refine (abs_sub _ _).trans ?_
    rw [abs_mul, abs_mul, abs_mul, abs_mul, abs_two]
    have a1 := abs_nonneg (withSign neg s - M * Real.sin φ)
    have a2 := abs_nonneg ((v : ℝ) - M * (1 - Real.cos φ))
    have a3 := abs_nonneg (((M : ℝ) - v) / M)
    have a4 := abs_nonneg (Real.sin φ)
    nlinarith
  have h5 := abs_add_le (withSign neg' (((2 * s * c / M : ℕ)) : ℝ) - 2 * withSign neg s * ((M - v) / M))
    (2 * withSign neg s * (((M : ℝ) - v) / M) - M * Real.sin (2 * φ))
  rw [sub_add_sub_cancel] at h5
  linarith

theorem sineLoop_near {M : Nat} (hM : 0 < M) : ∀ (k v : Nat) (neg : Bool) (s : Nat) (φ e : ℝ), v ≤ 2 * M →
    |(v : ℝ) - M * (1 - Real.cos φ)| ≤ e → |withSign neg s - M * Real.sin φ| ≤ e →
    |withSign (sineLoop M k v neg s).1 ((sineLoop M k v neg s).2 : ℝ) - M * Real.sin (2 ^ k * φ)| ≤ doubledError k e
  | 0, v, neg, s, φ, e, _, _, h => by simpa [sineLoop, doubledError] using h
  | k + 1, v, neg, s, φ, e, hv, hc, hs => by
    have step : ∀ (neg' : Bool) (c : Nat), withSign neg' (c : ℝ) = withSign neg ((M : ℝ) - v) →
        sineLoop M (k + 1) v neg s = sineLoop M k (doubleVersine M v) neg' (2 * s * c / M) →
        |withSign (sineLoop M (k + 1) v neg s).1 ((sineLoop M (k + 1) v neg s).2 : ℝ) -
          M * Real.sin (2 ^ (k + 1) * φ)| ≤ doubledError (k + 1) e := fun neg' c hn he => by
      have := sineLoop_near hM k _ neg' _ (2 * φ) _ (doubleVersine_le hv) (doubleVersine_near hM hv hc)
        (doubleSine_near hM hv hc hs neg' c hn)
      rw [doubledError_succ, ← mul_assoc, ← pow_succ] at this
      rwa [he]
    by_cases hvM : v ≤ M
    · exact step neg (M - v) (by rw [Nat.cast_sub hvM]) (by simp [sineLoop, hvM])
    · refine step (!neg) (v - M) (by rw [Nat.cast_sub (by omega)]; cases neg <;> simp [withSign]) ?_
      cases neg <;> simp [sineLoop, hvM]

/-! ### The small angle -/

/-- The angle of `x` units. -/
noncomputable def angle (x : Nat) : ℝ := (x : ℝ) / 2 ^ 1074

/-- The halved angle. -/
noncomputable def smallAngle (x : Nat) : ℝ := (x : ℝ) / 2 ^ (1074 + trigHalvings x)

theorem doubled_smallAngle (x : Nat) : 2 ^ trigHalvings x * smallAngle x = angle x := by
  unfold smallAngle angle
  rw [pow_add]
  have h1 : (2 : ℝ) ^ trigHalvings x ≠ 0 := by positivity
  have h2 : (2 : ℝ) ^ 1074 ≠ 0 := by positivity
  field_simp

theorem smallAngle_nonneg (x : Nat) : 0 ≤ smallAngle x := by unfold smallAngle; positivity

theorem smallAngle_lt (x : Nat) : smallAngle x * 2 ^ (trigExp x + 600) < 1 := by
  have h1 : x < 2 ^ (trigExp x + 1074) :=
    lt_of_lt_of_le Nat.lt_log2_self (Nat.pow_le_pow_right (by norm_num) (by unfold trigExp; omega))
  unfold smallAngle trigHalvings
  rw [div_mul_eq_mul_div, div_lt_one (by positivity),
    show 1074 + (2 * trigExp x + 600) = (trigExp x + 1074) + (trigExp x + 600) by omega, pow_add _ (trigExp x + 1074)]
  have : (x : ℝ) < 2 ^ (trigExp x + 1074) := by exact_mod_cast h1
  exact mul_lt_mul_of_pos_right this (by positivity)

theorem smallAngle_le_one (x : Nat) : smallAngle x ≤ 1 := by
  have h := smallAngle_lt x
  have h0 := smallAngle_nonneg x
  have h1 : (1 : ℝ) ≤ 2 ^ (trigExp x + 600) := one_le_pow₀ (by norm_num)
  nlinarith

theorem smallAngle_pow_four (x : Nat) : (2 ^ trigBits x : ℕ) * smallAngle x ^ 4 ≤ 1 := by
  have h := smallAngle_lt x
  have h0 := smallAngle_nonneg x
  have h1 : (smallAngle x * 2 ^ (trigExp x + 600)) ^ 4 ≤ 1 := pow_le_one₀ (by positivity) h.le
  rw [mul_pow, ← pow_mul] at h1
  have h2 : (2 : ℝ) ^ trigBits x ≤ 2 ^ ((trigExp x + 600) * 4) :=
    pow_le_pow_right₀ (by norm_num) (by unfold trigBits; omega)
  push_cast
  nlinarith [pow_nonneg h0 4]

theorem le_smallAngle_den (x : Nat) : x ≤ 2 ^ (1074 + trigHalvings x) := by
  have h := smallAngle_le_one x
  unfold smallAngle at h
  rw [div_le_one (by positivity)] at h
  exact_mod_cast h

theorem versineStart_near (x : Nat) :
    versineStart x (2 ^ (1074 + trigHalvings x)) (2 ^ trigBits x) ≤ 2 * 2 ^ trigBits x ∧
    |(versineStart x (2 ^ (1074 + trigHalvings x)) (2 ^ trigBits x) : ℝ) -
      (2 ^ trigBits x : ℕ) * (1 - Real.cos (smallAngle x))| ≤ 2 := by
  have hx := le_smallAngle_den x
  have h0 := smallAngle_nonneg x
  have hle := smallAngle_le_one x
  have h4 := smallAngle_pow_four x
  have hD : 0 < 2 ^ (1074 + trigHalvings x) := Nat.two_pow_pos _
  have hM0 : (0 : ℝ) ≤ (2 ^ trigBits x : ℕ) := Nat.cast_nonneg _
  have hdef : smallAngle x = (x : ℝ) / (2 ^ (1074 + trigHalvings x) : ℕ) := by unfold smallAngle; push_cast; rfl
  generalize smallAngle x = y at *
  generalize 2 ^ (1074 + trigHalvings x) = D at *
  generalize 2 ^ trigBits x = M at *
  have hD' : (0 : ℝ) < D := by exact_mod_cast hD
  have hcos := Real.cos_bound (x := y) (by rw [abs_of_nonneg h0]; exact hle)
  rw [abs_of_nonneg h0] at hcos
  constructor
  · unfold versineStart
    refine Nat.div_le_of_le_mul ?_
    have : x ^ 2 ≤ D ^ 2 := Nat.pow_le_pow_left hx 2
    nlinarith [Nat.mul_le_mul_right M this]
  · have hd := cast_div_near (x ^ 2 * M) (2 * D ^ 2) (by positivity)
    have e1 : ((x ^ 2 * M : ℕ) : ℝ) / ((2 * D ^ 2 : ℕ) : ℝ) = M * (y ^ 2 / 2) := by
      rw [hdef]; push_cast; field_simp
    rw [e1] at hd
    have h2 : |(M : ℝ) * (y ^ 2 / 2) - M * (1 - Real.cos y)| ≤ 1 := by
      rw [← mul_sub, abs_mul, abs_of_nonneg hM0]
      have : y ^ 2 / 2 - (1 - Real.cos y) = Real.cos y - (1 - y ^ 2 / 2) := by ring
      rw [this]
      nlinarith [mul_le_mul_of_nonneg_left hcos hM0]
    have h3 := abs_add_le (((x ^ 2 * M / (2 * D ^ 2) : ℕ) : ℝ) - M * (y ^ 2 / 2))
      ((M : ℝ) * (y ^ 2 / 2) - M * (1 - Real.cos y))
    rw [sub_add_sub_cancel] at h3
    unfold versineStart
    linarith

theorem sineStart_near (x : Nat) :
    |(sineStart x (2 ^ (1074 + trigHalvings x)) (2 ^ trigBits x) : ℝ) -
      (2 ^ trigBits x : ℕ) * Real.sin (smallAngle x)| ≤ 2 := by
  have hx := le_smallAngle_den x
  have h0 := smallAngle_nonneg x
  have hle := smallAngle_le_one x
  have h4 := smallAngle_pow_four x
  have hD : 0 < 2 ^ (1074 + trigHalvings x) := Nat.two_pow_pos _
  have hM0 : (0 : ℝ) ≤ (2 ^ trigBits x : ℕ) := Nat.cast_nonneg _
  have hdef : smallAngle x = (x : ℝ) / (2 ^ (1074 + trigHalvings x) : ℕ) := by unfold smallAngle; push_cast; rfl
  generalize smallAngle x = y at *
  generalize 2 ^ (1074 + trigHalvings x) = D at *
  generalize 2 ^ trigBits x = M at *
  have hD' : (0 : ℝ) < D := by exact_mod_cast hD
  have hsin := Real.sin_bound (x := y) (by rw [abs_of_nonneg h0]; exact hle)
  rw [abs_of_nonneg h0] at hsin
  have hsub : x ^ 3 ≤ 6 * x * D ^ 2 := by
    have : x ^ 2 ≤ D ^ 2 := Nat.pow_le_pow_left hx 2
    nlinarith [Nat.mul_le_mul_left x this]
  have hd := cast_div_near ((6 * x * D ^ 2 - x ^ 3) * M) (6 * D ^ 3) (by positivity)
  have e1 : (((6 * x * D ^ 2 - x ^ 3) * M : ℕ) : ℝ) / ((6 * D ^ 3 : ℕ) : ℝ) = M * (y - y ^ 3 / 6) := by
    rw [hdef]; push_cast [Nat.cast_sub hsub]; field_simp
  rw [e1] at hd
  have h2 : |(M : ℝ) * (y - y ^ 3 / 6) - M * Real.sin y| ≤ 1 := by
    rw [← mul_sub, abs_mul, abs_of_nonneg hM0, abs_sub_comm]
    nlinarith [mul_le_mul_of_nonneg_left hsin hM0]
  have h3 := abs_add_le ((((6 * x * D ^ 2 - x ^ 3) * M / (6 * D ^ 3) : ℕ) : ℝ) - M * (y - y ^ 3 / 6))
    ((M : ℝ) * (y - y ^ 3 / 6) - M * Real.sin y)
  rw [sub_add_sub_cancel] at h3
  unfold sineStart
  linarith

/-! ### The enclosures -/

theorem doubledError_le_radius (x : Nat) : doubledError (trigHalvings x) 2 ≤ trigRadius x := by
  unfold doubledError trigRadius
  push_cast
  have : (0 : ℝ) ≤ 4 ^ trigHalvings x := by positivity
  linarith

/-- The versine of `x` units, within the radius. -/
theorem versineApprox_near (x : Nat) :
    |(versineApprox x : ℝ) - (2 ^ trigBits x : ℕ) * (1 - Real.cos (angle x))| ≤ trigRadius x := by
  obtain ⟨h1, h2⟩ := versineStart_near x
  have h := versineLoop_near (Nat.two_pow_pos _) (trigHalvings x) _ _ _ h1 h2
  rw [doubled_smallAngle] at h
  simp only [versineApprox, forceNat_eq]
  exact h.trans (doubledError_le_radius x)

/-- The sine of `x` units, within the radius. -/
theorem sineApprox_near (x : Nat) :
    |withSign (sineApprox x).1 ((sineApprox x).2 : ℝ) - (2 ^ trigBits x : ℕ) * Real.sin (angle x)| ≤ trigRadius x := by
  obtain ⟨h1, h2⟩ := versineStart_near x
  have h := sineLoop_near (Nat.two_pow_pos _) (trigHalvings x) _ false _ _ _ h1 h2
    (sineStart_near x)
  rw [doubled_smallAngle] at h
  simp only [sineApprox, forceNat_eq]
  exact h.trans (doubledError_le_radius x)

/-- The radius against the scale: below 2^-1140, and below half a unit. -/
theorem trigRadius_small (x : Nat) : trigRadius x * 2 ^ 1148 ≤ 2 ^ trigBits x := by
  unfold trigRadius trigHalvings trigBits
  rw [show (4 : ℕ) = 2 ^ 2 from rfl, ← pow_mul, show 2 * (2 * trigExp x + 600) = 4 * trigExp x + 1200 by ring,
    show 2 ^ 2 * trigExp x + 2350 = (4 * trigExp x + 1200) + (2 + 1148) by ring, pow_add _ (4 * trigExp x + 1200)]
  rw [pow_add 2 2 1148, Nat.mul_comm 3, Nat.mul_assoc]
  exact Nat.mul_le_mul_left _ (Nat.mul_le_mul_right _ (by norm_num))

/-- An enclosure of a value that is not too small does not reach 0; its sign is that of the value, and it is as near to
the absolute value. -/
theorem ball_sign {x : Nat} {w : ℝ} {neg : Bool} {v : Nat}
    (h : |withSign neg v - (2 ^ trigBits x : ℕ) * w| ≤ trigRadius x) (hw : 1 ≤ |w| * 2 ^ 1100) :
    trigRadius x < v ∧ 0 < |w| ∧ w = withSign neg |w| ∧ |(v : ℝ) - (2 ^ trigBits x : ℕ) * (|w|)| ≤ trigRadius x := by
  have hs := trigRadius_small x
  have hM : 0 < 2 ^ trigBits x := Nat.two_pow_pos _
  generalize trigRadius x = r at *
  generalize 2 ^ trigBits x = M at *
  have hM' : (0 : ℝ) < M := by exact_mod_cast hM
  have hs' : (r : ℝ) * 2 ^ 1148 ≤ M := by exact_mod_cast hs
  have hr0 : (0 : ℝ) ≤ r := Nat.cast_nonneg r
  have hv0 : (0 : ℝ) ≤ v := Nat.cast_nonneg v
  have hsplit : (2 : ℝ) ^ 1148 = 2 ^ 48 * 2 ^ 1100 := by rw [← pow_add]
  have hp : (0 : ℝ) < 2 ^ 1100 := by positivity
  -- the true value is far from 0 against the radius
  have hbig : (r : ℝ) * 2 ^ 48 ≤ M * |w| := by
    have h1 : (r : ℝ) * 2 ^ 48 * 2 ^ 1100 ≤ M * (|w| * 2 ^ 1100) := by
      rw [hsplit, ← mul_assoc] at hs'
      calc (r : ℝ) * 2 ^ 48 * 2 ^ 1100 ≤ M := hs'
        _ ≤ M * (|w| * 2 ^ 1100) := le_mul_of_one_le_right hM'.le hw
    rw [← mul_assoc] at h1
    exact le_of_mul_le_mul_right h1 hp
  have hw0 : 0 < |w| := by
    by_contra hc
    have : |w| = 0 := le_antisymm (not_lt.1 hc) (abs_nonneg w)
    rw [this] at hw; norm_num at hw
  have hMw : 0 < M * |w| := mul_pos hM' hw0
  -- the sign is right and the absolute value is as near
  have hsw : w = withSign neg |w| ∧ |(v : ℝ) - M * (|w|)| ≤ r := by
    rw [abs_le] at h
    rcases abs_cases w with ⟨ha, hw1⟩ | ⟨ha, hw1⟩ <;> rw [ha] at hbig hMw ⊢ <;> cases neg <;>
      simp only [withSign, Bool.false_eq_true, if_true, if_false] at h ⊢
    · exact ⟨trivial, abs_le.2 ⟨by linarith, by linarith⟩⟩
    · exfalso; norm_num at hbig; nlinarith
    · exfalso; norm_num at hbig; nlinarith
    · exact ⟨by ring, abs_le.2 ⟨by linarith, by linarith⟩⟩
  obtain ⟨hwe, hnear⟩ := hsw
  rw [abs_le] at hnear
  refine ⟨?_, hw0, hwe, abs_le.2 hnear⟩
  have : (r : ℝ) < v := by norm_num at hbig; nlinarith
  exact_mod_cast this

/-- A number known to within the radius rounds faithfully, if it is not too small. -/
theorem roundBall_faithful {x : Nat} {w : ℝ} {neg : Bool} {v : Nat} (other : Bool)
    (h : |withSign neg v - (2 ^ trigBits x : ℕ) * w| ≤ trigRadius x) (hw : 1 ≤ |w| * 2 ^ 1100) :
    Faithful w (roundBall neg v (trigRadius x) (2 ^ trigBits x) other) := by
  have hs := trigRadius_small x
  have hM : 0 < 2 ^ trigBits x := Nat.two_pow_pos _
  obtain ⟨hrv, hw0, hwe, hnear⟩ := ball_sign h hw
  rw [abs_le] at hnear
  clear h hw
  generalize trigRadius x = r at *
  generalize 2 ^ trigBits x = M at *
  unfold roundBall
  rw [if_pos hrv]
  have hfm : FaithfulMag (|w| * 2 ^ 1074)
      ((bracketOf ((v - r) * 2 ^ 1074) ((v + r) * 2 ^ 1074) M).pick other) := by
    have hq : (0 : ℝ) < 2 ^ 1074 := by positivity
    refine bracketOf_faithful hM (Nat.mul_pos (by omega) (Nat.two_pow_pos _)) ?_ ?_ (sep_of_width ?_) other
    · push_cast [Nat.cast_sub hrv.le]
      have : (v : ℝ) - r ≤ M * |w| := by linarith
      calc ((v : ℝ) - r) * 2 ^ 1074 ≤ M * |w| * 2 ^ 1074 := mul_le_mul_of_nonneg_right this hq.le
        _ = |w| * 2 ^ 1074 * M := by ring
    · push_cast
      have : M * |w| ≤ (v : ℝ) + r := by linarith
      calc |w| * 2 ^ 1074 * M = M * |w| * 2 ^ 1074 := by ring
        _ ≤ ((v : ℝ) + r) * 2 ^ 1074 := mul_le_mul_of_nonneg_right this hq.le
    · have h1 : 2 * r * 2 ^ 1074 < M := by
        have hsp : (2 : ℕ) ^ 1148 = 2 ^ 74 * 2 ^ 1074 := by rw [← pow_add]
        rw [hsp] at hs
        have hq' : 0 < (2 : ℕ) ^ 1074 := Nat.two_pow_pos _
        generalize (2 : ℕ) ^ 1074 = Q at *
        norm_num at hs
        rcases Nat.eq_zero_or_pos r with h0 | h0
        · subst h0; simpa using hM
        · have : 0 < r * Q := Nat.mul_pos h0 hq'
          nlinarith
      have h2 : (v + r) * 2 ^ 1074 = (v - r) * 2 ^ 1074 + 2 * r * 2 ^ 1074 := by rw [← add_mul]; congr 1; omega
      omega
  have hval : withSign neg (|w| * 2 ^ 1074) / 2 ^ 1074 = w := by
    have hq : (2 : ℝ) ^ 1074 ≠ 0 := by positivity
    rw [div_eq_iff hq]
    conv_rhs => rw [hwe]
    cases neg <;> simp [withSign]
  have := hfm.faithful (mul_pos hw0 (by positivity)) neg
  rwa [hval] at this

/-- Rounding such an enclosure keeps the sign of the value. -/
theorem roundBall_sign {x : Nat} {w : ℝ} {neg : Bool} {v : Nat} (other : Bool)
    (h : |withSign neg v - (2 ^ trigBits x : ℕ) * w| ≤ trigRadius x) (hw : 1 ≤ |w| * 2 ^ 1100) :
    (roundBall neg v (trigRadius x) (2 ^ trigBits x) other).sign = true ↔ w < 0 := by
  obtain ⟨hrv, hw0, hwe, -⟩ := ball_sign h hw
  unfold roundBall
  rw [if_pos hrv, sign_ofMag, hwe]
  cases neg
  · simp [withSign]
  · simpa [withSign] using hw0

end Sys2Proof.Machine
end

