-- ==== Sys2Proof/Laws/Small.lean ====
section
/-! SUPPORT. Cosine, sine and power of ten of small operands, and the case split of each primitive (Machine/Prim.lean). -/

namespace Sys2Proof.Machine

/-- A value strictly between two adjacent finite magnitudes rounds faithfully to either. -/
theorem faithfulMag_of_between {v : ℝ} {m : Nat} (hm : m + 1 < magBound) (h1 : (units m : ℝ) < v)
    (h2 : v < units (m + 1)) (nearHi other : Bool) : FaithfulMag v ((Bracket.mk m (m + 1) nearHi).pick other) := by
  rcases pick_cases ⟨m, m + 1, nearHi⟩ other with h | h <;> rw [h] <;> dsimp only
  · exact Or.inr (Or.inl ⟨by omega, h1, Or.inl h2⟩)
  · exact Or.inr (Or.inr ⟨by omega, hm.le, h1, Or.inl h2⟩)

/-- `1.0` in units. -/
theorem units_one : units 0x3FF0000000000000 = 2 ^ 1074 := by
  rw [show 0x3FF0000000000000 = 2 ^ 52 * 1023 + 0 by norm_num, units_normal _ _ (by norm_num) (by norm_num),
    Nat.add_zero, ← pow_add]

/-- The value below `1.0`. -/
theorem units_below_one : units 0x3FEFFFFFFFFFFFFF + 2 ^ 1021 = 2 ^ 1074 := by
  rw [show 0x3FEFFFFFFFFFFFFF = 2 ^ 52 * 1022 + (2 ^ 52 - 1) by norm_num,
    units_normal _ _ (by norm_num) (by norm_num), show 1022 - 1 = 1021 from rfl, show 1074 = 53 + 1021 from rfl,
    pow_add 2 53 1021]
  generalize (2 : ℕ) ^ 1021 = a
  omega

/-- The value above `1.0`. -/
theorem units_above_one : units 0x3FF0000000000001 = 2 ^ 1074 + 2 ^ 1022 := by
  rw [show 0x3FF0000000000001 = 2 ^ 52 * 1023 + 1 by norm_num, units_normal _ _ (by norm_num) (by norm_num),
    show 1023 - 1 = 1022 from rfl, show 1074 = 52 + 1022 from rfl, pow_add 2 52 1022]
  ring

/-- A value just below 1 lies between the two. -/
theorem between_below_one {w : ℝ} (h1 : 1 - 1 / 2 ^ 53 < w) (h2 : w < 1) :
    (units 0x3FEFFFFFFFFFFFFF : ℝ) < w * 2 ^ 1074 ∧ w * 2 ^ 1074 < units (0x3FEFFFFFFFFFFFFF + 1) := by
  have hb : (units 0x3FEFFFFFFFFFFFFF : ℝ) + 2 ^ 1021 = 2 ^ 1074 := by exact_mod_cast units_below_one
  have ho : (units (0x3FEFFFFFFFFFFFFF + 1) : ℝ) = 2 ^ 1074 := by exact_mod_cast units_one
  have hs : (2 : ℝ) ^ 1074 = 2 ^ 53 * 2 ^ 1021 := by rw [← pow_add]
  rw [ho]
  have hp : (0 : ℝ) < 2 ^ 1021 := by positivity
  rw [hs] at hb ⊢
  clear ho hs
  generalize (2 : ℝ) ^ 1021 = P at *
  generalize (units 0x3FEFFFFFFFFFFFFF : ℝ) = u at *
  have a1 := mul_lt_mul_of_pos_right h1 hp
  have a2 := mul_lt_mul_of_pos_right h2 hp
  norm_num at a1 a2 hb ⊢
  constructor <;> linarith

/-- A value just above 1 lies between the two. -/
theorem between_above_one {w : ℝ} (h1 : 1 < w) (h2 : w < 1 + 1 / 2 ^ 52) :
    (units 0x3FF0000000000000 : ℝ) < w * 2 ^ 1074 ∧ w * 2 ^ 1074 < units (0x3FF0000000000000 + 1) := by
  have hb : (units (0x3FF0000000000000 + 1) : ℝ) = 2 ^ 1074 + 2 ^ 1022 := by exact_mod_cast units_above_one
  have ho : (units 0x3FF0000000000000 : ℝ) = 2 ^ 1074 := by exact_mod_cast units_one
  have hs : (2 : ℝ) ^ 1074 = 2 ^ 52 * 2 ^ 1022 := by rw [← pow_add]
  rw [ho, hb]
  have hp : (0 : ℝ) < 2 ^ 1022 := by positivity
  rw [hs]
  clear ho hb hs
  generalize (2 : ℝ) ^ 1022 = P at *
  have a1 := mul_lt_mul_of_pos_right h1 hp
  have a2 := mul_lt_mul_of_pos_right h2 hp
  norm_num at a1 a2 ⊢
  constructor <;> linarith

/-! ### Cosine and sine -/

theorem angle_pos {x : Nat} (h : 0 < x) : 0 < angle x := by
  have : (0 : ℝ) < x := by exact_mod_cast h
  unfold angle; positivity

theorem angle_small {x : Nat} (h : trigIsSmall x = true) : angle x * 2 ^ 30 < 1 := by
  have h' : x < 2 ^ 1044 := by simpa [trigIsSmall] using h
  unfold angle
  rw [div_mul_eq_mul_div, div_lt_one (by positivity), show (1074 : ℕ) = 1044 + 30 from rfl, pow_add]
  exact mul_lt_mul_of_pos_right (by exact_mod_cast h') (by positivity)

/-- The cosine of a small angle is just below 1. -/
theorem cos_small {x : Nat} (h0 : 0 < x) (h : trigIsSmall x = true) (other : Bool) :
    FaithfulMag (Real.cos (angle x) * 2 ^ 1074)
      ((Bracket.mk 0x3FEFFFFFFFFFFFFF 0x3FF0000000000000 true).pick other) := by
  have hp := angle_pos h0
  have hs := angle_small h
  have h1 := Real.one_sub_sq_div_two_le_cos (x := angle x)
  have hpi := Real.pi_gt_three
  clear h
  have h2 : Real.cos (angle x) < 1 := by
    rw [← Real.cos_zero]
    exact Real.cos_lt_cos_of_nonneg_of_le_pi le_rfl (by norm_num at hs; linarith) hp
  obtain ⟨a, b⟩ := between_below_one (w := Real.cos (angle x)) (by
    norm_num at hs ⊢; nlinarith) h2
  exact faithfulMag_of_between (by decide) a b true other

/-- The sine of a small angle is just below the angle. -/
theorem sin_small {m : Nat} (h0 : 0 < m) (hm : m < magBound) (h : trigIsSmall (units m) = true) (other : Bool) :
    FaithfulMag (Real.sin (angle (units m)) * 2 ^ 1074) ((Bracket.mk (m - 1) m true).pick other) := by
  have hp := angle_pos (units_pos h0)
  have hs := angle_small h
  clear h
  have h1 := Real.sin_gt_sub_cube hp
  have h2 := Real.sin_lt hp
  have hq : (0 : ℝ) < 2 ^ 1074 := by positivity
  have hx : angle (units m) * 2 ^ 1074 = units m := by unfold angle; field_simp
  obtain ⟨m, rfl⟩ : ∃ m', m = m' + 1 := ⟨m - 1, by omega⟩
  rw [Nat.add_sub_cancel]
  -- the step below is at least 2^-54 of the value
  have hstep : (units (m + 1) : ℝ) ≤ 2 ^ 54 * (units (m + 1) - units m) := by
    obtain ⟨g1, g2⟩ := units_succ_ge m
    have : units (m + 1) ≤ 2 ^ 54 * (units (m + 1) - units m) := by omega
    have g3 : units m ≤ units (m + 1) := by omega
    calc (units (m + 1) : ℝ) ≤ ((2 ^ 54 * (units (m + 1) - units m) : ℕ) : ℝ) := by exact_mod_cast this
      _ = _ := by push_cast [Nat.cast_sub g3]; norm_num
  refine faithfulMag_of_between (by omega) ?_ ?_ true other
  · -- `angle ^ 3 / 6` is below 2^-60 / 6 of the angle
    have h3 : angle (units (m + 1)) - angle (units (m + 1)) / 2 ^ 60 ≤ Real.sin (angle (units (m + 1))) := by
      have : angle (units (m + 1)) ^ 2 ≤ 1 / 2 ^ 60 :=
        (pow_le_pow_left₀ hp.le ((lt_div_iff₀ (by positivity)).2 hs).le 2).trans_eq (by norm_num)
      have : angle (units (m + 1)) ^ 3 ≤ angle (units (m + 1)) / 2 ^ 60 := by
        calc angle (units (m + 1)) ^ 3 = angle (units (m + 1)) * angle (units (m + 1)) ^ 2 := by ring
          _ ≤ angle (units (m + 1)) * (1 / 2 ^ 60) := mul_le_mul_of_nonneg_left this hp.le
          _ = _ := by ring
      have h6 : 0 ≤ angle (units (m + 1)) ^ 3 := by positivity
      linarith
    have h4 := mul_le_mul_of_nonneg_right h3 hq.le
    rw [sub_mul, div_mul_eq_mul_div, hx] at h4
    have hu : (0 : ℝ) < units (m + 1) := by exact_mod_cast units_pos h0
    clear hx h1 h2 h3 hq
    generalize Real.sin (angle (units (m + 1))) * 2 ^ 1074 = S at *
    norm_num at h4 hstep
    linarith
  · rw [← hx]; exact mul_lt_mul_of_pos_right h2 hq

/-! ### Powers of ten near 1 -/

theorem ten_rpow_small {z : ℝ} (h0 : 0 < z) (h1 : z < 1 / 2 ^ 60) :
    1 < (10 : ℝ) ^ z ∧ (10 : ℝ) ^ z < 1 + 1 / 2 ^ 55 := by
  refine ⟨Real.one_lt_rpow (by norm_num) h0, ?_⟩
  have hlog : Real.log 10 ≤ 9 := by
    have := Real.log_le_sub_one_of_pos (show (0 : ℝ) < 10 by norm_num); linarith
  rw [Real.rpow_def_of_pos (by norm_num)]
  have hlog0 : 0 < Real.log 10 := Real.log_pos (by norm_num)
  have ht : Real.log 10 * z < 9 / 2 ^ 60 := by nlinarith
  have ht0 : 0 < Real.log 10 * z := by positivity
  generalize Real.log 10 * z = t at *
  -- `exp t ≤ 1 / (1 - t)`
  have h := Real.add_one_le_exp (-t)
  rw [Real.exp_neg] at h
  have he := Real.exp_pos t
  have h2 : (1 - t) * Real.exp t ≤ 1 := by
    calc (1 - t) * Real.exp t = (-t + 1) * Real.exp t := by ring
      _ ≤ (Real.exp t)⁻¹ * Real.exp t := mul_le_mul_of_nonneg_right h he.le
      _ = 1 := inv_mul_cancel₀ he.ne'
  norm_num at ht ⊢
  nlinarith

theorem ten_rpow_small_neg {z : ℝ} (h0 : 0 < z) (h1 : z < 1 / 2 ^ 60) :
    1 - 1 / 2 ^ 53 < (10 : ℝ) ^ (-z) ∧ (10 : ℝ) ^ (-z) < 1 := by
  obtain ⟨a, b⟩ := ten_rpow_small h0 h1
  rw [Real.rpow_neg (by norm_num)]
  refine ⟨?_, inv_lt_one_of_one_lt₀ a⟩
  rw [lt_inv_comm₀ (by norm_num) (by linarith)]
  refine b.trans ?_
  norm_num

/-- `10^x` for an operand below 2^-60 in absolute value. -/
theorem pow10_small {x : Nat} (h0 : 0 < x) (h : x < 2 ^ 1014) (neg other : Bool) :
    FaithfulMag ((10 : ℝ) ^ withSign neg (angle x) * 2 ^ 1074)
      ((if neg then Bracket.mk 0x3FEFFFFFFFFFFFFF 0x3FF0000000000000 true
        else Bracket.mk 0x3FF0000000000000 0x3FF0000000000001 false).pick other) := by
  have hp := angle_pos h0
  have hs : angle x < 1 / 2 ^ 60 := by
    unfold angle
    rw [div_lt_div_iff₀ (by positivity) (by positivity), one_mul, show (1074 : ℕ) = 1014 + 60 from rfl, pow_add]
    exact mul_lt_mul_of_pos_right (by exact_mod_cast h) (by positivity)
  cases neg
  · obtain ⟨a, b⟩ := ten_rpow_small hp hs
    obtain ⟨c, d⟩ := between_above_one a (b.trans (by norm_num))
    exact faithfulMag_of_between (by decide) c d false other
  · obtain ⟨a, b⟩ := ten_rpow_small_neg hp hs
    obtain ⟨c, d⟩ := between_below_one a b
    exact faithfulMag_of_between (by decide) c d true other

end Sys2Proof.Machine
end

