-- ==== Sys2Proof/Laws/Arith.lean ====
section
/-! SUPPORT. The arithmetic of binary64 values that round exactly, and signs through the operations. -/

namespace Sys2Proof.Machine

/-- The encoding with a given sign and magnitude. -/
theorem f64_ofNat (neg : Bool) (m : Nat) (hm : m < 2 ^ 63) :
    f64 (BitVec.ofNat 64 (m + signBit neg)) =
      if h : m < magBound then .fin neg ⟨m, h⟩ else if m = magBound then .inf neg else .nan := by
  have hs : (BitVec.ofNat 64 (m + signBit neg)).toNat = m + signBit neg := by
    rw [BitVec.toNat_ofNat]; apply Nat.mod_eq_of_lt; cases neg <;> simp [signBit] <;> omega
  have h1 : (m + signBit neg) % 2 ^ 63 = m := by cases neg <;> simp [signBit] <;> omega
  have h2 : (BitVec.ofNat 64 (m + signBit neg)).getLsbD 63 = neg := by
    rw [BitVec.getLsbD, hs, Nat.testBit_eq_decide_div_mod_eq]
    cases neg <;> simp [signBit] <;> omega
  simp only [f64, hs, h1, h2]

/-- Every word is its magnitude and its sign bit. -/
theorem word_eq_mag_sign (w : Word) : w = BitVec.ofNat 64 (w.toNat % 2 ^ 63 + signBit (w.getLsbD 63)) := by
  apply BitVec.eq_of_toNat_eq
  have := w.isLt
  have h2 : w.getLsbD 63 = decide (w.toNat / 2 ^ 63 % 2 = 1) := by
    rw [BitVec.getLsbD, Nat.testBit_eq_decide_div_mod_eq]
  rw [BitVec.toNat_ofNat, h2]
  by_cases h : w.toNat / 2 ^ 63 % 2 = 1
  · rw [decide_eq_true h]; simp only [signBit, if_true]; omega
  · rw [decide_eq_false h]; simp only [signBit, Bool.false_eq_true, if_false]; omega

/-! ### Signs -/

theorem roundQuotient_neg (neg : Bool) (n d : Nat) : roundQuotient (!neg) n d = fneg (roundQuotient neg n d) := by
  unfold roundQuotient ofMag
  simp only [forceNat_eq]
  split <;> rfl

theorem ofMag_neg (neg : Bool) (n : Nat) : ofMag (!neg) n = fneg (ofMag neg n) := by
  unfold ofMag
  simp only [forceNat_eq]
  split <;> rfl

/-! ### Exact results -/

theorem floorMag_units (m : Nat) : floorMag (units m) = m :=
  floorMag_eq le_rfl (units_lt_units.2 (Nat.lt_succ_self m))

/-- A whole number of units that is a magnitude's value rounds to it. -/
theorem roundMag_exact (m : Nat) {d : Nat} (hd : 0 < d) : roundMag (units m * d) d = m := by
  unfold roundMag
  rw [Nat.mul_div_cancel _ hd]
  simp only [forceNat_eq, floorMag_units]
  have h : 2 * (units m * d) < (units m + units (m + 1)) * d := by
    have : units m < units (m + 1) := units_lt_units.2 (Nat.lt_succ_self m)
    rw [← Nat.mul_assoc]
    exact Nat.mul_lt_mul_of_pos_right (by omega) hd
  rw [Nat.compare_eq_lt.2 h]
  rfl

theorem ofMag_fin (neg : Bool) (m : Fin magBound) : ofMag neg m.val = .fin neg m := by
  simp only [ofMag, forceNat_eq]
  rw [dif_pos m.isLt]

/-- `± n / d` units, where that is a finite value. -/
theorem roundQuotient_exact (neg : Bool) {n d : Nat} (m : Fin magBound) (hd : 0 < d) (h : n = units m.val * d) :
    roundQuotient neg n d = .fin neg m := by
  unfold roundQuotient
  rw [h, roundMag_exact _ hd, ofMag_fin]

/-! ### Neutral operands -/

theorem fmul_one_left (x : F64) : fmul one x = x := by
  unfold fmul one
  cases x with
  | nan => rfl
  | inf b => simp
  | fin b m =>
    simp only [Bool.false_xor]
    refine roundQuotient_exact b m (Nat.two_pow_pos _) ?_
    rw [units_one, Nat.mul_comm]

theorem fmul_one_right (x : F64) : fmul x one = x := by
  unfold fmul one
  cases x with
  | nan => rfl
  | inf b => simp
  | fin b m =>
    simp only [Bool.xor_false]
    refine roundQuotient_exact b m (Nat.two_pow_pos _) ?_
    rw [units_one]

theorem fdiv_one (x : F64) : fdiv x one = x := by
  unfold fdiv one
  cases x with
  | nan => rfl
  | inf b => simp
  | fin b m =>
    simp only [Bool.xor_false]
    rw [if_neg (by norm_num)]
    refine roundQuotient_exact b m ?_ ?_
    · rw [units_one]; exact Nat.two_pow_pos _
    · rw [units_one]

/-- A nonzero magnitude is a nonzero number of units. -/
theorem signedUnits_ne_zero {m : Nat} (h : m ≠ 0) (b) : signedUnits b m ≠ 0 := by
  have := units_pos (Nat.pos_of_ne_zero h)
  cases b <;> simp [signedUnits] <;> omega

theorem natAbs_signedUnits {m : Nat} (b) : (signedUnits b m).natAbs = units m := by cases b <;> simp [signedUnits]
/-- A nonzero magnitude is a nonzero number of units. -/
theorem signedUnits_ne_zerog {m : Nat} (h : m ≠ 0) (b) : decide (signedUnits b m < 0) = b := by
  have := units_pos (Nat.pos_of_ne_zero h)
  cases b <;> simp [signedUnits]; exact this

/-- Adding a zero to a nonzero value changes nothing. -/
theorem addFinite_zero_left (a b : Bool) (n : Fin magBound) (h : n.val ≠ 0) : addFinite a 0 b n.val = .fin b n := by
  unfold addFinite
  have : signedUnits a 0 = 0 := by cases a <;> simp [signedUnits]
  rw [this, Int.zero_add]
  simp only [forceInt_eq, forceNat_eq]
  rw [if_neg (signedUnits_ne_zero h b), natAbs_signedUnits, signedUnits_ne_zerog h]
  exact roundQuotient_exact b n one_pos (by simp)
/-- The encoding of a finite value has an exponent field that is not all ones. -/
theorem wordFinite_bits {x : F64} (h : isFinite x = true) : wordFinite (bits x) = true := by
  cases x with
  | nan => cases h
  | inf _ => cases h
  | fin neg m =>
    have hm : m.val < 0x7FF0000000000000 := m.isLt
    have hb : (BitVec.ofNat 64 (m.val + signBit neg)).toNat = m.val + signBit neg := by
      rw [BitVec.toNat_ofNat]; apply Nat.mod_eq_of_lt; cases neg <;> simp [signBit] <;> omega
    simp only [wordFinite, bits, bne_iff_ne, ne_eq, ← BitVec.toNat_inj, BitVec.extractLsb'_toNat, hb,
      Nat.shiftRight_eq_div_pow]
    show ¬ _ = 2047
    cases neg <;> simp only [signBit, Bool.false_eq_true, if_false, if_true] <;> omega

end Sys2Proof.Machine
end

