-- ==== Sys2Proof/Laws/Decode.lean ====
section
/-! SUPPORT. Decoding and encoding: what the decoder answers, said once. -/

namespace Sys2Proof

/-! ### Descriptors -/

namespace Descriptor

theorem getLsbD_make (we : Bool) (size : BitVec 3) (rsv : BitVec 4) (off : Offset) (i : Nat) :
    (make we size rsv off).getLsbD i =
      if i < 8 then off.getLsbD i else if i - 8 < 4 then rsv.getLsbD (i - 8)
      else if i - 8 - 4 < 3 then size.getLsbD (i - 8 - 4) else (BitVec.ofBool we).getLsbD (i - 8 - 4 - 3) := by
  refine (BitVec.getLsbD_append (x := (BitVec.ofBool we ++ size) ++ rsv) (y := off) (i := i)).trans ?_
  rw [BitVec.getLsbD_append, BitVec.getLsbD_append]

@[simp] theorem we_make (we : Bool) (size : BitVec 3) (rsv : BitVec 4) (off : Offset) :
    (make we size rsv off).we = we := by
  rw [Descriptor.we, getLsbD_make]; cases we <;> rfl

@[simp] theorem size_make (we : Bool) (size : BitVec 3) (rsv : BitVec 4) (off : Offset) :
    (make we size rsv off).size = size := by
  refine BitVec.eq_of_getLsbD_eq fun i hi => ?_
  rw [Descriptor.size, BitVec.getLsbD_extractLsb', getLsbD_make, if_neg (by omega), if_neg (by omega),
    if_pos (by omega), show 12 + i - 8 - 4 = i by omega]
  simp [hi]

@[simp] theorem rsv_make (we : Bool) (size : BitVec 3) (rsv : BitVec 4) (off : Offset) :
    (make we size rsv off).rsv = rsv := by
  refine BitVec.eq_of_getLsbD_eq fun i hi => ?_
  rw [Descriptor.rsv, BitVec.getLsbD_extractLsb', getLsbD_make, if_neg (by omega), if_pos (by omega),
    show 8 + i - 8 = i by omega]
  simp [hi]

@[simp] theorem off_make (we : Bool) (size : BitVec 3) (rsv : BitVec 4) (off : Offset) :
    (make we size rsv off).off = off := by
  refine BitVec.eq_of_getLsbD_eq fun i hi => ?_
  rw [Descriptor.off, BitVec.getLsbD_extractLsb', getLsbD_make, if_pos (by omega), Nat.zero_add]
  simp [hi]

/-- A descriptor is its fields. -/
theorem eq_make (td : Descriptor) : td = make td.we td.size td.rsv td.off := by
  refine BitVec.eq_of_getLsbD_eq fun i hi => ?_
  rw [getLsbD_make, Descriptor.we, Descriptor.size, Descriptor.rsv, Descriptor.off]
  interval_cases i <;> simp

end Descriptor

/-! ### Bus transactions -/

/-- An answer of a chain of tests is the first one's, or the rest's. -/
theorem ok_of_ite {c : Prop} [Decidable c] {i j : Instr} {r : Except Reject Instr}
    (h : (if c then .ok i else r) = .ok j) : c ∧ i = j ∨ ¬ c ∧ r = .ok j := by
  by_cases hc : c
  · rw [if_pos hc] at h; exact Or.inl ⟨hc, by injection h⟩
  · rw [if_neg hc] at h; exact Or.inr ⟨hc, h⟩

/-- What the row of an offset is: a well-formed instruction whose encoding has that direction and offset. -/
theorem decodeOffset_ok {we : Bool} {off : Offset} {data : Word} {i : Instr}
    (h : decodeOffset we off data = .ok i) :
    i.wellFormed = true ∧ i.isBus = true ∧ i.isRead = !we ∧
      encode i = .bus (admittedTd we off) (if we then data else 0#64) := by
  unfold decodeOffset at h
  iterate 14
    rcases ok_of_ite h with ⟨rfl, rfl⟩ | ⟨-, h⟩
    · cases we <;> exact ⟨rfl, rfl, rfl, rfl⟩
  iterate 2
    rcases ok_of_ite h with ⟨ho, rfl⟩ | ⟨-, h⟩
    · cases we <;> exact ⟨ho, rfl, rfl, rfl⟩
  cases h

/-- An offset that is a multiple of 8 has a row. -/
theorem decodeOffset_total (we : Bool) {off : Offset} (data : Word) (ha : off.extractLsb' 0 3 = 0#3) :
    ∃ i, decodeOffset we off data = .ok i := by
  revert off
  suffices h : ∀ off : Offset, off.extractLsb' 0 3 = 0#3 → ∀ k : Fin 32, off = BitVec.ofNat 8 (8 * k.val) →
      ∃ i, decodeOffset we off data = .ok i by
    intro off ha
    have hk : ∀ off : Offset, off.extractLsb' 0 3 = 0#3 → ∃ k : Fin 32, off = BitVec.ofNat 8 (8 * k.val) := by
      decide +kernel
    obtain ⟨k, hk⟩ := hk off ha
    exact h off ha k hk
  rintro off - k rfl
  fin_cases k <;> exact ⟨_, rfl⟩

theorem decodeBus_ok {td : Descriptor} {data : Word} {i : Instr} (h : decodeBus td data = .ok i) :
    td.admitted = true ∧ i.wellFormed = true ∧ i.isBus = true ∧ i.isRead = !td.we ∧
      encode i = .bus td (if td.we then data else 0#64) := by
  unfold decodeBus at h
  split at h
  · cases h
  rename_i hs
  split at h
  · cases h
  rename_i hr
  split at h
  · cases h
  rename_i ha
  rw [Decidable.not_not] at hs hr ha
  obtain ⟨hw, hb, hrd, he⟩ := decodeOffset_ok h
  refine ⟨by simp [Descriptor.admitted, hs, hr, ha], hw, hb, hrd, ?_⟩
  rw [he, admittedTd, ← hs, ← hr, ← Descriptor.eq_make]

/-! ### Command words -/

theorem ofNat_eq_iff (w : Word) {n : Nat} (hn : n < 2 ^ 64) : w = BitVec.ofNat 64 n ↔ w.toNat = n := by
  rw [← BitVec.toNat_inj, BitVec.toNat_ofNat, Nat.mod_eq_of_lt hn]

theorem some_of_ite {c : Prop} [Decidable c] {a b : FilterKind} {r : Option FilterKind}
    (h : (if c then some a else r) = some b) : c ∧ a = b ∨ r = some b := by
  by_cases hc : c
  · rw [if_pos hc] at h; exact Or.inl ⟨hc, by injection h⟩
  · rw [if_neg hc] at h; exact Or.inr h

/-- The kind of a word is the one whose code the word is. -/
theorem kindOfWord_eq_some (w : Word) (k : FilterKind) : kindOfWord w = some k ↔ w.toNat = k.code := by
  constructor
  · intro h
    unfold kindOfWord at h
    iterate 9
      rcases some_of_ite h with ⟨rfl, rfl⟩ | h
      · rfl
    cases h
  · intro h
    rw [← ofNat_eq_iff w (by cases k <;> decide)] at h
    subst h
    cases k <;> rfl

/-- A word is no kind exactly if it is above 8. -/
theorem kindOfWord_eq_none (w : Word) : kindOfWord w = none ↔ 8 < w.toNat := by
  have hle : ∀ k : FilterKind, k.code ≤ 8 := by intro k; cases k <;> decide
  have hex : ∀ n : Nat, n ≤ 8 → ∃ k, FilterKind.code k = n := fun n hn => by
    interval_cases n
    exacts [⟨.lowpass, rfl⟩, ⟨.highpass, rfl⟩, ⟨.bandpassSkirt, rfl⟩, ⟨.bandpassPeak, rfl⟩, ⟨.notch, rfl⟩,
      ⟨.allpass, rfl⟩, ⟨.peaking, rfl⟩, ⟨.lowShelf, rfl⟩, ⟨.highShelf, rfl⟩]
  constructor
  · intro h
    by_contra hc
    obtain ⟨k, hk⟩ := hex w.toNat (by omega)
    rw [(kindOfWord_eq_some w k).2 hk.symm] at h
    cases h
  · intro h
    cases hk : kindOfWord w with
    | none => rfl
    | some k => have := (kindOfWord_eq_some w k).1 hk; have := hle k; omega

end Sys2Proof
end

