-- ==== Sys2Proof/Laws/State.lean ====
section
/-! SUPPORT. One lemma per field of State per update, so that no proof unfolds an update. -/

namespace Sys2Proof.Machine

/-! ### `State.respond` -/

@[simp] theorem State.respond_status (s : State) (r : Response) : (s.respond r).status = s.status := rfl
@[simp] theorem State.respond_ctrl (s : State) (r : Response) : (s.respond r).ctrl = s.ctrl := rfl
@[simp] theorem State.respond_sampleRate (s : State) (r : Response) : (s.respond r).sampleRate = s.sampleRate := rfl
@[simp] theorem State.respond_freq (s : State) (r : Response) : (s.respond r).freq = s.freq := rfl
@[simp] theorem State.respond_gainDb (s : State) (r : Response) : (s.respond r).gainDb = s.gainDb := rfl
@[simp] theorem State.respond_q (s : State) (r : Response) : (s.respond r).q = s.q := rfl
@[simp] theorem State.respond_b0 (s : State) (r : Response) : (s.respond r).b0 = s.b0 := rfl
@[simp] theorem State.respond_b1 (s : State) (r : Response) : (s.respond r).b1 = s.b1 := rfl
@[simp] theorem State.respond_b2 (s : State) (r : Response) : (s.respond r).b2 = s.b2 := rfl
@[simp] theorem State.respond_a0 (s : State) (r : Response) : (s.respond r).a0 = s.a0 := rfl
@[simp] theorem State.respond_a1 (s : State) (r : Response) : (s.respond r).a1 = s.a1 := rfl
@[simp] theorem State.respond_a2 (s : State) (r : Response) : (s.respond r).a2 = s.a2 := rfl
@[simp] theorem State.respond_phase (s : State) (r : Response) : (s.respond r).phase = s.phase := rfl
@[simp] theorem State.respond_snap (s : State) (r : Response) : (s.respond r).snap = s.snap := rfl
@[simp] theorem State.respond_faultMark (s : State) (r : Response) : (s.respond r).faultMark = s.faultMark := rfl
@[simp] theorem State.respond_schedule (s : State) (r : Response) : (s.respond r).schedule = s.schedule := rfl
@[simp] theorem State.respond_responses (s : State) (r : Response) : (s.respond r).responses = r :: s.responses := rfl

/-! ### `State.accept` -/

@[simp] theorem State.accept_status (s : State) (w : Word) : (s.accept w).status = statusAccept s.status := rfl
@[simp] theorem State.accept_ctrl (s : State) (w : Word) : (s.accept w).ctrl = s.ctrl := rfl
@[simp] theorem State.accept_sampleRate (s : State) (w : Word) : (s.accept w).sampleRate = s.sampleRate := rfl
@[simp] theorem State.accept_freq (s : State) (w : Word) : (s.accept w).freq = s.freq := rfl
@[simp] theorem State.accept_gainDb (s : State) (w : Word) : (s.accept w).gainDb = s.gainDb := rfl
@[simp] theorem State.accept_q (s : State) (w : Word) : (s.accept w).q = s.q := rfl
@[simp] theorem State.accept_b0 (s : State) (w : Word) : (s.accept w).b0 = s.b0 := rfl
@[simp] theorem State.accept_b1 (s : State) (w : Word) : (s.accept w).b1 = s.b1 := rfl
@[simp] theorem State.accept_b2 (s : State) (w : Word) : (s.accept w).b2 = s.b2 := rfl
@[simp] theorem State.accept_a0 (s : State) (w : Word) : (s.accept w).a0 = s.a0 := rfl
@[simp] theorem State.accept_a1 (s : State) (w : Word) : (s.accept w).a1 = s.a1 := rfl
@[simp] theorem State.accept_a2 (s : State) (w : Word) : (s.accept w).a2 = s.a2 := rfl
@[simp] theorem State.accept_phase (s : State) (w : Word) : (s.accept w).phase = .busy := rfl
@[simp] theorem State.accept_snap (s : State) (w : Word) : (s.accept w).snap = s.takeSnap w := rfl
@[simp] theorem State.accept_faultMark (s : State) (w : Word) : (s.accept w).faultMark = s.faultMark := rfl
@[simp] theorem State.accept_schedule (s : State) (w : Word) : (s.accept w).schedule = s.schedule := rfl
@[simp] theorem State.accept_responses (s : State) (w : Word) : (s.accept w).responses = s.responses := rfl

/-! ### `State.dropCommand` -/

@[simp] theorem State.dropCommand_status (s : State) : s.dropCommand.status = statusDropped s.status := rfl
@[simp] theorem State.dropCommand_ctrl (s : State) : s.dropCommand.ctrl = s.ctrl := rfl
@[simp] theorem State.dropCommand_sampleRate (s : State) : s.dropCommand.sampleRate = s.sampleRate := rfl
@[simp] theorem State.dropCommand_freq (s : State) : s.dropCommand.freq = s.freq := rfl
@[simp] theorem State.dropCommand_gainDb (s : State) : s.dropCommand.gainDb = s.gainDb := rfl
@[simp] theorem State.dropCommand_q (s : State) : s.dropCommand.q = s.q := rfl
@[simp] theorem State.dropCommand_b0 (s : State) : s.dropCommand.b0 = s.b0 := rfl
@[simp] theorem State.dropCommand_b1 (s : State) : s.dropCommand.b1 = s.b1 := rfl
@[simp] theorem State.dropCommand_b2 (s : State) : s.dropCommand.b2 = s.b2 := rfl
@[simp] theorem State.dropCommand_a0 (s : State) : s.dropCommand.a0 = s.a0 := rfl
@[simp] theorem State.dropCommand_a1 (s : State) : s.dropCommand.a1 = s.a1 := rfl
@[simp] theorem State.dropCommand_a2 (s : State) : s.dropCommand.a2 = s.a2 := rfl
@[simp] theorem State.dropCommand_phase (s : State) : s.dropCommand.phase = s.phase := rfl
@[simp] theorem State.dropCommand_snap (s : State) : s.dropCommand.snap = s.snap := rfl
@[simp] theorem State.dropCommand_faultMark (s : State) : s.dropCommand.faultMark = s.faultMark := rfl
@[simp] theorem State.dropCommand_schedule (s : State) : s.dropCommand.schedule = s.schedule := rfl
@[simp] theorem State.dropCommand_responses (s : State) : s.dropCommand.responses = s.responses := rfl

/-! ### `State.raiseCommandError` -/

@[simp] theorem State.raiseCommandError_status (s : State) (c : Cause) : (s.raiseCommandError c).status = statusError s.status c := rfl
@[simp] theorem State.raiseCommandError_ctrl (s : State) (c : Cause) : (s.raiseCommandError c).ctrl = s.ctrl := rfl
@[simp] theorem State.raiseCommandError_sampleRate (s : State) (c : Cause) : (s.raiseCommandError c).sampleRate = s.sampleRate := rfl
@[simp] theorem State.raiseCommandError_freq (s : State) (c : Cause) : (s.raiseCommandError c).freq = s.freq := rfl
@[simp] theorem State.raiseCommandError_gainDb (s : State) (c : Cause) : (s.raiseCommandError c).gainDb = s.gainDb := rfl
@[simp] theorem State.raiseCommandError_q (s : State) (c : Cause) : (s.raiseCommandError c).q = s.q := rfl
@[simp] theorem State.raiseCommandError_b0 (s : State) (c : Cause) : (s.raiseCommandError c).b0 = s.b0 := rfl
@[simp] theorem State.raiseCommandError_b1 (s : State) (c : Cause) : (s.raiseCommandError c).b1 = s.b1 := rfl
@[simp] theorem State.raiseCommandError_b2 (s : State) (c : Cause) : (s.raiseCommandError c).b2 = s.b2 := rfl
@[simp] theorem State.raiseCommandError_a0 (s : State) (c : Cause) : (s.raiseCommandError c).a0 = s.a0 := rfl
@[simp] theorem State.raiseCommandError_a1 (s : State) (c : Cause) : (s.raiseCommandError c).a1 = s.a1 := rfl
@[simp] theorem State.raiseCommandError_a2 (s : State) (c : Cause) : (s.raiseCommandError c).a2 = s.a2 := rfl
@[simp] theorem State.raiseCommandError_phase (s : State) (c : Cause) : (s.raiseCommandError c).phase = .idle := rfl
@[simp] theorem State.raiseCommandError_snap (s : State) (c : Cause) : (s.raiseCommandError c).snap = s.snap := rfl
@[simp] theorem State.raiseCommandError_faultMark (s : State) (c : Cause) : (s.raiseCommandError c).faultMark = s.faultMark := rfl
@[simp] theorem State.raiseCommandError_schedule (s : State) (c : Cause) : (s.raiseCommandError c).schedule = s.schedule := rfl
@[simp] theorem State.raiseCommandError_responses (s : State) (c : Cause) : (s.raiseCommandError c).responses = s.responses := rfl

/-! ### `State.writeResults` -/

@[simp] theorem State.writeResults_status (s : State) (r : Coeffs) : (s.writeResults r).status = statusSuccess s.status := rfl
@[simp] theorem State.writeResults_ctrl (s : State) (r : Coeffs) : (s.writeResults r).ctrl = s.ctrl := rfl
@[simp] theorem State.writeResults_sampleRate (s : State) (r : Coeffs) : (s.writeResults r).sampleRate = s.sampleRate := rfl
@[simp] theorem State.writeResults_freq (s : State) (r : Coeffs) : (s.writeResults r).freq = s.freq := rfl
@[simp] theorem State.writeResults_gainDb (s : State) (r : Coeffs) : (s.writeResults r).gainDb = s.gainDb := rfl
@[simp] theorem State.writeResults_q (s : State) (r : Coeffs) : (s.writeResults r).q = s.q := rfl
@[simp] theorem State.writeResults_b0 (s : State) (r : Coeffs) : (s.writeResults r).b0 = bits r.b0 := rfl
@[simp] theorem State.writeResults_b1 (s : State) (r : Coeffs) : (s.writeResults r).b1 = bits r.b1 := rfl
@[simp] theorem State.writeResults_b2 (s : State) (r : Coeffs) : (s.writeResults r).b2 = bits r.b2 := rfl
@[simp] theorem State.writeResults_a0 (s : State) (r : Coeffs) : (s.writeResults r).a0 = bits r.a0 := rfl
@[simp] theorem State.writeResults_a1 (s : State) (r : Coeffs) : (s.writeResults r).a1 = bits r.a1 := rfl
@[simp] theorem State.writeResults_a2 (s : State) (r : Coeffs) : (s.writeResults r).a2 = bits r.a2 := rfl
@[simp] theorem State.writeResults_phase (s : State) (r : Coeffs) : (s.writeResults r).phase = .idle := rfl
@[simp] theorem State.writeResults_snap (s : State) (r : Coeffs) : (s.writeResults r).snap = s.snap := rfl
@[simp] theorem State.writeResults_faultMark (s : State) (r : Coeffs) : (s.writeResults r).faultMark = s.faultMark := rfl
@[simp] theorem State.writeResults_schedule (s : State) (r : Coeffs) : (s.writeResults r).schedule = s.schedule := rfl
@[simp] theorem State.writeResults_responses (s : State) (r : Coeffs) : (s.writeResults r).responses = s.responses := rfl

/-! ### `State.raiseAccessError` -/

@[simp] theorem State.raiseAccessError_status (s : State) : s.raiseAccessError.status = s.status := rfl
@[simp] theorem State.raiseAccessError_ctrl (s : State) : s.raiseAccessError.ctrl = s.ctrl := rfl
@[simp] theorem State.raiseAccessError_sampleRate (s : State) : s.raiseAccessError.sampleRate = s.sampleRate := rfl
@[simp] theorem State.raiseAccessError_freq (s : State) : s.raiseAccessError.freq = s.freq := rfl
@[simp] theorem State.raiseAccessError_gainDb (s : State) : s.raiseAccessError.gainDb = s.gainDb := rfl
@[simp] theorem State.raiseAccessError_q (s : State) : s.raiseAccessError.q = s.q := rfl
@[simp] theorem State.raiseAccessError_b0 (s : State) : s.raiseAccessError.b0 = s.b0 := rfl
@[simp] theorem State.raiseAccessError_b1 (s : State) : s.raiseAccessError.b1 = s.b1 := rfl
@[simp] theorem State.raiseAccessError_b2 (s : State) : s.raiseAccessError.b2 = s.b2 := rfl
@[simp] theorem State.raiseAccessError_a0 (s : State) : s.raiseAccessError.a0 = s.a0 := rfl
@[simp] theorem State.raiseAccessError_a1 (s : State) : s.raiseAccessError.a1 = s.a1 := rfl
@[simp] theorem State.raiseAccessError_a2 (s : State) : s.raiseAccessError.a2 = s.a2 := rfl
@[simp] theorem State.raiseAccessError_phase (s : State) : s.raiseAccessError.phase = s.phase := rfl
@[simp] theorem State.raiseAccessError_snap (s : State) : s.raiseAccessError.snap = s.snap := rfl
@[simp] theorem State.raiseAccessError_faultMark (s : State) : s.raiseAccessError.faultMark = some .accessError := rfl
@[simp] theorem State.raiseAccessError_schedule (s : State) : s.raiseAccessError.schedule = s.schedule := rfl
@[simp] theorem State.raiseAccessError_responses (s : State) : s.raiseAccessError.responses = .accessError :: s.responses := rfl

/-! ### `State.resetBlock` -/

@[simp] theorem State.resetBlock_status (s : State) : s.resetBlock.status = State.reset.status := rfl
@[simp] theorem State.resetBlock_ctrl (s : State) : s.resetBlock.ctrl = State.reset.ctrl := rfl
@[simp] theorem State.resetBlock_sampleRate (s : State) : s.resetBlock.sampleRate = State.reset.sampleRate := rfl
@[simp] theorem State.resetBlock_freq (s : State) : s.resetBlock.freq = State.reset.freq := rfl
@[simp] theorem State.resetBlock_gainDb (s : State) : s.resetBlock.gainDb = State.reset.gainDb := rfl
@[simp] theorem State.resetBlock_q (s : State) : s.resetBlock.q = State.reset.q := rfl
@[simp] theorem State.resetBlock_b0 (s : State) : s.resetBlock.b0 = State.reset.b0 := rfl
@[simp] theorem State.resetBlock_b1 (s : State) : s.resetBlock.b1 = State.reset.b1 := rfl
@[simp] theorem State.resetBlock_b2 (s : State) : s.resetBlock.b2 = State.reset.b2 := rfl
@[simp] theorem State.resetBlock_a0 (s : State) : s.resetBlock.a0 = State.reset.a0 := rfl
@[simp] theorem State.resetBlock_a1 (s : State) : s.resetBlock.a1 = State.reset.a1 := rfl
@[simp] theorem State.resetBlock_a2 (s : State) : s.resetBlock.a2 = State.reset.a2 := rfl
@[simp] theorem State.resetBlock_phase (s : State) : s.resetBlock.phase = State.reset.phase := rfl
@[simp] theorem State.resetBlock_snap (s : State) : s.resetBlock.snap = State.reset.snap := rfl
@[simp] theorem State.resetBlock_faultMark (s : State) : s.resetBlock.faultMark = s.faultMark := rfl
@[simp] theorem State.resetBlock_schedule (s : State) : s.resetBlock.schedule = s.schedule := rfl
@[simp] theorem State.resetBlock_responses (s : State) : s.resetBlock.responses = s.responses := rfl

/-! ### `State.placeBus` -/

@[simp] theorem State.placeBus_status (s : State) (td : Descriptor) (d : Word) : (s.placeBus td d).status = s.status := rfl
@[simp] theorem State.placeBus_ctrl (s : State) (td : Descriptor) (d : Word) : (s.placeBus td d).ctrl = s.ctrl := rfl
@[simp] theorem State.placeBus_sampleRate (s : State) (td : Descriptor) (d : Word) : (s.placeBus td d).sampleRate = s.sampleRate := rfl
@[simp] theorem State.placeBus_freq (s : State) (td : Descriptor) (d : Word) : (s.placeBus td d).freq = s.freq := rfl
@[simp] theorem State.placeBus_gainDb (s : State) (td : Descriptor) (d : Word) : (s.placeBus td d).gainDb = s.gainDb := rfl
@[simp] theorem State.placeBus_q (s : State) (td : Descriptor) (d : Word) : (s.placeBus td d).q = s.q := rfl
@[simp] theorem State.placeBus_b0 (s : State) (td : Descriptor) (d : Word) : (s.placeBus td d).b0 = s.b0 := rfl
@[simp] theorem State.placeBus_b1 (s : State) (td : Descriptor) (d : Word) : (s.placeBus td d).b1 = s.b1 := rfl
@[simp] theorem State.placeBus_b2 (s : State) (td : Descriptor) (d : Word) : (s.placeBus td d).b2 = s.b2 := rfl
@[simp] theorem State.placeBus_a0 (s : State) (td : Descriptor) (d : Word) : (s.placeBus td d).a0 = s.a0 := rfl
@[simp] theorem State.placeBus_a1 (s : State) (td : Descriptor) (d : Word) : (s.placeBus td d).a1 = s.a1 := rfl
@[simp] theorem State.placeBus_a2 (s : State) (td : Descriptor) (d : Word) : (s.placeBus td d).a2 = s.a2 := rfl
@[simp] theorem State.placeBus_phase (s : State) (td : Descriptor) (d : Word) : (s.placeBus td d).phase = s.phase := rfl
@[simp] theorem State.placeBus_snap (s : State) (td : Descriptor) (d : Word) : (s.placeBus td d).snap = s.snap := rfl
@[simp] theorem State.placeBus_faultMark (s : State) (td : Descriptor) (d : Word) : (s.placeBus td d).faultMark = s.faultMark := rfl
@[simp] theorem State.placeBus_schedule (s : State) (td : Descriptor) (d : Word) : (s.placeBus td d).schedule = .bus td d :: s.schedule := rfl
@[simp] theorem State.placeBus_responses (s : State) (td : Descriptor) (d : Word) : (s.placeBus td d).responses = s.responses := rfl

/-! ### `State.placeCommand` -/

@[simp] theorem State.placeCommand_status (s : State) (w : Word) : (s.placeCommand w).status = statusAccept s.status := rfl
@[simp] theorem State.placeCommand_ctrl (s : State) (w : Word) : (s.placeCommand w).ctrl = s.ctrl := rfl
@[simp] theorem State.placeCommand_sampleRate (s : State) (w : Word) : (s.placeCommand w).sampleRate = s.sampleRate := rfl
@[simp] theorem State.placeCommand_freq (s : State) (w : Word) : (s.placeCommand w).freq = s.freq := rfl
@[simp] theorem State.placeCommand_gainDb (s : State) (w : Word) : (s.placeCommand w).gainDb = s.gainDb := rfl
@[simp] theorem State.placeCommand_q (s : State) (w : Word) : (s.placeCommand w).q = s.q := rfl
@[simp] theorem State.placeCommand_b0 (s : State) (w : Word) : (s.placeCommand w).b0 = s.b0 := rfl
@[simp] theorem State.placeCommand_b1 (s : State) (w : Word) : (s.placeCommand w).b1 = s.b1 := rfl
@[simp] theorem State.placeCommand_b2 (s : State) (w : Word) : (s.placeCommand w).b2 = s.b2 := rfl
@[simp] theorem State.placeCommand_a0 (s : State) (w : Word) : (s.placeCommand w).a0 = s.a0 := rfl
@[simp] theorem State.placeCommand_a1 (s : State) (w : Word) : (s.placeCommand w).a1 = s.a1 := rfl
@[simp] theorem State.placeCommand_a2 (s : State) (w : Word) : (s.placeCommand w).a2 = s.a2 := rfl
@[simp] theorem State.placeCommand_phase (s : State) (w : Word) : (s.placeCommand w).phase = .busy := rfl
@[simp] theorem State.placeCommand_snap (s : State) (w : Word) : (s.placeCommand w).snap = s.takeSnap w := rfl
@[simp] theorem State.placeCommand_faultMark (s : State) (w : Word) : (s.placeCommand w).faultMark = s.faultMark := rfl
@[simp] theorem State.placeCommand_schedule (s : State) (w : Word) : (s.placeCommand w).schedule = .complete :: s.schedule := rfl
@[simp] theorem State.placeCommand_responses (s : State) (w : Word) : (s.placeCommand w).responses = s.responses := rfl

end Sys2Proof.Machine
end

