-- ==== Sys2Proof/Laws/Flags.lean ====
section
/-! SUPPORT. What each `STATUS` and `CTRL` write does to each field: the lemmas that later proofs cite instead of
unfolding the bit operations. -/

namespace Sys2Proof.Machine

/-! ### Bit by bit -/

theorem getLsbD_setBit (w : Word) (i j : Nat) (b : Bool) (hi : i < 64) :
    (setBit w i b).getLsbD j = if j = i then b else w.getLsbD j := by
  have hw : ∀ k, 64 ≤ k → w.getLsbD k = false := fun k hk => BitVec.getLsbD_of_ge w k hk
  unfold setBit
  split
  · rw [BitVec.getLsbD_or, BitVec.getLsbD_twoPow]
    by_cases hij : j = i
    · subst hij; simp_all
    · have : ¬ i = j := fun h => hij h.symm
      simp [hij, this]
  · rw [BitVec.getLsbD_and, BitVec.getLsbD_not, BitVec.getLsbD_twoPow]
    by_cases hij : j = i
    · subst hij; simp_all
    · have : ¬ i = j := fun h => hij h.symm
      by_cases hj : j < 64
      · simp [hij, this, hj]
      · simp [hij, hw j (by omega)]

theorem getLsbD_setField {n : Nat} (w : Word) (lo : Nat) (v : BitVec n) (j : Nat) (h : lo + n ≤ 64) :
    (setField w lo v).getLsbD j = if lo ≤ j ∧ j < lo + n then v.getLsbD (j - lo) else w.getLsbD j := by
  unfold setField
  rw [BitVec.getLsbD_or, BitVec.getLsbD_and, BitVec.getLsbD_not, BitVec.getLsbD_shiftLeft, BitVec.getLsbD_shiftLeft,
    BitVec.getLsbD_setWidth, BitVec.getLsbD_setWidth, BitVec.getLsbD_allOnes]
  by_cases hj : j < 64
  · by_cases h1 : lo ≤ j
    · by_cases h2 : j < lo + n
      · have h3 : j - lo < n := by omega
        have h4 : ¬ j < lo := by omega
        have h5 : j - lo < 64 := by omega
        simp [hj, h1, h2, h3, h4, h5]
      · have h3 : ¬ j - lo < n := by omega
        have h5 : j - lo < 64 := by omega
        simp [hj, h1, h2, h3, h5, BitVec.getLsbD_of_ge v (j - lo) (by omega)]
    · have h4 : j < lo := by omega
      simp [hj, h1, h4]
  · have : ¬ (lo ≤ j ∧ j < lo + n) := by omega
    simp [hj, this, BitVec.getLsbD_of_ge w j (by omega)]

/-! ### The five `STATUS` writes, bit by bit -/

theorem getLsbD_statusAccept (st : Word) (j : Nat) :
    (statusAccept st).getLsbD j =
      if j = 0 then true else if j = 1 ∨ j = 2 ∨ j = 8 ∨ j = 9 ∨ (12 ≤ j ∧ j < 16) then false else st.getLsbD j := by
  unfold statusAccept
  rw [getLsbD_setField _ _ _ _ (by omega), getLsbD_setField _ _ _ _ (by omega), getLsbD_setBit _ _ _ _ (by omega),
    getLsbD_setBit _ _ _ _ (by omega), getLsbD_setBit _ _ _ _ (by omega)]
  split_ifs <;> first | rfl | (exfalso; omega) | simp

theorem getLsbD_statusSuccess (st : Word) (j : Nat) :
    (statusSuccess st).getLsbD j =
      if j = 1 then true else if j = 0 ∨ j = 2 ∨ j = 8 ∨ j = 9 ∨ (12 ≤ j ∧ j < 16) then false else st.getLsbD j := by
  unfold statusSuccess
  rw [getLsbD_setBit _ _ _ _ (by omega), getLsbD_setBit _ _ _ _ (by omega), getLsbD_setField _ _ _ _ (by omega),
    getLsbD_setField _ _ _ _ (by omega), getLsbD_setBit _ _ _ _ (by omega)]
  split_ifs <;> first | rfl | (exfalso; omega) | simp

theorem getLsbD_statusError (st : Word) (c : Cause) (j : Nat) :
    (statusError st c).getLsbD j =
      if j = 1 ∨ j = 2 then true else if j = 0 then false
      else if 8 ≤ j ∧ j < 10 then c.errClass.getLsbD (j - 8)
      else if 12 ≤ j ∧ j < 16 then c.code.getLsbD (j - 12) else st.getLsbD j := by
  unfold statusError
  rw [getLsbD_setBit _ _ _ _ (by omega), getLsbD_setBit _ _ _ _ (by omega), getLsbD_setField _ _ _ _ (by omega),
    getLsbD_setField _ _ _ _ (by omega), getLsbD_setBit _ _ _ _ (by omega)]
  split_ifs <;> first | rfl | (exfalso; omega)

theorem getLsbD_statusDropped (st : Word) (j : Nat) :
    (statusDropped st).getLsbD j = if j = 3 then true else st.getLsbD j :=
  getLsbD_setBit _ _ _ _ (by omega)

theorem getLsbD_statusW1C (st w : Word) (j : Nat) :
    (statusW1C st w).getLsbD j = if j = 3 ∧ w.getLsbD 3 = true then false else st.getLsbD j := by
  unfold statusW1C
  cases h : w.getLsbD 3
  · simp
  · simp only [↓reduceIte, and_true]
    exact getLsbD_setBit _ _ _ _ (by omega)

/-! ### The fields after each write -/

theorem getLsbD_errClassField (st : Word) (i : Nat) (hi : i < 2) :
    (errClassField st).getLsbD i = st.getLsbD (8 + i) := by
  simp [errClassField, hi]

theorem getLsbD_errCauseField (st : Word) (i : Nat) (hi : i < 4) :
    (errCauseField st).getLsbD i = st.getLsbD (12 + i) := by
  simp [errCauseField, hi]

theorem errClassField_eq (st : Word) (c : BitVec 2)
    (h0 : st.getLsbD 8 = c.getLsbD 0) (h1 : st.getLsbD 9 = c.getLsbD 1) : errClassField st = c := by
  apply BitVec.eq_of_getLsbD_eq
  intro i hi
  rw [getLsbD_errClassField _ _ hi]
  have : i = 0 ∨ i = 1 := by omega
  rcases this with rfl | rfl <;> assumption

theorem errCauseField_eq (st : Word) (c : BitVec 4)
    (h0 : st.getLsbD 12 = c.getLsbD 0) (h1 : st.getLsbD 13 = c.getLsbD 1)
    (h2 : st.getLsbD 14 = c.getLsbD 2) (h3 : st.getLsbD 15 = c.getLsbD 3) : errCauseField st = c := by
  apply BitVec.eq_of_getLsbD_eq
  intro i hi
  rw [getLsbD_errCauseField _ _ hi]
  have : i = 0 ∨ i = 1 ∨ i = 2 ∨ i = 3 := by omega
  rcases this with rfl | rfl | rfl | rfl <;> assumption

@[simp] theorem busyBit_statusAccept (st : Word) : busyBit (statusAccept st) = true := by
  simp only [busyBit, getLsbD_statusAccept]; rfl
@[simp] theorem doneBit_statusAccept (st : Word) : doneBit (statusAccept st) = false := by
  simp only [doneBit, getLsbD_statusAccept]; rfl
@[simp] theorem errBit_statusAccept (st : Word) : errBit (statusAccept st) = false := by
  simp only [errBit, getLsbD_statusAccept]; rfl
@[simp] theorem cmdLostBit_statusAccept (st : Word) : cmdLostBit (statusAccept st) = cmdLostBit st := by
  simp only [cmdLostBit, getLsbD_statusAccept]; rfl
@[simp] theorem errClassField_statusAccept (st : Word) : errClassField (statusAccept st) = 0#2 := by
  apply errClassField_eq <;> (rw [getLsbD_statusAccept]; rfl)
@[simp] theorem errCauseField_statusAccept (st : Word) : errCauseField (statusAccept st) = 0#4 := by
  apply errCauseField_eq <;> (rw [getLsbD_statusAccept]; rfl)

@[simp] theorem busyBit_statusSuccess (st : Word) : busyBit (statusSuccess st) = false := by
  simp only [busyBit, getLsbD_statusSuccess]; rfl
@[simp] theorem doneBit_statusSuccess (st : Word) : doneBit (statusSuccess st) = true := by
  simp only [doneBit, getLsbD_statusSuccess]; rfl
@[simp] theorem errBit_statusSuccess (st : Word) : errBit (statusSuccess st) = false := by
  simp only [errBit, getLsbD_statusSuccess]; rfl
@[simp] theorem cmdLostBit_statusSuccess (st : Word) : cmdLostBit (statusSuccess st) = cmdLostBit st := by
  simp only [cmdLostBit, getLsbD_statusSuccess]; rfl
@[simp] theorem errClassField_statusSuccess (st : Word) : errClassField (statusSuccess st) = 0#2 := by
  apply errClassField_eq <;> (rw [getLsbD_statusSuccess]; rfl)
@[simp] theorem errCauseField_statusSuccess (st : Word) : errCauseField (statusSuccess st) = 0#4 := by
  apply errCauseField_eq <;> (rw [getLsbD_statusSuccess]; rfl)

@[simp] theorem busyBit_statusError (st : Word) (c : Cause) : busyBit (statusError st c) = false := by
  simp only [busyBit, getLsbD_statusError]; rfl
@[simp] theorem doneBit_statusError (st : Word) (c : Cause) : doneBit (statusError st c) = true := by
  simp only [doneBit, getLsbD_statusError]; rfl
@[simp] theorem errBit_statusError (st : Word) (c : Cause) : errBit (statusError st c) = true := by
  simp only [errBit, getLsbD_statusError]; rfl
@[simp] theorem cmdLostBit_statusError (st : Word) (c : Cause) : cmdLostBit (statusError st c) = cmdLostBit st := by
  simp only [cmdLostBit, getLsbD_statusError]; rfl
@[simp] theorem errClassField_statusError (st : Word) (c : Cause) :
    errClassField (statusError st c) = c.errClass := by
  apply errClassField_eq <;> (rw [getLsbD_statusError]; rfl)
@[simp] theorem errCauseField_statusError (st : Word) (c : Cause) :
    errCauseField (statusError st c) = c.code := by
  apply errCauseField_eq <;> (rw [getLsbD_statusError]; rfl)

@[simp] theorem busyBit_statusDropped (st : Word) : busyBit (statusDropped st) = busyBit st := by
  simp only [busyBit, getLsbD_statusDropped]; rfl
@[simp] theorem doneBit_statusDropped (st : Word) : doneBit (statusDropped st) = doneBit st := by
  simp only [doneBit, getLsbD_statusDropped]; rfl
@[simp] theorem errBit_statusDropped (st : Word) : errBit (statusDropped st) = errBit st := by
  simp only [errBit, getLsbD_statusDropped]; rfl
@[simp] theorem cmdLostBit_statusDropped (st : Word) : cmdLostBit (statusDropped st) = true := by
  simp only [cmdLostBit, getLsbD_statusDropped]; rfl
@[simp] theorem errClassField_statusDropped (st : Word) : errClassField (statusDropped st) = errClassField st := by
  apply errClassField_eq <;> (rw [getLsbD_statusDropped, getLsbD_errClassField _ _ (by omega)]; rfl)
@[simp] theorem errCauseField_statusDropped (st : Word) : errCauseField (statusDropped st) = errCauseField st := by
  apply errCauseField_eq <;> (rw [getLsbD_statusDropped, getLsbD_errCauseField _ _ (by omega)]; rfl)

@[simp] theorem busyBit_statusW1C (st w : Word) : busyBit (statusW1C st w) = busyBit st := by
  simp only [busyBit, getLsbD_statusW1C]; rfl
@[simp] theorem doneBit_statusW1C (st w : Word) : doneBit (statusW1C st w) = doneBit st := by
  simp only [doneBit, getLsbD_statusW1C]; rfl
@[simp] theorem errBit_statusW1C (st w : Word) : errBit (statusW1C st w) = errBit st := by
  simp only [errBit, getLsbD_statusW1C]; rfl
@[simp] theorem cmdLostBit_statusW1C (st w : Word) :
    cmdLostBit (statusW1C st w) = if w.getLsbD 3 = true then false else cmdLostBit st := by
  simp only [cmdLostBit, getLsbD_statusW1C, true_and]
@[simp] theorem errClassField_statusW1C (st w : Word) : errClassField (statusW1C st w) = errClassField st := by
  apply errClassField_eq <;> (rw [getLsbD_statusW1C, getLsbD_errClassField _ _ (by omega)]; rfl)
@[simp] theorem errCauseField_statusW1C (st w : Word) : errCauseField (statusW1C st w) = errCauseField st := by
  apply errCauseField_eq <;> (rw [getLsbD_statusW1C, getLsbD_errCauseField _ _ (by omega)]; rfl)

/-! ### Reserved bits -/

/-- A status write that changes listed bits only keeps the reserved bits 0. -/
theorem reserved_zero_of_bits (st st' : Word)
    (h : ∀ j < 64, statusMask.getLsbD j = false → st'.getLsbD j = st.getLsbD j)
    (h0 : st &&& ~~~statusMask = 0#64) : st' &&& ~~~statusMask = 0#64 := by
  rw [← h0]
  apply BitVec.eq_of_getLsbD_eq
  intro j hj
  rw [BitVec.getLsbD_and, BitVec.getLsbD_and, BitVec.getLsbD_not]
  cases hm : statusMask.getLsbD j
  · rw [h j hj hm]
  · simp

/-- The listed bits of `STATUS` (R25). -/
theorem getLsbD_statusMask (j : Nat) :
    statusMask.getLsbD j = decide (j < 4 ∨ j = 8 ∨ j = 9 ∨ (12 ≤ j ∧ j < 16)) := by
  by_cases hj : j < 16
  · interval_cases j <;> rfl
  · have : statusMask.getLsbD j = false := by
      by_cases h64 : j < 64
      · interval_cases j <;> rfl
      · exact BitVec.getLsbD_of_ge _ _ (by omega)
    rw [this]; symm; simp; omega

theorem reserved_statusAccept (st : Word) (h : st &&& ~~~statusMask = 0#64) :
    statusAccept st &&& ~~~statusMask = 0#64 := by
  refine reserved_zero_of_bits st _ (fun j _ hm => ?_) h
  rw [getLsbD_statusMask] at hm
  simp only [decide_eq_false_iff_not] at hm
  rw [getLsbD_statusAccept, if_neg (by omega), if_neg (by omega)]

theorem reserved_statusSuccess (st : Word) (h : st &&& ~~~statusMask = 0#64) :
    statusSuccess st &&& ~~~statusMask = 0#64 := by
  refine reserved_zero_of_bits st _ (fun j _ hm => ?_) h
  rw [getLsbD_statusMask] at hm
  simp only [decide_eq_false_iff_not] at hm
  rw [getLsbD_statusSuccess, if_neg (by omega), if_neg (by omega)]

theorem reserved_statusError (st : Word) (c : Cause) (h : st &&& ~~~statusMask = 0#64) :
    statusError st c &&& ~~~statusMask = 0#64 := by
  refine reserved_zero_of_bits st _ (fun j _ hm => ?_) h
  rw [getLsbD_statusMask] at hm
  simp only [decide_eq_false_iff_not] at hm
  rw [getLsbD_statusError, if_neg (by omega), if_neg (by omega), if_neg (by omega), if_neg (by omega)]

theorem reserved_statusDropped (st : Word) (h : st &&& ~~~statusMask = 0#64) :
    statusDropped st &&& ~~~statusMask = 0#64 := by
  refine reserved_zero_of_bits st _ (fun j _ hm => ?_) h
  rw [getLsbD_statusMask] at hm
  simp only [decide_eq_false_iff_not] at hm
  rw [getLsbD_statusDropped, if_neg (by omega)]

theorem reserved_statusW1C (st w : Word) (h : st &&& ~~~statusMask = 0#64) :
    statusW1C st w &&& ~~~statusMask = 0#64 := by
  refine reserved_zero_of_bits st _ (fun j _ hm => ?_) h
  rw [getLsbD_statusMask] at hm
  simp only [decide_eq_false_iff_not] at hm
  rw [getLsbD_statusW1C, if_neg (by omega)]

/-! ### CTRL -/

theorem getLsbD_ctrlWrite (ctrl w : Word) (j : Nat) :
    (ctrlWrite ctrl w).getLsbD j = if j = 0 then w.getLsbD 0 else ctrl.getLsbD j :=
  getLsbD_setBit _ _ _ _ (by omega)

@[simp] theorem fvalBit_ctrlWrite (ctrl w : Word) : fvalBit (ctrlWrite ctrl w) = w.getLsbD 0 := by
  simp only [fvalBit, getLsbD_ctrlWrite]; rfl

theorem reserved_ctrlWrite (ctrl w : Word) (h : ctrl &&& ~~~1#64 = 0#64) : ctrlWrite ctrl w &&& ~~~1#64 = 0#64 := by
  rw [← h]
  apply BitVec.eq_of_getLsbD_eq
  intro j hj
  rw [BitVec.getLsbD_and, BitVec.getLsbD_and, getLsbD_ctrlWrite]
  by_cases h0 : j = 0
  · subst h0; simp
  · simp [h0]

/-! ### Reserved codes -/

theorem reservedCode_eq_false (st : Word) :
    reservedCode st = false ↔ (errCauseField st).toNat ≤ 7 ∧ errClassField st ≠ 3#2 := by
  simp [reservedCode]; omega

end Sys2Proof.Machine
end

