-- ==== Sys2Proof/Laws/Step.lean ====
section
/-! SUPPORT. What an instruction, an agent's step and a step of the machine can do, said once: the inversion lemmas that
later proofs cite instead of unfolding `exec` and `step`. -/

namespace Sys2Proof.Machine

/-! ### Instructions -/

/-- A COMPUTE command is the completion step of its kind. -/
theorem exec_compute (k : FilterKind) (s : State) : exec (.compute k) s = completeKind k s := by
  cases k <;> rfl

theorem completeKind_busy (k : FilterKind) {s : State} (h : s.phase = .busy) :
    completeKind k s = .next (s.complete (evaluateKind prim k s.snap)) := by
  simp [completeKind, h]

theorem completeKind_idle (k : FilterKind) {s : State} (h : s.phase = .idle) : completeKind k s = .next s := by
  simp [completeKind, h]

/-- Every instruction answers a next state: none stops (60_exceptions.md R236). -/
theorem exec_answers_next (i : Instr) (s : State) : ∃ t, exec i s = .next t := by
  have hk : ∀ k, ∃ t, completeKind k s = .next t := fun k => by
    cases h : s.phase
    · exact ⟨_, completeKind_idle k h⟩
    · exact ⟨_, completeKind_busy k h⟩
  cases i with
  | wrCmd w => cases h : s.phase <;> simp [exec, execWrCmd, h]
  | _ => first | exact ⟨_, rfl⟩ | exact hk _

/-- Everything a bus transaction can do. -/
theorem exec_bus_cases {i : Instr} {s t : State} (hi : i.isBus = true) (h : exec i s = .next t) :
    (i.isRead = true ∧ ∃ w, t = s.respond (.data w)) ∨
    (∃ w, i = .wrCmd w ∧ s.phase = .idle ∧ t = (s.accept w).respond .ok) ∨
    (∃ w, i = .wrCmd w ∧ s.phase = .busy ∧ t = s.dropCommand.respond .ok) ∨
    (∃ w, i = .wrStatus w ∧ t = { s with status := statusW1C s.status w }.respond .ok) ∨
    (∃ w, i = .wrCtrl w ∧ t = { s with ctrl := ctrlWrite s.ctrl w }.respond .ok) ∨
    (∃ w, i = .wrSampleRate w ∧ t = { s with sampleRate := w }.respond .ok) ∨
    (∃ w, i = .wrFreq w ∧ t = { s with freq := w }.respond .ok) ∨
    (∃ w, i = .wrGainDb w ∧ t = { s with gainDb := w }.respond .ok) ∨
    (∃ w, i = .wrQ w ∧ t = { s with q := w }.respond .ok) ∨
    (i.isRead = false ∧ (∀ w, i ≠ .wrCmd w) ∧ (∀ w, i ≠ .wrStatus w) ∧ (∀ u, exec i u = .next (u.respond .ok)) ∧
      t = s.respond .ok) := by
  cases i with
  | wrCmd w =>
    cases hp : s.phase
    · right; left
      exact ⟨w, rfl, rfl, by simpa [exec, execWrCmd, hp] using h.symm⟩
    · right; right; left
      exact ⟨w, rfl, rfl, by simpa [exec, execWrCmd, hp] using h.symm⟩
  | computeLowpass | computeHighpass | computeBpskirt | computeBppeak | computeNotch | computeAllpass | computePeaking
  | computeLowshelf | computeHighshelf => cases hi
  | rdCmd | rdStatus | rdCtrl | rdSampleRate | rdFreq | rdGainDb | rdQ | rdB0 | rdB1 | rdB2 | rdA0 | rdA1 | rdA2
  | rdRsvd38 | rdRsvd70 | rdRsvd80 => cases h; exact Or.inl ⟨rfl, _, rfl⟩
  | wrB0 | wrB1 | wrB2 | wrA0 | wrA1 | wrA2 | wrRsvd38 | wrRsvd70 | wrRsvd80 =>
    cases h
    exact Or.inr (Or.inr (Or.inr (Or.inr (Or.inr (Or.inr (Or.inr (Or.inr (Or.inr
      ⟨rfl, fun _ => Instr.noConfusion, fun _ => Instr.noConfusion, fun _ => rfl, rfl⟩))))))))
  | _ => cases h; simp [Instr.isRead]

/-- A transaction touches none of the environment's fields but the answers, where it adds one. -/
theorem exec_bus_environment {i : Instr} {s t : State} (hi : i.isBus = true) (h : exec i s = .next t) :
    t.schedule = s.schedule ∧ t.faultMark = s.faultMark ∧ ∃ r, t.responses = r :: s.responses := by
  rcases exec_bus_cases hi h with ⟨-, w, rfl⟩ | ⟨w, -, -, rfl⟩ | ⟨w, -, -, rfl⟩ | ⟨w, -, rfl⟩ | ⟨w, -, rfl⟩ | ⟨w, -, rfl⟩ |
    ⟨w, -, rfl⟩ | ⟨w, -, rfl⟩ | ⟨w, -, rfl⟩ | ⟨-, -, -, -, rfl⟩ <;> simp

/-! ### The command word -/

theorem decodeCmd_ok {w : Word} {i : Instr} (h : decodeCmd w = .ok i) :
    ∃ k, kindOfWord w = some k ∧ i = .compute k := by
  unfold decodeCmd at h
  split at h
  · rename_i k hk; cases h; exact ⟨k, hk, rfl⟩
  · cases h

theorem decodeCmd_error {w : Word} {e : Reject} (h : decodeCmd w = .error e) :
    kindOfWord w = none ∧ e = .kindUnsupported := by
  unfold decodeCmd at h
  split at h
  · cases h
  · rename_i hk; cases h; exact ⟨hk, rfl⟩

/-! ### Agents -/

/-- In phase BUSY the engine's step is the completion step with the outcome of `Evaluate` on the snapshot. -/
theorem engineStep_busy {s : State} (h : s.phase = .busy) :
    engineStep s = .next (s.complete (evaluate prim s.snap)) := by
  unfold engineStep
  rw [h]
  cases hd : decodeCmd s.snap.kind with
  | ok i =>
    obtain ⟨k, hk, rfl⟩ := decodeCmd_ok hd
    simp [exec_compute, completeKind_busy k h, evaluate, hk]
  | error e =>
    obtain ⟨hk, -⟩ := decodeCmd_error hd
    simp [evaluate, hk, State.complete]

theorem engineStep_idle {s : State} (h : s.phase = .idle) : engineStep s = .next s := by
  simp [engineStep, h]

theorem busStep_ok {td : Descriptor} {data : Word} {i : Instr} (s : State) (h : decodeBus td data = .ok i) :
    busStep td data s = exec i s := by
  simp [busStep, h]

theorem busStep_error {td : Descriptor} {data : Word} {e : Reject} (s : State) (h : decodeBus td data = .error e) :
    busStep td data s = .next s.raiseAccessError := by
  simp [busStep, h]

/-! ### Steps -/

/-- With an event at hand a step is that event's. -/
theorem step_cons {s : State} {e : Event} {rest : List Event} (hn : reservedCode s.status = false)
    (hs : s.schedule = e :: rest) : step s = agentStep e { s with schedule := rest } := by
  simp [step, hn, State.nextEvent, hs]

/-- With none, the completion step of a command in flight. -/
theorem step_nil_busy {s : State} (hn : reservedCode s.status = false) (hs : s.schedule = []) (hp : s.phase = .busy) :
    step s = engineStep s := by
  simp [step, hn, State.nextEvent, hs, hp, agentStep]

/-- With none and no command in flight, nothing. -/
theorem step_nil_idle {s : State} (hn : reservedCode s.status = false) (hs : s.schedule = []) (hp : s.phase = .idle) :
    step s = .next s := by
  simp [step, hn, State.nextEvent, hs, hp]

/-- Everything a step can do. -/
theorem step_cases {s t : State} (h : step s = .next t) :
    reservedCode s.status = false ∧
    ((∃ td d rest i, s.schedule = .bus td d :: rest ∧ decodeBus td d = .ok i ∧
        exec i { s with schedule := rest } = .next t) ∨
     (∃ td d rest e, s.schedule = .bus td d :: rest ∧ decodeBus td d = .error e ∧
        t = { s with schedule := rest }.raiseAccessError) ∨
     (∃ rest, (s.schedule = .complete :: rest ∨ s.schedule = [] ∧ rest = []) ∧ s.phase = .busy ∧
        t = { s with schedule := rest }.complete (evaluate prim s.snap)) ∨
     (∃ rest, s.schedule = .complete :: rest ∧ s.phase = .idle ∧ t = { s with schedule := rest }) ∨
     (∃ rest, s.schedule = .reset :: rest ∧ t = { s with schedule := rest }.resetBlock) ∨
     (s.schedule = [] ∧ s.phase = .idle ∧ t = s)) := by
  unfold step at h
  cases hr : reservedCode s.status
  · refine ⟨rfl, ?_⟩
    rw [hr] at h
    cases hs : s.schedule with
    | nil =>
      cases hp : s.phase
      · simp [State.nextEvent, hs, hp] at h
        simp [h]
      · simp [State.nextEvent, hs, hp, agentStep, engineStep_busy hp] at h
        right; right; left
        refine ⟨[], by simp, rfl, ?_⟩
        rw [← h, ← hs, ← hp]
    | cons e rest =>
      cases e with
      | bus td d =>
        simp [State.nextEvent, hs, agentStep] at h
        cases hd : decodeBus td d with
        | ok i => left; exact ⟨td, d, rest, i, rfl, hd, by rw [← busStep_ok _ hd]; exact h⟩
        | error e =>
          right; left
          rw [busStep_error _ hd] at h
          exact ⟨td, d, rest, e, rfl, hd, by cases h; rfl⟩
      | complete =>
        simp [State.nextEvent, hs, agentStep] at h
        rcases hp : s.phase with _ | _
        · rw [engineStep_idle (by exact hp)] at h
          right; right; right; left
          exact ⟨rest, rfl, rfl, by rw [← hp]; cases h; rfl⟩
        · rw [engineStep_busy (by exact hp)] at h
          right; right; left
          exact ⟨rest, Or.inl rfl, rfl, by rw [← hp]; cases h; rfl⟩
      | reset =>
        simp [State.nextEvent, hs, agentStep] at h
        right; right; right; right; left
        exact ⟨rest, rfl, h.symm⟩
  · rw [hr] at h
    cases h

/-- A completion step changes none of the environment's fields. -/
@[simp] theorem complete_environment (s : State) (r : EvalResult) :
    (s.complete r).schedule = s.schedule ∧ (s.complete r).faultMark = s.faultMark ∧
      (s.complete r).responses = s.responses := by
  cases r <;> simp [State.complete]

/-- A completion step changes none of the registers the host writes. -/
theorem complete_operands (s : State) (r : EvalResult) :
    (s.complete r).ctrl = s.ctrl ∧ (s.complete r).sampleRate = s.sampleRate ∧ (s.complete r).freq = s.freq ∧
      (s.complete r).gainDb = s.gainDb ∧ (s.complete r).q = s.q := by
  cases r <;> simp [State.complete]

@[simp] theorem complete_phase (s : State) (r : EvalResult) : (s.complete r).phase = .idle := by
  cases r <;> simp [State.complete]

@[simp] theorem complete_snap (s : State) (r : EvalResult) : (s.complete r).snap = s.snap := by
  cases r <;> simp [State.complete]

end Sys2Proof.Machine
end

