-- ==== Sys2Proof/Laws/Evaluate.lean ====
section
/-! SUPPORT. What `Evaluate` (40_derivation.md R122, R130) answers, and what the completion step then leaves. -/

namespace Sys2Proof.Machine

/-! ### The checks -/

/-- No check of 2 to 6 fails exactly if the operand conditions hold. -/
theorem checkOperands_eq_none (n : Snap) (k : FilterKind) : n.checkOperands k = none ↔ n.Passes k := by
  have hp : n.Passes k ↔ n.fsValid = true ∧ n.qValid = true ∧ isFinite n.freqValue = true ∧
      (n.fval && !n.freqInRange) = false ∧ (FilterKind.gainAware k && !isFinite n.gainValue) = false := by
    constructor
    · rintro ⟨a, b, c, d, e, f⟩
      refine ⟨by simp [Snap.fsValid, Snap.fsValue, a, b], c, d, ?_, ?_⟩
      · cases h : n.fval
        · rfl
        · obtain ⟨e1, e2⟩ := e h
          simp [Snap.freqInRange, Snap.freqValue, Snap.fsValue, e1, e2]
      · cases h : FilterKind.gainAware k
        · rfl
        · simp [Snap.gainValue, f h]
    · rintro ⟨a, c, d, e, f⟩
      simp only [Snap.fsValid, Bool.and_eq_true] at a
      refine ⟨a.1, a.2, c, d, fun h => ?_, fun h => ?_⟩
      · simpa [h, Snap.freqInRange, Snap.freqValue, Snap.fsValue] using e
      · simpa [h, Snap.gainValue] using f
  rw [hp]
  unfold Snap.checkOperands
  cases n.fsValid <;> cases n.qValid <;> cases isFinite n.freqValue <;> cases (n.fval && !n.freqInRange) <;>
    cases (FilterKind.gainAware k && !isFinite n.gainValue) <;> simp

/-- Check 8. -/
theorem allFinite_iff (r : Coeffs) : r.allFinite = true ↔ r.Finite := by
  simp [Coeffs.allFinite, Coeffs.Finite, and_assoc]

/-- With the operand conditions, the outcome is the formula's, if it is finite. -/
theorem evaluateKind_passes {p : Prim} {k : FilterKind} {n : Snap} (h : n.Passes k) :
    evaluateKind p k n = if (formula p k n).allFinite then .computed (formula p k n) else .failed .resultNonfinite := by
  simp [evaluateKind, (checkOperands_eq_none n k).2 h]

/-- Whatever is computed is finite. -/
theorem finite_of_evaluateKind {p : Prim} {k : FilterKind} {n : Snap} {r : Coeffs} (h : evaluateKind p k n = .computed r) :
    r.Finite := by
  unfold evaluateKind at h
  split at h
  · cases h
  · split at h
    · rename_i hf; cases h; exact (allFinite_iff _).1 hf
    · cases h

theorem finite_of_evaluate {p : Prim} {n : Snap} {r : Coeffs} (h : evaluate p n = .computed r) : r.Finite := by
  unfold evaluate at h
  split at h
  · exact finite_of_evaluateKind h
  · cases h

/-! ### The completion step -/

/-- A status write that changes listed bits only keeps the reserved bits. -/
theorem sameReserved_of_bits (st st' : Word)
    (h : ∀ j < 64, statusMask.getLsbD j = false → st'.getLsbD j = st.getLsbD j) : SameReserved st st' := by
  apply BitVec.eq_of_getLsbD_eq
  intro j hj
  rw [BitVec.getLsbD_and, BitVec.getLsbD_and, BitVec.getLsbD_not]
  cases hm : statusMask.getLsbD j
  · rw [h j hj hm]
  · simp

theorem sameReserved_statusAccept (st : Word) : SameReserved st (statusAccept st) :=
  sameReserved_of_bits _ _ fun j _ hm => by
    rw [getLsbD_statusMask] at hm
    simp only [decide_eq_false_iff_not] at hm
    rw [getLsbD_statusAccept, if_neg (by omega), if_neg (by omega)]

theorem sameReserved_statusSuccess (st : Word) : SameReserved st (statusSuccess st) :=
  sameReserved_of_bits _ _ fun j _ hm => by
    rw [getLsbD_statusMask] at hm
    simp only [decide_eq_false_iff_not] at hm
    rw [getLsbD_statusSuccess, if_neg (by omega), if_neg (by omega)]

theorem sameReserved_statusError (st : Word) (c : Cause) : SameReserved st (statusError st c) :=
  sameReserved_of_bits _ _ fun j _ hm => by
    rw [getLsbD_statusMask] at hm
    simp only [decide_eq_false_iff_not] at hm
    rw [getLsbD_statusError, if_neg (by omega), if_neg (by omega), if_neg (by omega), if_neg (by omega)]

/-- A completion with results is `Succeeded`. -/
theorem complete_computed (s : State) (r : Coeffs) : Succeeded s (s.complete (.computed r)) r := by
  refine ⟨rfl, ?_, ?_, ?_, ?_, ?_, ?_, sameReserved_statusSuccess _⟩ <;> simp [State.complete, State.writeResults]

/-- A completion with a cause is `FailedWith` its code. -/
theorem complete_failed (s : State) (c : Cause) : FailedWith s (s.complete (.failed c)) (Cause.code c).toNat := by
  refine ⟨rfl, ?_, ?_, ?_, ?_, ?_, ?_, sameReserved_statusError _ _⟩ <;>
    simp [State.complete, State.raiseCommandError]
  cases c <;> rfl

end Sys2Proof.Machine
end

