-- ==== Sys2Proof/Laws/Legal.lean ====
section
/-! SUPPORT. The legal states (10_state.md R34): which updates keep them; and what a step from one does to STATUS. -/

namespace Sys2Proof.Machine

/-- A legal state holds no reserved code. -/
theorem State.Legal.reservedCode {s : State} (h : s.Legal) : reservedCode s.status = false := by
  rw [reservedCode_eq_false]
  refine ⟨h.cause_le, fun hc => ?_⟩
  have := h.class_le; rw [hc] at this; revert this; decide

/-! ### Runs, 70_reset_and_hazards.md R265 -/

theorem State.runToEnd_ended {s : State} (h : s.runEnded) (n : Nat) : s.runToEnd n = .next s := by
  cases n with
  | zero => rfl
  | succ n => simp only [State.runToEnd, if_pos h]

theorem State.runToEnd_step {s t : State} (h : ¬ s.runEnded) (ht : step s = .next t) (n : Nat) :
    s.runToEnd (n + 1) = t.runToEnd n := by
  simp only [State.runToEnd, if_neg h, ht]

theorem State.endObservation_faulted {s : State} (h : s.faultMark ≠ none) : s.endObservation = none :=
  if_neg fun h' => h h'.2

/-! ### Legal states -/

/-- Legality looks at the block's fields only. -/
theorem State.Legal.of_same {s t : State} (h : s.Legal) 
    (h1 : t.status = s.status) (h2 : t.ctrl = s.ctrl) (h3 : t.phase = s.phase) (h4 : t.b0 = s.b0) (h5 : t.b1 = s.b1)
    (h6 : t.b2 = s.b2) (h7 : t.a0 = s.a0) (h8 : t.a1 = s.a1) (h9 : t.a2 = s.a2) : t.Legal := by
  obtain ⟨a, b, c, d, e, f, g, i, j, k, l, m, n, o, p⟩ := h
  constructor <;> simpa [h1, h2, h3, h4, h5, h6, h7, h8, h9]

/-- A completion step keeps a state legal. -/
theorem State.Legal.complete {s : State} (h : s.Legal) (n : Snap) : (s.complete (evaluate prim n)).Legal := by
  cases he : evaluate prim n with
  | failed c =>
    obtain ⟨a, b, c', d, e, f, g, i, j, k, l, m, n, o, p⟩ := h
    constructor <;> simp [State.complete, State.raiseCommandError] <;>
      first | assumption | exact reserved_statusError _ _ f | skip
    · cases c <;> decide
    · cases c <;> decide
    · cases c <;> decide
    · cases c <;> decide
  | computed r =>
    have hf := finite_of_evaluate he
    obtain ⟨f0, f1, f2, f3, f4, f5⟩ := hf
    obtain ⟨a, b, c', d, e, f, g, i, j, k, l, m, n, o, p⟩ := h
    constructor <;> simp [State.complete, State.writeResults] <;>
      first | assumption | exact reserved_statusSuccess _ f | exact wordFinite_bits (by assumption) | skip
    all_goals decide

/-- An accept step keeps a state legal. -/
theorem State.Legal.accept {s : State} (h : s.Legal) (w) : (s.accept w).Legal := by
  obtain ⟨a, b, c', d, e, f, g, i, j, k, l, m, n, o, p⟩ := h
  constructor <;> simp <;> first | assumption | exact reserved_statusAccept _ f | skip
  all_goals decide

/-- What a step does to STATUS. -/
theorem step_status {s t : State} (hl : s.Legal) (h : step s = .next t) :
    (t.status = s.status ∧
      (∀ td w rest, s.schedule = .bus td w :: rest →
        decodeBus td w ≠ .ok (.wrCmd w) ∧ decodeBus td w ≠ .ok (.wrStatus w)) ∧
      ∀ rest, s.schedule ≠ .reset :: rest) ∨
    (∃ td w rest, s.schedule = .bus td w :: rest ∧ decodeBus td w = .ok (.wrCmd w) ∧ busyBit s.status = false ∧
      t.status = statusAccept s.status) ∨
    (∃ td w rest, s.schedule = .bus td w :: rest ∧ decodeBus td w = .ok (.wrCmd w) ∧ busyBit s.status = true ∧
      t.status = statusDropped s.status) ∨
    (∃ td w rest, s.schedule = .bus td w :: rest ∧ decodeBus td w = .ok (.wrStatus w) ∧
      t.status = statusW1C s.status w) ∨
    ((∃ rest, s.schedule = .complete :: rest ∨ s.schedule = []) ∧ busyBit s.status = true ∧
      ((∃ c, evaluate prim s.snap = .failed c ∧ t.status = statusError s.status c) ∨
        ∃ r, evaluate prim s.snap = .computed r ∧ t.status = statusSuccess s.status)) ∨
    ((∃ rest, s.schedule = .reset :: rest) ∧ t.status = 0#64) := by
  obtain ⟨-, h⟩ := step_cases h
  have hbusy := hl.busy_iff
  have hidle : s.phase = .idle → busyBit s.status = false := by
    intro hp; cases hb : busyBit s.status
    · rfl
    · rw [hbusy.1 hb] at hp; cases hp
  rcases h with ⟨td, d, rest, i, hs, hd, he⟩ | ⟨td, d, rest, e, hs, hd, rfl⟩ | ⟨rest, hs, hp, rfl⟩ |
    ⟨rest, hs, hp, rfl⟩ | ⟨rest, hs, rfl⟩ | ⟨hs, hp, rfl⟩
  · have key : ∀ w, (i = .wrCmd w ∨ i = .wrStatus w) → d = w := by
      rintro w hw
      obtain ⟨h4, h5⟩ := (decodeBus_ok hd).2.2.2
      rcases hw with rfl | rfl <;>
      · simp only [encode, encodeWrite, Encoding.bus.injEq] at h5
        have : td.we = true := by
          have : Instr.isRead _ = !td.we := h4
          simpa [Instr.isRead] using this
        rw [this] at h5; exact h5.2.symm
    have no : (∀ w, i ≠ .wrCmd w) → (∀ w, i ≠ .wrStatus w) →
        (∀ td w rest, s.schedule = .bus td w :: rest →
          decodeBus td w ≠ .ok (.wrCmd w) ∧ decodeBus td w ≠ .ok (.wrStatus w)) ∧
        ∀ rest, s.schedule ≠ .reset :: rest := by
      intro h1 h2
      refine ⟨fun td' w rest' h' => ?_, fun rest' h' => by rw [hs] at h'; cases h'⟩
      rw [hs] at h'; cases h'
      rw [hd]
      exact ⟨fun hc => h1 d (by injection hc), fun hc => h2 d (by injection hc)⟩
    rcases exec_bus_cases (decodeBus_ok hd).2.2.1 he with ⟨hr, w, rfl⟩ | ⟨w, rfl, hp, rfl⟩ |
      ⟨w, rfl, hp, rfl⟩ | ⟨w, rfl, rfl⟩ | ⟨w, rfl, rfl⟩ | ⟨w, rfl, rfl⟩ |
      ⟨w, rfl, rfl⟩ | ⟨w, rfl, rfl⟩ | ⟨w, rfl, rfl⟩ | ⟨-, hn, hn2, hid, rfl⟩
    · exact Or.inl ⟨rfl, no (fun w hw => by rw [hw] at hr; cases hr) (fun w hw => by rw [hw] at hr; cases hr)⟩
    · have := key w (by simp); subst this
      exact Or.inr (Or.inl ⟨td, d, rest, hs, hd, hidle hp, rfl⟩)
    · have := key w (by simp); subst this
      exact Or.inr (Or.inr (Or.inl ⟨td, d, rest, hs, hd, hbusy.2 hp, rfl⟩))
    · have := key w (by simp); subst this
      exact Or.inr (Or.inr (Or.inr (Or.inl ⟨td, d, rest, hs, hd, rfl⟩)))
    all_goals first | exact Or.inl ⟨rfl, no hn hn2⟩ | exact Or.inl ⟨rfl, no (by simp) (by simp)⟩
  · refine Or.inl ⟨rfl, fun td' w rest' h' => ?_, fun rest' h' => by rw [hs] at h'; cases h'⟩
    rw [hs] at h'; cases h'; rw [hd]; simp
  · refine Or.inr (Or.inr (Or.inr (Or.inr (Or.inl ⟨⟨rest, ?_⟩, hbusy.2 hp, ?_⟩))))
    · rcases hs with hs | ⟨hs, -⟩
      · exact Or.inl hs
      · exact Or.inr hs
    · cases he : evaluate prim s.snap with
      | failed c => exact Or.inl ⟨c, rfl, rfl⟩
      | computed r => exact Or.inr ⟨r, rfl, rfl⟩
  · exact Or.inl ⟨rfl, fun _ _ _ h' => (by rw [hs] at h'; cases h'), fun _ h' => (by rw [hs] at h'; cases h')⟩
  · exact Or.inr (Or.inr (Or.inr (Or.inr (Or.inr ⟨⟨rest, hs⟩, rfl⟩))))
  · exact Or.inl ⟨rfl, fun _ _ _ h' => (by rw [hs] at h'; cases h'), fun _ h' => (by rw [hs] at h'; cases h')⟩

end Sys2Proof.Machine
end

