-- ==== Sys2Proof/Laws/PerInstr.lean ====
section
/-! SUPPORT. Statements about every instruction as syntax, one lemma per constructor.

`EncodesAdmitted`: a well-formed instruction is carried by an admitted transaction (30_encoding.md R81) of its own
direction, a read with no data, or by a command word of 0 to 8 (R82, R83). -/

namespace Sys2Proof.Laws.EncodesAdmitted

/-- The instruction, if it is well formed, is carried by an admitted transaction or by a command word at most 8. -/
def Statement (i : Instr) : Prop :=
  i.wellFormed = true →
    match encode i with
    | .bus td data => i.isBus = true ∧ td.admitted = true ∧ td.we = !i.isRead ∧ (td.we = false → data = 0#64)
    | .cmd w => i.isBus = false ∧ w.toNat ≤ 8

/-- An offset of a row `RSVD_70` is a multiple of 8. -/
theorem aligned_of_isRsvd70 {off : Offset} (h : Offset.isRsvd70 off = true) : off.extractLsb' 0 3 = 0#3 := by
  revert off; decide +kernel

/-- An offset of a row `RSVD_80` is a multiple of 8. -/
theorem aligned_of_isRsvd80 {off : Offset} (h : Offset.isRsvd80 off = true) : off.extractLsb' 0 3 = 0#3 := by
  revert off; decide +kernel

/-- A read at an aligned offset. -/
theorem of_read {i : Instr} (off : Offset) (he : encode i = encodeRead off) (hb : i.isBus = true)
    (hr : i.isRead = true) (ha : i.wellFormed = true → off.extractLsb' 0 3 = 0#3) : Statement i := by
  intro hw
  rw [he]
  simp [encodeRead, admittedTd, Descriptor.admitted, ha hw, hb, hr]

/-- A write at an aligned offset. -/
theorem of_write {i : Instr} (off : Offset) (w : Word) (he : encode i = encodeWrite off w) (hb : i.isBus = true)
    (hr : i.isRead = false) (ha : i.wellFormed = true → off.extractLsb' 0 3 = 0#3) : Statement i := by
  intro hw
  rw [he]
  simp [encodeWrite, admittedTd, Descriptor.admitted, ha hw, hb, hr]

theorem computeLowpass : Statement .computeLowpass := fun _ => ⟨rfl, by decide⟩
theorem computeHighpass : Statement .computeHighpass := fun _ => ⟨rfl, by decide⟩
theorem computeBpskirt : Statement .computeBpskirt := fun _ => ⟨rfl, by decide⟩
theorem computeBppeak : Statement .computeBppeak := fun _ => ⟨rfl, by decide⟩
theorem computeNotch : Statement .computeNotch := fun _ => ⟨rfl, by decide⟩
theorem computeAllpass : Statement .computeAllpass := fun _ => ⟨rfl, by decide⟩
theorem computePeaking : Statement .computePeaking := fun _ => ⟨rfl, by decide⟩
theorem computeLowshelf : Statement .computeLowshelf := fun _ => ⟨rfl, by decide⟩
theorem computeHighshelf : Statement .computeHighshelf := fun _ => ⟨rfl, by decide⟩
theorem rdCmd : Statement .rdCmd := of_read 0x00#8 rfl rfl rfl fun _ => rfl
theorem wrCmd (w : Word) : Statement (.wrCmd w) := of_write 0x00#8 w rfl rfl rfl fun _ => rfl
theorem rdStatus : Statement .rdStatus := of_read 0x08#8 rfl rfl rfl fun _ => rfl
theorem wrStatus (w : Word) : Statement (.wrStatus w) := of_write 0x08#8 w rfl rfl rfl fun _ => rfl
theorem rdCtrl : Statement .rdCtrl := of_read 0x10#8 rfl rfl rfl fun _ => rfl
theorem wrCtrl (w : Word) : Statement (.wrCtrl w) := of_write 0x10#8 w rfl rfl rfl fun _ => rfl
theorem rdSampleRate : Statement .rdSampleRate := of_read 0x18#8 rfl rfl rfl fun _ => rfl
theorem wrSampleRate (w : Word) : Statement (.wrSampleRate w) := of_write 0x18#8 w rfl rfl rfl fun _ => rfl
theorem rdFreq : Statement .rdFreq := of_read 0x20#8 rfl rfl rfl fun _ => rfl
theorem wrFreq (w : Word) : Statement (.wrFreq w) := of_write 0x20#8 w rfl rfl rfl fun _ => rfl
theorem rdGainDb : Statement .rdGainDb := of_read 0x28#8 rfl rfl rfl fun _ => rfl
theorem wrGainDb (w : Word) : Statement (.wrGainDb w) := of_write 0x28#8 w rfl rfl rfl fun _ => rfl
theorem rdQ : Statement .rdQ := of_read 0x30#8 rfl rfl rfl fun _ => rfl
theorem wrQ (w : Word) : Statement (.wrQ w) := of_write 0x30#8 w rfl rfl rfl fun _ => rfl
theorem rdB0 : Statement .rdB0 := of_read 0x40#8 rfl rfl rfl fun _ => rfl
theorem wrB0 (w : Word) : Statement (.wrB0 w) := of_write 0x40#8 w rfl rfl rfl fun _ => rfl
theorem rdB1 : Statement .rdB1 := of_read 0x48#8 rfl rfl rfl fun _ => rfl
theorem wrB1 (w : Word) : Statement (.wrB1 w) := of_write 0x48#8 w rfl rfl rfl fun _ => rfl
theorem rdB2 : Statement .rdB2 := of_read 0x50#8 rfl rfl rfl fun _ => rfl
theorem wrB2 (w : Word) : Statement (.wrB2 w) := of_write 0x50#8 w rfl rfl rfl fun _ => rfl
theorem rdA0 : Statement .rdA0 := of_read 0x58#8 rfl rfl rfl fun _ => rfl
theorem wrA0 (w : Word) : Statement (.wrA0 w) := of_write 0x58#8 w rfl rfl rfl fun _ => rfl
theorem rdA1 : Statement .rdA1 := of_read 0x60#8 rfl rfl rfl fun _ => rfl
theorem wrA1 (w : Word) : Statement (.wrA1 w) := of_write 0x60#8 w rfl rfl rfl fun _ => rfl
theorem rdA2 : Statement .rdA2 := of_read 0x68#8 rfl rfl rfl fun _ => rfl
theorem wrA2 (w : Word) : Statement (.wrA2 w) := of_write 0x68#8 w rfl rfl rfl fun _ => rfl
theorem rdRsvd38 : Statement .rdRsvd38 := of_read 0x38#8 rfl rfl rfl fun _ => rfl
theorem wrRsvd38 (w : Word) : Statement (.wrRsvd38 w) := of_write 0x38#8 w rfl rfl rfl fun _ => rfl
theorem rdRsvd70 (off : Offset) : Statement (.rdRsvd70 off) := of_read off rfl rfl rfl aligned_of_isRsvd70
theorem wrRsvd70 (off : Offset) (w : Word) : Statement (.wrRsvd70 off w) :=
  of_write off w rfl rfl rfl aligned_of_isRsvd70
theorem rdRsvd80 (off : Offset) : Statement (.rdRsvd80 off) := of_read off rfl rfl rfl aligned_of_isRsvd80
theorem wrRsvd80 (off : Offset) (w : Word) : Statement (.wrRsvd80 off w) :=
  of_write off w rfl rfl rfl aligned_of_isRsvd80

end Sys2Proof.Laws.EncodesAdmitted
end

