-- ==== Sys2Proof/Laws/Pow10.lean ====
section
/-! SUPPORT. The enclosure of the power of ten (Machine/Prim.lean). -/

namespace Sys2Proof.Machine

/-- One square root: from bounds of `S * 10 ^ y` to bounds of `S * 10 ^ ((y + b) / 2)`, `b` a bit. -/
theorem tenthRoot_near {S t b : Nat} {y e : ℝ} (hS : 0 < S) (hb : b < 2) (hSt : S ≤ t) (he : 0 ≤ e)
    (h1 : (t : ℝ) ≤ S * (10 : ℝ) ^ y) (h2 : S * (10 : ℝ) ^ y ≤ t + e) :
    S ≤ Nat.sqrt (t * 10 ^ b * S) ∧ (Nat.sqrt (t * 10 ^ b * S) : ℝ) ≤ S * (10 : ℝ) ^ ((y + b) / 2) ∧
      S * (10 : ℝ) ^ ((y + b) / 2) ≤ Nat.sqrt (t * 10 ^ b * S) + (2 * e + 1) := by
  have hS' : (0 : ℝ) < S := by exact_mod_cast hS
  have hSt' : (S : ℝ) ≤ t := by exact_mod_cast hSt
  have hsq : (S * (10 : ℝ) ^ ((y + b) / 2)) ^ 2 = S * (10 : ℝ) ^ y * 10 ^ b * S := by
    rw [mul_pow, ← Real.rpow_natCast ((10 : ℝ) ^ ((y + b) / 2)), ← Real.rpow_mul (by norm_num),
      show (y + b) / 2 * (2 : ℕ) = y + b by push_cast; ring, Real.rpow_add (by norm_num), Real.rpow_natCast]
    ring
  have hT0 : 0 ≤ S * (10 : ℝ) ^ ((y + b) / 2) := by positivity
  generalize S * (10 : ℝ) ^ ((y + b) / 2) = T' at *
  generalize S * (10 : ℝ) ^ y = T at *
  have hr1 : ((Nat.sqrt (t * 10 ^ b * S) : ℕ) : ℝ) ^ 2 ≤ t * 10 ^ b * S := by
    exact_mod_cast Nat.sqrt_le' (t * 10 ^ b * S)
  have hr2 : (t : ℝ) * 10 ^ b * S < ((Nat.sqrt (t * 10 ^ b * S) : ℕ) + 1) ^ 2 := by
    exact_mod_cast Nat.lt_succ_sqrt' (t * 10 ^ b * S)
  have hr3 : S ≤ Nat.sqrt (t * 10 ^ b * S) := by
    rw [Nat.le_sqrt]
    refine Nat.mul_le_mul_right S (hSt.trans (Nat.le_mul_of_pos_right t (by positivity)))
  refine ⟨hr3, ?_, ?_⟩
  · refine le_of_sq_le_sq ?_ hT0
    rw [hsq]
    refine hr1.trans ?_
    have : (0 : ℝ) ≤ 10 ^ b * S := by positivity
    nlinarith
  · have hr3' : (S : ℝ) ≤ (Nat.sqrt (t * 10 ^ b * S) : ℕ) := by exact_mod_cast hr3
    generalize ((Nat.sqrt (t * 10 ^ b * S) : ℕ) : ℝ) = q at *
    -- the new error
    have hc : (10 : ℝ) ^ b * S ≤ 4 * (q + 1) := by
      interval_cases b
      · norm_num; linarith
      · have h9 : (3 * (S : ℝ)) ^ 2 ≤ (q + 1) ^ 2 := by nlinarith
        have := le_of_sq_le_sq h9 (by linarith)
        norm_num; linarith
    refine le_of_sq_le_sq ?_ (by linarith)
    rw [hsq]
    have : T * 10 ^ b * S ≤ (t + e) * (10 ^ b * S) := by
      rw [mul_assoc]; exact mul_le_mul_of_nonneg_right h2 (by positivity)
    nlinarith [mul_le_mul_of_nonneg_left hc he]

theorem tenthRoots_near : ∀ (n r t : Nat) (y e : ℝ), r < 2 ^ n → 2 ^ 256 ≤ t → 0 ≤ e →
    (t : ℝ) ≤ (2 ^ 256 : ℕ) * (10 : ℝ) ^ y → (2 ^ 256 : ℕ) * (10 : ℝ) ^ y ≤ t + e →
    2 ^ 256 ≤ tenthRoots n r t ∧ (tenthRoots n r t : ℝ) ≤ (2 ^ 256 : ℕ) * (10 : ℝ) ^ ((y + r) / 2 ^ n) ∧
      (2 ^ 256 : ℕ) * (10 : ℝ) ^ ((y + r) / 2 ^ n) ≤ tenthRoots n r t + (2 ^ n * (e + 1) - 1)
  | 0, r, t, y, e, hr, ht, he, h1, h2 => by
    have : r = 0 := by omega
    subst this
    simp only [tenthRoots, Nat.cast_zero, add_zero, pow_zero, div_one]
    exact ⟨ht, h1, by linarith⟩
  | n + 1, r, t, y, e, hr, ht, he, h1, h2 => by
    obtain ⟨a, b, c⟩ := tenthRoot_near (Nat.two_pow_pos 256) (Nat.mod_lt r (by norm_num)) ht he h1 h2
    have ih := tenthRoots_near n (r / 2) _ _ _ (by rw [pow_succ] at hr; omega) a (by linarith) b c
    have hy : ((y + (r % 2 : ℕ)) / 2 + (r / 2 : ℕ)) / 2 ^ n = (y + r) / 2 ^ (n + 1) := by
      have : (r : ℝ) = (r % 2 : ℕ) + 2 * (r / 2 : ℕ) := by exact_mod_cast (Nat.mod_add_div r 2).symm
      rw [this, pow_succ]
      field_simp
      ring
    have hE : (2 : ℝ) ^ n * (2 * e + 1 + 1) - 1 = 2 ^ (n + 1) * (e + 1) - 1 := by rw [pow_succ]; ring
    rw [hy, hE] at ih
    simp only [tenthRoots, forceNat_eq, isqrt_eq]
    exact ih

/-- The bounds of `10^(r / 2^112)`. -/
theorem pow10Frac_near {r : Nat} (hr : r < 2 ^ 112) :
    2 ^ 256 ≤ (pow10Frac r).1 ∧ (pow10Frac r).2 ≤ (pow10Frac r).1 + 2 ^ 112 ∧
      ((pow10Frac r).1 : ℝ) ≤ (2 ^ 256 : ℕ) * (10 : ℝ) ^ ((r : ℝ) / 2 ^ 112) ∧
      (2 ^ 256 : ℕ) * (10 : ℝ) ^ ((r : ℝ) / 2 ^ 112) ≤ (pow10Frac r).2 := by
  unfold pow10Frac
  split
  · rename_i h; subst h
    refine ⟨le_rfl, Nat.le_add_right _ _, ?_, ?_⟩ <;>
      rw [Nat.cast_zero, zero_div, Real.rpow_zero, mul_one]
  · simp only [forceNat_eq]
    obtain ⟨a, b, c⟩ := tenthRoots_near 112 r (2 ^ 256) 0 0 hr le_rfl le_rfl
      (by rw [Real.rpow_zero, mul_one]) (by rw [Real.rpow_zero, mul_one, add_zero])
    rw [zero_add] at b c
    refine ⟨a, le_rfl, b, c.trans ?_⟩
    push_cast
    norm_num

/-- The candidates for `10^(I + r / 2^112)` are faithful. -/
theorem pow10Bracket_faithful (I : Int) {r : Nat} (hr : r < 2 ^ 112) (other : Bool) :
    FaithfulMag ((10 : ℝ) ^ ((I : ℝ) + (r : ℝ) / 2 ^ 112) * 2 ^ 1074) ((pow10Bracket I r).pick other) := by
  obtain ⟨h1, h2, h3, h4⟩ := pow10Frac_near hr
  have hS : 0 < 2 ^ 256 := Nat.two_pow_pos 256
  have hsep : 2 ^ 53 * 2 ^ 112 < 2 ^ 256 := by norm_num
  rw [Real.rpow_add (by norm_num)]
  unfold pow10Bracket
  generalize pow10Frac r = p at *
  generalize (10 : ℝ) ^ ((r : ℝ) / 2 ^ 112) = F at *
  generalize 2 ^ 256 = S at *
  have hp1 : 0 < p.1 := by omega
  have hwidth : 2 ^ 53 * (p.2 - p.1) < p.1 := by
    have : p.2 - p.1 ≤ 2 ^ 112 := by omega
    calc 2 ^ 53 * (p.2 - p.1) ≤ 2 ^ 53 * 2 ^ 112 := Nat.mul_le_mul_left _ this
      _ < p.1 := by omega
  have hrel : ∀ K, 0 < K → 2 ^ 53 * (p.2 * K - p.1 * K) < p.1 * K := fun K hK => by
    rw [← Nat.sub_mul, ← mul_assoc]; exact Nat.mul_lt_mul_of_pos_right hwidth hK
  have hS' : (0 : ℝ) < S := by exact_mod_cast hS
  cases I with
  | ofNat i =>
    have hK : 0 < 10 ^ i * 2 ^ 1074 := by positivity
    have e1 : (10 : ℝ) ^ ((Int.ofNat i : ℤ) : ℝ) = ((10 ^ i : ℕ) : ℝ) := by
      simp
    have hK' : (0 : ℝ) ≤ ((10 ^ i * 2 ^ 1074 : ℕ) : ℝ) := Nat.cast_nonneg _
    have e2 : ((10 ^ i : ℕ) : ℝ) * F * 2 ^ 1074 * S = S * F * ((10 ^ i * 2 ^ 1074 : ℕ) : ℝ) := by push_cast; ring
    simp only
    rw [mul_assoc p.1, mul_assoc p.2, e1]
    refine bracketOf_faithful hS (Nat.mul_pos hp1 hK) ?_ ?_ (sep_of_relative (hrel _ hK)) other
    · rw [e2, Nat.cast_mul p.1]; exact mul_le_mul_of_nonneg_right h3 hK'
    · rw [e2, Nat.cast_mul p.2]; exact mul_le_mul_of_nonneg_right h4 hK'
  | negSucc i =>
    have hK : 0 < 2 ^ 1074 := Nat.two_pow_pos _
    have hK' : (0 : ℝ) ≤ ((2 ^ 1074 : ℕ) : ℝ) := Nat.cast_nonneg _
    have e1 : (10 : ℝ) ^ ((Int.negSucc i : ℤ) : ℝ) * 10 ^ (i + 1) = 1 := by
      rw [Int.cast_negSucc, Real.rpow_neg (by norm_num), Real.rpow_natCast]
      exact inv_mul_cancel₀ (by positivity)
    have e2 : (10 : ℝ) ^ ((Int.negSucc i : ℤ) : ℝ) * F * 2 ^ 1074 * ((S * 10 ^ (i + 1) : ℕ) : ℝ) =
        S * F * ((2 ^ 1074 : ℕ) : ℝ) := by
      have : (10 : ℝ) ^ ((Int.negSucc i : ℤ) : ℝ) * F * 2 ^ 1074 * ((S * 10 ^ (i + 1) : ℕ) : ℝ) =
          S * F * 2 ^ 1074 * ((10 : ℝ) ^ ((Int.negSucc i : ℤ) : ℝ) * 10 ^ (i + 1)) := by
        push_cast; ring
      rw [this, e1]; push_cast; ring
    simp only
    refine bracketOf_faithful (by positivity) (Nat.mul_pos hp1 hK) ?_ ?_ (sep_of_relative (hrel _ hK)) other
    · rw [e2, Nat.cast_mul p.1]; exact mul_le_mul_of_nonneg_right h3 hK'
    · rw [e2, Nat.cast_mul p.2]; exact mul_le_mul_of_nonneg_right h4 hK'

/-- An operand of at least 2^-60 is a whole multiple of 2^-112. -/
theorem dvd_units {m : Nat} (h : 2 ^ 1014 ≤ units m) : 2 ^ 962 ∣ units m := by
  rcases mag_cases m with hm | ⟨e, f, he, hf, rfl⟩
  · exfalso
    rw [units_subnormal hm.le] at h
    have : (2 : ℕ) ^ 52 ≤ 2 ^ 1014 := Nat.pow_le_pow_right (by norm_num) (by norm_num)
    omega
  · rw [units_normal e f he hf] at h ⊢
    refine Dvd.dvd.mul_left (pow_dvd_pow 2 ?_) _
    by_contra hc
    have h1 : (2 ^ 52 + f) * 2 ^ (e - 1) < 2 ^ 53 * 2 ^ (e - 1) :=
      Nat.mul_lt_mul_of_pos_right (by omega) (Nat.two_pow_pos _)
    rw [← pow_add] at h1
    have h2 : (2 : ℕ) ^ (53 + (e - 1)) ≤ 2 ^ 1014 := Nat.pow_le_pow_right (by norm_num) (by omega)
    omega

/-- Integer and fraction of such an operand. -/
theorem pow10_split (neg : Bool) {m : Nat} (h : 2 ^ 1014 ≤ units m) :
    (((signedUnits neg m / 2 ^ 962) % 2 ^ 112).toNat < 2 ^ 112) ∧
    withSign neg (angle (units m)) = (((signedUnits neg m / 2 ^ 962) / 2 ^ 112 : ℤ) : ℝ) +
      (((signedUnits neg m / 2 ^ 962) % 2 ^ 112).toNat : ℝ) / 2 ^ 112 := by
  obtain ⟨k, hk⟩ := dvd_units h
  have hq : (0 : ℤ) < 2 ^ 962 := by positivity
  have hX : signedUnits neg m / 2 ^ 962 = if neg then -(k : ℤ) else k := by
    unfold signedUnits
    rw [hk]
    cases neg
    · simp only [Bool.false_eq_true, if_false]; push_cast; exact Int.mul_ediv_cancel_left _ hq.ne'
    · simp only [if_true]; push_cast; rw [← mul_neg]; exact Int.mul_ediv_cancel_left _ hq.ne'
  have hang : withSign neg (angle (units m)) = ((if neg then -(k : ℤ) else k : ℤ) : ℝ) / 2 ^ 112 := by
    unfold angle
    rw [hk, show (1074 : ℕ) = 962 + 112 from rfl, pow_add]
    have : (2 : ℝ) ^ 962 ≠ 0 := by positivity
    cases neg
    · simp only [withSign, Bool.false_eq_true, if_false]; push_cast; field_simp
    · simp only [withSign, if_true]; push_cast; field_simp
  rw [hX, hang]
  generalize (if neg then -(k : ℤ) else k : ℤ) = X
  have h0 : (0 : ℤ) ≤ X % 2 ^ 112 := Int.emod_nonneg _ (by norm_num)
  have h1 : X % 2 ^ 112 < 2 ^ 112 := Int.emod_lt_of_pos _ (by norm_num)
  refine ⟨by omega, ?_⟩
  have e : ((X % 2 ^ 112).toNat : ℝ) = ((X % 2 ^ 112 : ℤ) : ℝ) := by
    rw [← Int.cast_natCast, Int.toNat_of_nonneg h0]
  have hs : (X : ℝ) = ((X % 2 ^ 112 : ℤ) : ℝ) + 2 ^ 112 * ((X / 2 ^ 112 : ℤ) : ℝ) := by
    have hK : ∀ K : ℤ, (X : ℝ) = ((X % K : ℤ) : ℝ) + (K : ℝ) * ((X / K : ℤ) : ℝ) := fun K => by
      exact_mod_cast (Int.emod_add_mul_ediv X K).symm
    have := hK (2 ^ 112)
    rwa [Int.cast_pow, Int.cast_ofNat] at this
  rw [e, hs]
  field_simp
  ring

/-- `10^x` from 400 on is above every finite value, `10^-x` below the smallest. -/
theorem pow10_large {x : Nat} (h : 400 * 2 ^ 1074 ≤ x) (neg other : Bool) :
    FaithfulMag ((10 : ℝ) ^ withSign neg (angle x) * 2 ^ 1074)
      ((if neg then Bracket.mk 0 1 false else Bracket.mk maxMag magBound true).pick other) := by
  have hx : 400 ≤ angle x := by
    unfold angle
    rw [le_div_iff₀ (by positivity)]
    exact_mod_cast h
  have hbig : (2 : ℝ) ^ 1200 < (10 : ℝ) ^ angle x := by
    have h1 : (2 : ℝ) ^ 1200 < 10 ^ 400 := by
      rw [show (1200 : ℕ) = 3 * 400 from rfl, pow_mul]
      exact pow_lt_pow_left₀ (by norm_num) (by norm_num) (by norm_num)
    have h2 : (10 : ℝ) ^ (400 : ℕ) ≤ (10 : ℝ) ^ angle x := by
      rw [← Real.rpow_natCast]
      exact Real.rpow_le_rpow_of_exponent_le (by norm_num) (by exact_mod_cast hx)
    exact lt_of_lt_of_le h1 h2
  have hq : (0 : ℝ) < 2 ^ 1074 := by positivity
  cases neg
  · have hm : (units maxMag : ℝ) < (10 : ℝ) ^ angle x * 2 ^ 1074 := by
      have h1 : units maxMag < 2 ^ 53 * 2 ^ (2046 - 1) := by
        rw [show maxMag = 2 ^ 52 * 2046 + (2 ^ 52 - 1) by decide, units_normal _ _ (by norm_num) (by norm_num)]
        exact Nat.mul_lt_mul_of_pos_right (by decide) (Nat.two_pow_pos _)
      have h2 : (units maxMag : ℝ) < 2 ^ 1024 * 2 ^ 1074 := by
        have : (2 : ℝ) ^ 1024 * 2 ^ 1074 = 2 ^ 53 * 2 ^ (2046 - 1) := by rw [← pow_add, ← pow_add]
        rw [this]; exact_mod_cast h1
      have h3 : (2 : ℝ) ^ 1024 ≤ 2 ^ 1200 := pow_le_pow_right₀ (by norm_num) (by norm_num)
      exact h2.trans_le (mul_le_mul_of_nonneg_right (h3.trans hbig.le) hq.le)
    rcases pick_cases ⟨maxMag, magBound, true⟩ other with h | h <;>
      simp only [withSign, Bool.false_eq_true, if_false, h]
    · exact Or.inr (Or.inl ⟨by decide, hm, Or.inr rfl⟩)
    · exact Or.inr (Or.inr ⟨by decide, le_rfl, hm, Or.inr rfl⟩)
  · have hpos : 0 < (10 : ℝ) ^ (-angle x) * 2 ^ 1074 := by positivity
    have hlt : (10 : ℝ) ^ (-angle x) * 2 ^ 1074 < 1 := by
      rw [Real.rpow_neg (by norm_num), inv_mul_lt_iff₀ (by positivity), mul_one]
      exact lt_of_le_of_lt (pow_le_pow_right₀ (by norm_num) (by norm_num)) hbig
    rcases pick_cases ⟨0, 1, false⟩ other with h | h <;> simp only [withSign, if_true, h]
    · exact Or.inr (Or.inl ⟨by decide, by simpa using hpos, Or.inl (by simpa [units] using hlt)⟩)
    · exact Or.inr (Or.inr ⟨by decide, by decide, by simpa using hpos, Or.inl (by simpa [units] using hlt)⟩)

end Sys2Proof.Machine
end

