-- ==== Sys2Proof/Laws/Primitives.lean ====
section
/-! SUPPORT. The three primitives of a finite nonzero operand are faithfully rounded (40_derivation.md R103). -/

namespace Sys2Proof.Machine

/-- The cosine of a finite value is that of its magnitude. -/
theorem cos_angle (neg : Bool) (m : Fin magBound) :
    Real.cos ((F64.fin neg m).toRat : ℝ) = Real.cos (angle (units m.val)) := by
  rw [toRat_fin]; cases neg
  · rfl
  · show Real.cos (-(units m.val : ℝ) / 2 ^ 1074) = _
    rw [neg_div, Real.cos_neg]; rfl

/-- The sine of a finite value is that of its magnitude, with its sign. -/
theorem sin_angle (neg : Bool) (m : Fin magBound) :
    Real.sin ((F64.fin neg m).toRat : ℝ) = withSign neg (Real.sin (angle (units m.val))) := by
  rw [toRat_fin]; cases neg
  · rfl
  · show Real.sin (-(units m.val : ℝ) / 2 ^ 1074) = _
    rw [neg_div, Real.sin_neg]; rfl

/-- A finite value that is not 0 has a positive magnitude. -/
theorem mag_pos {neg : Bool} {m : Fin magBound} (h : (F64.fin neg m).toRat ≠ 0) : 0 < m.val := by
  rcases Nat.eq_zero_or_pos m.val with h0 | h0
  · exfalso; apply h; cases neg <;> simp [F64.toRat, signedUnits, h0, units]
  · exact h0

/-- A cosine known by its versine rounds faithfully, if it is not too small. -/
theorem roundCosine_faithful {x v : Nat} {w : ℝ} (other : Bool)
    (h : |(v : ℝ) - (2 ^ trigBits x : ℕ) * (1 - w)| ≤ trigRadius x) (hw : 1 ≤ |w| * 2 ^ 1100) :
    Faithful w (roundCosine v (trigRadius x) (2 ^ trigBits x) other) := by
  obtain ⟨y, hy⟩ : ∃ y, y = roundCosine v (trigRadius x) (2 ^ trigBits x) other := ⟨_, rfl⟩
  rw [← hy]
  unfold roundCosine at hy
  rw [abs_sub_comm] at h
  rcases Nat.lt_or_ge (2 ^ trigBits x) v with hv | hv
  rotate_left
  · rw [if_pos hv] at hy
    rw [hy]
    refine roundBall_faithful other ?_ hw
    have e : withSign false ((2 ^ trigBits x - v : ℕ) : ℝ) - (2 ^ trigBits x : ℕ) * w =
        (2 ^ trigBits x : ℕ) * (1 - w) - v := by
      simp only [withSign, Bool.false_eq_true, if_false]
      rw [Nat.cast_sub hv]
      ring
    rw [e]; exact h
  · rw [if_neg (by omega)] at hy
    rw [hy]
    refine roundBall_faithful other ?_ hw
    have e : withSign true ((v - 2 ^ trigBits x : ℕ) : ℝ) - (2 ^ trigBits x : ℕ) * w =
        (2 ^ trigBits x : ℕ) * (1 - w) - v := by
      simp only [withSign, if_true]
      rw [Nat.cast_sub hv.le]
      ring
    rw [e]; exact h

/-- `Cos64` of a nonzero magnitude, where the cosine is not too small. -/
theorem cosFinite_faithful {m : Nat} (hm0 : 0 < m) (other : Bool) (hw : 1 ≤ |Real.cos (angle (units m))| * 2 ^ 1100) :
    Faithful (Real.cos (angle (units m))) (cosFinite other m) := by
  obtain ⟨y, hy⟩ : ∃ y, y = cosFinite other m := ⟨_, rfl⟩
  rw [← hy]
  unfold cosFinite at hy
  rw [if_neg hm0.ne'] at hy
  refine Or.elim (em (trigIsSmall (units m) = true)) (fun h => ?_) (fun h => ?_)
  · rw [if_pos h] at hy; rw [hy]
    have := cos_small (units_pos hm0) h other
    have hs := angle_small h
    have hp := angle_pos (units_pos hm0)
    clear h hy
    have hc : 0 < Real.cos (angle (units m)) := by
      apply Real.cos_pos_of_mem_Ioo
      constructor <;> nlinarith [Real.pi_gt_three]
    have h2 : (0 : ℝ) < 2 ^ 1074 := by positivity
    have := this.faithful (mul_pos hc h2) false
    rwa [show withSign false (Real.cos (angle (units m)) * 2 ^ 1074) = Real.cos (angle (units m)) * 2 ^ 1074 from rfl, mul_div_assoc, div_self h2.ne', mul_one] at this
  · rw [if_neg h] at hy
    simp only [forceNat_eq] at hy
    have := roundCosine_faithful other (versineApprox_near (units m)) hw
    rw [← hy] at this; exact this

/-- `Sin64` of a nonzero magnitude, where the sine is not too small or the operand is. -/
theorem sinFinite_faithful {m : Nat} (hm0 : 0 < m) (hm : m < magBound) (other : Bool)
    (hw : 1 ≤ |Real.sin (angle (units m))| * 2 ^ 1100 ∨ trigIsSmall (units m) = true) :
    Faithful (Real.sin (angle (units m))) (sinFinite other m) := by
  obtain ⟨y, hy⟩ : ∃ y, y = sinFinite other m := ⟨_, rfl⟩
  rw [← hy]
  unfold sinFinite at hy
  rw [if_neg hm0.ne'] at hy
  refine Or.elim (em (trigIsSmall (units m) = true)) (fun h => ?_) (fun h => ?_)
  · rw [if_pos h] at hy; rw [hy]
    clear hw
    have := sin_small hm0 hm h other
    have hs := angle_small h
    have hp := angle_pos (units_pos hm0)
    clear h hy
    have hc : 0 < Real.sin (angle (units m)) := by
      apply Real.sin_pos_of_pos_of_lt_pi hp
      nlinarith [Real.pi_gt_three]
    have h2 : (0 : ℝ) < 2 ^ 1074 := by positivity
    have := this.faithful (mul_pos hc h2) false
    rwa [show withSign false (Real.sin (angle (units m)) * 2 ^ 1074) = Real.sin (angle (units m)) * 2 ^ 1074 from rfl, mul_div_assoc, div_self h2.ne', mul_one] at this
  · rw [if_neg h] at hy
    simp only [forceNat_eq] at hy
    have hw' := hw.resolve_right h
    clear h hw
    have hn := sineApprox_near (units m)
    generalize sineApprox (units m) = p at *
    obtain ⟨neg, s⟩ := p
    rw [hy]
    exact roundBall_faithful other hn hw'

/-- The sign of `Sin64` of a nonzero magnitude is that of the sine, a zero result included. -/
theorem sinFinite_sign {m : Nat} (hm0 : 0 < m) (other : Bool)
    (hw : 1 ≤ |Real.sin (angle (units m))| * 2 ^ 1100 ∨ trigIsSmall (units m) = true) :
    (sinFinite other m).sign = true ↔ Real.sin (angle (units m)) < 0 := by
  obtain ⟨y, hy⟩ : ∃ y, y = sinFinite other m := ⟨_, rfl⟩
  rw [← hy]
  unfold sinFinite at hy
  rw [if_neg hm0.ne'] at hy
  refine Or.elim (em (trigIsSmall (units m) = true)) (fun h => ?_) (fun h => ?_)
  · rw [if_pos h] at hy
    rw [hy, sign_ofMag]
    have hp := angle_pos (units_pos hm0)
    have hs := angle_small h
    clear h hy hw
    have : 0 < Real.sin (angle (units m)) := Real.sin_pos_of_pos_of_lt_pi hp (by nlinarith [Real.pi_gt_three])
    exact ⟨fun h => Bool.noConfusion h, fun h => absurd h (not_lt.2 this.le)⟩
  · rw [if_neg h] at hy
    simp only [forceNat_eq] at hy
    have hn := sineApprox_near (units m)
    generalize sineApprox (units m) = p at *
    obtain ⟨neg, s⟩ := p
    rw [hy]
    exact roundBall_sign other hn (hw.resolve_right h)

/-- `Pow10_64` of a finite operand has no sign: a zero result is +0. -/
theorem pow10Finite_sign (other neg : Bool) (m : Nat) : (pow10Finite other neg m).sign = false := by
  have : ∀ (a b c : Prop) [Decidable a] [Decidable b] [Decidable c] (k l n : Nat),
      (if a then one else if b then ofMag false k else if c then ofMag false l else ofMag false n).sign = false := by
    intro a b c _ _ _ k l n
    split
    · rfl
    split
    · exact sign_ofMag _ _
    split <;> exact sign_ofMag _ _
  exact this _ _ _ _ _ _

/-- Faithful rounding is odd. -/
theorem faithful_neg {v : ℝ} {y : F64} (h : Faithful v y) : Faithful (-v) (fneg y) := by
  have tr : ∀ z : F64, ((fneg z).toRat : ℝ) = -(z.toRat : ℝ) := by
    intro z; cases z with
    | nan => simp [fneg, F64.toRat]
    | inf b => simp [fneg, F64.toRat]
    | fin b m => cases b <;> simp [fneg, F64.toRat, signedUnits, neg_div]
  have trq : ∀ z : F64, (fneg z).toRat = -z.toRat := fun z => by exact_mod_cast tr z
  have fi : ∀ z : F64, isFinite (fneg z) = isFinite z := by intro z; cases z <;> rfl
  unfold Faithful at h ⊢
  cases y with
  | nan => exact h
  | inf b =>
    cases b
    · intro z hz
      have := h (fneg z) ((fi z).trans hz); rw [tr] at this; linarith
    · intro z hz
      have := h (fneg z) ((fi z).trans hz); rw [tr] at this; linarith
  | fin b m =>
    have e := tr (.fin b m)
    have eq' := trq (.fin b m)
    change ((F64.fin (!b) m).toRat : ℝ) = _ at e
    change (F64.fin (!b) m).toRat = _ at eq'
    show ((F64.fin (!b) m).toRat : ℝ) = -v ∨ _
    rcases h with h | ⟨h1, h2⟩
    · left; rw [e, h]
    · right
      refine ⟨fun z hz hc => h1 (fneg z) ((fi z).trans hz) (by rw [tr, hc, neg_neg]), ?_⟩
      rcases h2 with ⟨h2, h3⟩ | ⟨h2, h3⟩
      · right
        refine ⟨by rw [e]; linarith, fun z hz hv => ?_⟩
        have := h3 (fneg z) ((fi z).trans hz) (by rw [tr]; linarith)
        rw [trq] at this; rw [eq']; linarith
      · left
        refine ⟨by rw [e]; linarith, fun z hz hv => ?_⟩
        have := h3 (fneg z) ((fi z).trans hz) (by rw [tr]; linarith)
        rw [trq] at this; rw [eq']; linarith

/-- `Pow10_64` of a nonzero operand. -/
theorem pow10Finite_faithful {m : Nat} (hm0 : 0 < m) (neg other : Bool) :
    Faithful ((10 : ℝ) ^ withSign neg (angle (units m))) (pow10Finite other neg m) := by
  have h2 : (0 : ℝ) < 2 ^ 1074 := by positivity
  have hp : (0 : ℝ) < (10 : ℝ) ^ withSign neg (angle (units m)) := Real.rpow_pos_of_pos (by norm_num) _
  have key : ∀ k, FaithfulMag ((10 : ℝ) ^ withSign neg (angle (units m)) * 2 ^ 1074) k →
      Faithful ((10 : ℝ) ^ withSign neg (angle (units m))) (ofMag false k) := by
    intro k h
    have := h.faithful (mul_pos hp h2) false
    rwa [show ∀ v : ℝ, withSign false v = v from fun _ => rfl, mul_div_assoc, div_self h2.ne', mul_one] at this
  obtain ⟨y, hy⟩ : ∃ y, y = pow10Finite other neg m := ⟨_, rfl⟩
  rw [← hy]
  unfold pow10Finite at hy
  rw [if_neg hm0.ne'] at hy
  refine Or.elim (em (units m < 2 ^ 1014)) (fun h => ?_) (fun h => ?_)
  · rw [if_pos h] at hy; rw [hy]; exact key _ (pow10_small (units_pos hm0) h neg other)
  · rw [if_neg h] at hy
    refine Or.elim (em (400 * 2 ^ 1074 ≤ units m)) (fun h' => ?_) (fun h' => ?_)
    · rw [if_pos h'] at hy; rw [hy]; exact key _ (pow10_large h' neg other)
    · rw [if_neg h'] at hy; rw [hy]; refine key _ ?_
      obtain ⟨a, b⟩ := pow10_split neg (Nat.le_of_not_lt h)
      rw [b]
      exact pow10Bracket_faithful _ a other

/-- A value without sign is not below 0. -/
theorem ofMag_nonneg (k : Nat) : flt (ofMag false k) zero = false := by
  simp only [ofMag, forceNat_eq]
  split
  · simp [flt, zero, signedUnits]
    try exact Nat.zero_le _
  · rfl

end Sys2Proof.Machine
end

