-- ==== Sys2Proof/Tests/Slice0.lean ====
section
/-! SUPPORT. Tests. Expected results come from the spec: the words of 30_encoding.md to 42_host_access.md written out by
hand, and the vectors of 95_test_vectors.md, named in each comment. Then one witness for the hypotheses of each
statement of Certificates/Slice0/Obligations.lean that has any. -/

namespace Sys2Proof.Tests

open Sys2Proof.Machine

/-! ### Helpers -/

/-- The next state, if the step gives one. -/
def nextOf : Host.Outcome State Fault Refusal → Option State
  | .next t => some t
  | .fault _ => none
  | .refused _ => none

/-- The state after the instruction of these table bits. -/
def ran (nbits w : Nat) (s : State) : Option State := nextOf (step (s.withFetchWord nbits w))

/-- The latest answer after the instruction of these table bits. -/
def answer (nbits w : Nat) (s : State) : Option Response := (ran nbits w s).bind (fun t => t.responses.head?)

/-- The bits of a write: the descriptor, and the data word above it (30_encoding.md R80, R81). -/
def writeBits (td v : Nat) : Nat := v * 2 ^ 16 + td

/-- The operand bits of 95_test_vectors.md: `f`, `g`, `q`, `fs`, `FVAL`. -/
def snapOf (kind : Nat) (f g q fs : Word) (fval : Bool) : Snap :=
  { kind := BitVec.ofNat 64 kind, f := f, g := g, q := q, fs := fs, fval := fval }

/-- A state with a command in flight. -/
def busyWith (n : Snap) : State := { State.reset with phase := .busy, status := 1#64, snap := n }

/-- A state whose readable registers all differ. -/
def marked : State :=
  { State.reset with
    sampleRate := 0x18#64, freq := 0x20#64, gainDb := 0x28#64, q := 0x30#64, b0 := 0x40#64, b1 := 0x48#64
    b2 := 0x50#64, a0 := 0x58#64, a1 := 0x60#64, a2 := 0x68#64, status := 0x120E#64, ctrl := 1#64 }

/-! ### WellFormed: each check refuses an ill-formed term -/

theorem test_wellFormed_rdRsvd70 : (Instr.rdRsvd70 0x68#8).wellFormed = false ∧ (Instr.rdRsvd70 0x74#8).wellFormed = false ∧
    (Instr.rdRsvd70 0x78#8).wellFormed = true := by decide

theorem test_wellFormed_wrRsvd70 : (Instr.wrRsvd70 0x80#8 1#64).wellFormed = false ∧
    (Instr.wrRsvd70 0x70#8 1#64).wellFormed = true := by decide

theorem test_wellFormed_rdRsvd80 : (Instr.rdRsvd80 0x78#8).wellFormed = false ∧ (Instr.rdRsvd80 0x84#8).wellFormed = false ∧
    (Instr.rdRsvd80 0xF8#8).wellFormed = true := by decide

theorem test_wellFormed_wrRsvd80 : (Instr.wrRsvd80 0xF9#8 0#64).wellFormed = false ∧
    (Instr.wrRsvd80 0x80#8 0#64).wellFormed = true := by decide

/-! ### Decoding: every constructor, by the word of its row (42_host_access.md, 41_filter_kinds.md) -/

theorem test_decode_compute :
    [0, 1, 2, 3, 4, 5, 6, 7, 8].map (decodeTableWord 64) =
      [some .computeLowpass, some .computeHighpass, some .computeBpskirt, some .computeBppeak, some .computeNotch,
       some .computeAllpass, some .computePeaking, some .computeLowshelf, some .computeHighshelf] := by decide

theorem test_decode_reads :
    [0x3000, 0x3008, 0x3010, 0x3018, 0x3020, 0x3028, 0x3030].map (decodeTableWord 16) =
      [some .rdCmd, some .rdStatus, some .rdCtrl, some .rdSampleRate, some .rdFreq, some .rdGainDb, some .rdQ] := by decide

theorem test_decode_result_reads :
    [0x3040, 0x3048, 0x3050, 0x3058, 0x3060, 0x3068].map (decodeTableWord 16) =
      [some .rdB0, some .rdB1, some .rdB2, some .rdA0, some .rdA1, some .rdA2] := by decide

theorem test_decode_writes :
    [0xB000, 0xB008, 0xB010, 0xB018, 0xB020, 0xB028, 0xB030].map (fun td => decodeTableWord 80 (writeBits td 5)) =
      [some (.wrCmd 5#64), some (.wrStatus 5#64), some (.wrCtrl 5#64), some (.wrSampleRate 5#64), some (.wrFreq 5#64),
       some (.wrGainDb 5#64), some (.wrQ 5#64)] := by decide

theorem test_decode_result_writes :
    [0xB040, 0xB048, 0xB050, 0xB058, 0xB060, 0xB068].map (decodeTableWord 16) =
      [some (.wrB0 0#64), some (.wrB1 0#64), some (.wrB2 0#64), some (.wrA0 0#64), some (.wrA1 0#64),
       some (.wrA2 0#64)] := by decide

theorem test_decode_reserved :
    [0x3038, 0x3070, 0x3078, 0x3080, 0x30F8].map (decodeTableWord 16) =
      [some .rdRsvd38, some (.rdRsvd70 0x70#8), some (.rdRsvd70 0x78#8), some (.rdRsvd80 0x80#8),
       some (.rdRsvd80 0xF8#8)] ∧
    [0xB038, 0xB070, 0xB0F0].map (decodeTableWord 16) =
      [some (.wrRsvd38 0#64), some (.wrRsvd70 0x70#8 0#64), some (.wrRsvd80 0xF0#8 0#64)] := by decide

/-- 95 §2.9 and §2.11: what decodes to nothing. -/
theorem test_decode_refused :
    [0x2000, 0xA000, 0x0008, 0x4008, 0x3004, 0xB00C, 0x3009, 0x3108].map (decodeTableWord 16) =
      [none, none, none, none, none, none, none, none] ∧
    [9, 0x0000000100000000, 0x8000000000000000, 0xFFFFFFFFFFFFFFFF].map (decodeTableWord 64) =
      [none, none, none, none] := by decide

/-! ### Register transactions, 95 §2.10 and §2.11 -/

theorem test_reads_after_reset :
    [0x3000, 0x3008, 0x3010, 0x3018, 0x3020, 0x3040, 0x3038, 0x3078, 0x30F8].map (fun td => answer 16 td State.reset) =
      [some (.data 0#64), some (.data 0#64), some (.data 0#64), some (.data 0x40E7700000000000#64), some (.data 0#64),
       some (.data 0#64), some (.data 0#64), some (.data 0#64), some (.data 0#64)] := by decide

/-- Each read gives the register of its own offset. -/
theorem test_reads_own_register :
    [0x3018, 0x3020, 0x3028, 0x3030, 0x3040, 0x3048, 0x3050, 0x3058, 0x3060, 0x3068].map (fun td => answer 16 td marked) =
      [some (.data 0x18#64), some (.data 0x20#64), some (.data 0x28#64), some (.data 0x30#64), some (.data 0x40#64),
       some (.data 0x48#64), some (.data 0x50#64), some (.data 0x58#64), some (.data 0x60#64),
       some (.data 0x68#64)] := by decide

theorem test_read_status_ctrl : answer 16 0x3008 marked = some (.data 0x120E#64) ∧
    answer 16 0x3010 marked = some (.data 1#64) ∧ answer 16 0x3000 marked = some (.data 0#64) := by decide

theorem test_wrSampleRate_stores_nan :
    (ran 80 (writeBits 0xB018 0x7FF8000000000001) State.reset).map State.sampleRate =
      some 0x7FF8000000000001#64 := by decide

theorem test_wrFreq : (ran 80 (writeBits 0xB020 0x8000000000000000) State.reset).map State.freq =
    some 0x8000000000000000#64 := by decide

theorem test_wrGainDb : (ran 80 (writeBits 0xB028 0xC008000000000000) State.reset).map State.gainDb =
    some 0xC008000000000000#64 := by decide

theorem test_wrQ : (ran 80 (writeBits 0xB030 1) State.reset).map State.q = some 1#64 := by decide

theorem test_wrCtrl_keeps_bit_0 : (ran 80 (writeBits 0xB010 0xFFFFFFFFFFFFFFFF) State.reset).map State.ctrl = some 1#64 ∧
    (ran 80 (writeBits 0xB010 0xFFFFFFFFFFFFFFFE) marked).map State.ctrl = some 0#64 := by decide

theorem test_wrStatus_sets_nothing :
    (ran 80 (writeBits 0xB008 0xFFFFFFFFFFFFFFFF) State.reset).map State.status = some 0#64 := by decide

theorem test_ignored_writes :
    [0xB040, 0xB048, 0xB050, 0xB058, 0xB060, 0xB068, 0xB038, 0xB078, 0xB080].map
      (fun td => (ran 80 (writeBits td 0x1234) marked).map (fun t => decide (t = marked.respond .ok))) =
      [some true, some true, some true, some true, some true, some true, some true, some true, some true] := by decide

/-- 95 §2.11: nothing changes but the fault mark, and the answer is the error response. -/
theorem test_access_error :
    [0x2000, 0xA000, 0x0008, 0x4008, 0x3004, 0xB00C, 0x3009, 0x3108].map
      (fun td => (ran 16 td marked).map (fun t =>
        decide (t = { marked with faultMark := some .accessError, responses := [.accessError] }))) =
      [some true, some true, some true, some true, some true, some true, some true, some true] := by decide

/-! ### The lifecycle, 95 §2.12 and §2.13 -/

theorem test_wrCmd_accepted :
    (ran 80 (writeBits 0xB000 6) marked).map (fun t => (t.status, t.phase, t.snap)) =
      some (0x9#64, .busy, { kind := 6#64, f := 0x20#64, g := 0x28#64, q := 0x30#64, fs := 0x18#64, fval := true }) := by
  decide

/-- §2.12 step 2. -/
theorem test_wrCmd_dropped :
    (ran 80 (writeBits 0xB000 1) (busyWith Snap.reset)).map (fun t => (t.status, t.phase, t.snap)) =
      some (0x9#64, .busy, Snap.reset) := by decide

/-- §2.12 steps 3 and 5. -/
theorem test_wrStatus_w1c :
    (ran 80 (writeBits 0xB008 7) { State.reset with status := 0x9#64 }).map State.status = some 0x9#64 ∧
    (ran 80 (writeBits 0xB008 8) { State.reset with status := 0xA#64 }).map State.status = some 0x2#64 := by decide

/-- §2.12 step 6: the completion of an unsupported word keeps `CMDLOST`. -/
theorem test_complete_kind_unsupported :
    (ran 64 9 { State.reset with status := 0x8#64 }).map State.status = some 0x120E#64 ∧
    (ran 64 0x0000000100000000 State.reset).map State.status = some 0x1206#64 := by decide

/-- §2.12 step 9. -/
theorem test_reset_while_busy :
    nextOf (step { busyWith Snap.reset with schedule := [.reset], b0 := 5#64 }) = some State.reset := by decide

/-- §2.12 step 10: the reset `Q` is invalid. -/
theorem test_complete_reset_q : (ran 64 0 State.reset).map State.status = some 0x3106#64 := by decide +kernel

/-- §2.7: the first failing check decides. -/
theorem test_cause_priority :
    [snapOf 9 0x7FF8000000000000#64 0x7FF8000000000000#64 0#64 0#64 true,
     snapOf 0 0x7FF8000000000000#64 0#64 0#64 0#64 false,
     snapOf 6 0x7FF8000000000000#64 0x7FF8000000000000#64 0#64 0x40E7700000000000#64 false,
     snapOf 6 0x7FF8000000000000#64 0x7FF8000000000000#64 0x3FF0000000000000#64 0x40E7700000000000#64 false,
     snapOf 6 0x40DD4C0000000000#64 0x7FF8000000000000#64 0x3FF0000000000000#64 0x40E7700000000000#64 true,
     snapOf 8 0x408F400000000000#64 0xFFF0000000000000#64 0x3FE69FBE76C8B439#64 0x40E7700000000000#64 false].map
      (evaluate prim) =
      [.failed .kindUnsupported, .failed .fsInvalid, .failed .qInvalid, .failed .freqNonfinite, .failed .freqRange,
       .failed .gainNonfinite] := by decide +kernel

/-- C.fhuge and C.fstiny of §2.6: cause 7 for every `PRIM`. -/
theorem test_result_nonfinite :
    (ran 64 0 { State.reset with freq := 0x7FE1CCF385EBC8A0#64, q := 0x3FE69FBE76C8B439#64 }).map State.status =
      some 0x7106#64 ∧
    (ran 64 0 { State.reset with
      freq := 0x408F400000000000#64, q := 0x3FE69FBE76C8B439#64, sampleRate := 1#64 }).map State.status =
      some 0x7106#64 := by decide +kernel

/-- C.f0 of §1.2, for every `PRIM`: all six results and `STATUS` in one step. -/
theorem test_computeLowpass_step :
    ((ran 64 0 { State.reset with q := 0x3FE69FBE76C8B439#64 }).map State.resultRegisters =
      some (0#64, 0#64, 0#64, 0x3FF0000000000000#64, 0xC000000000000000#64, 0x3FF0000000000000#64)) ∧
    (ran 64 0 { State.reset with q := 0x3FE69FBE76C8B439#64 }).map (fun t => (t.status, t.phase)) =
      some (2#64, .idle) := by decide +kernel

/-- X.hp_f0 of §2.5, for every `PRIM`. -/
theorem test_computeHighpass_step :
    (ran 64 1 { State.reset with q := 0x3FE69FBE76C8B439#64 }).map State.resultRegisters =
      some (0x3FF0000000000000#64, 0xC000000000000000#64, 0x3FF0000000000000#64, 0x3FF0000000000000#64,
        0xC000000000000000#64, 0x3FF0000000000000#64) := by decide +kernel

/-- C.fneg0 of §2.5, for every `PRIM`: `f` = -0. -/
theorem test_computeBpskirt_step :
    (ran 64 2 { State.reset with freq := 0x8000000000000000#64, q := 0x3FE69FBE76C8B439#64 }).map State.resultRegisters =
      some (0x8000000000000000#64, 0#64, 0#64, 0x3FF0000000000000#64, 0xC000000000000000#64,
        0x3FF0000000000000#64) := by decide +kernel

/-! ### The formulas under PRIM_REF, 95 §2.1 and Set 3 of §2.4: `f` = 1000, `q` = 0.707, `g` = 6, `fs` = 48000 -/

/-- The operands of Set 3. -/
def set3 (kind : Nat) : Snap :=
  snapOf kind 0x408F400000000000#64 0x4018000000000000#64 0x3FE69FBE76C8B439#64 0x40E7700000000000#64 false

/-- `c`, `s`, `alpha` and `m2c` of §2.1. -/
def set3Preamble : Preamble :=
  { c := .fin false ⟨0x3FEFB9EA92EC689B, by decide⟩, s := .fin false ⟨0x3FC0B5150F6DA2D0, by decide⟩
    alpha := .fin false ⟨0x3FB7A19F0E37DBCA, by decide⟩, m2c := .fin true ⟨0x3FFFB9EA92EC689B, by decide⟩ }

/-- `A` of §2.1. -/
def set3A : F64 := .fin false ⟨0x3FF699C0F7E86E10, by decide⟩

/-- The encodings of six coefficients. -/
def words (r : Coeffs) : List Word := [bits r.b0, bits r.b1, bits r.b2, bits r.a0, bits r.a1, bits r.a2]

theorem test_w0 : bits (set3 0).w0 = 0x3FC0C152382D7365#64 := by decide +kernel

theorem test_cos64 : bits (primRef.cos64 (f64 0x3FC0C152382D7365#64)) = 0x3FEFB9EA92EC689B#64 := by decide +kernel

theorem test_sin64 : bits (primRef.sin64 (f64 0x3FC0C152382D7365#64)) = 0x3FC0B5150F6DA2D0#64 := by decide +kernel

theorem test_alpha : bits (fdiv (f64 0x3FC0B5150F6DA2D0#64) (fmul two (set3 0).qValue)) = 0x3FB7A19F0E37DBCA#64 := by
  decide +kernel

theorem test_gainA : bits (fdiv (set3 6).gainValue forty) = 0x3FC3333333333333#64 ∧
    bits (primRef.pow10 (f64 0x3FC3333333333333#64)) = 0x3FF699C0F7E86E10#64 := by decide +kernel

/-- S3.0. -/
theorem test_lowpass : words (lowpassCoeffs set3Preamble) =
    [0x3F71855B44E5D940#64, 0x3F81855B44E5D940#64, 0x3F71855B44E5D940#64, 0x3FF17A19F0E37DBD#64,
     0xBFFFB9EA92EC689B#64, 0x3FED0BCC1E390487#64] := by decide +kernel

/-- S3.1 (H.hp). -/
theorem test_highpass : words (highpassCoeffs set3Preamble) =
    [0x3FEFDCF54976344E#64, 0xBFFFDCF54976344E#64, 0x3FEFDCF54976344E#64, 0x3FF17A19F0E37DBD#64,
     0xBFFFB9EA92EC689B#64, 0x3FED0BCC1E390487#64] := by decide +kernel

/-- S3.2. -/
theorem test_bandpassSkirt : words (bandpassSkirtCoeffs set3Preamble) =
    [0x3FB0B5150F6DA2D0#64, 0x0000000000000000#64, 0xBFB0B5150F6DA2D0#64, 0x3FF17A19F0E37DBD#64,
     0xBFFFB9EA92EC689B#64, 0x3FED0BCC1E390487#64] := by decide +kernel

/-- S3.3. -/
theorem test_bandpassPeak : words (bandpassPeakCoeffs set3Preamble) =
    [0x3FB7A19F0E37DBCA#64, 0x0000000000000000#64, 0xBFB7A19F0E37DBCA#64, 0x3FF17A19F0E37DBD#64,
     0xBFFFB9EA92EC689B#64, 0x3FED0BCC1E390487#64] := by decide +kernel

/-- S3.4. -/
theorem test_notch : words (notchCoeffs set3Preamble) =
    [0x3FF0000000000000#64, 0xBFFFB9EA92EC689B#64, 0x3FF0000000000000#64, 0x3FF17A19F0E37DBD#64,
     0xBFFFB9EA92EC689B#64, 0x3FED0BCC1E390487#64] := by decide +kernel

/-- S3.5. -/
theorem test_allpass : words (allpassCoeffs set3Preamble) =
    [0x3FED0BCC1E390487#64, 0xBFFFB9EA92EC689B#64, 0x3FF17A19F0E37DBD#64, 0x3FF17A19F0E37DBD#64,
     0xBFFFB9EA92EC689B#64, 0x3FED0BCC1E390487#64] := by decide +kernel

/-- S3.6. -/
theorem test_peaking : words (peakingCoeffs set3A set3Preamble) =
    [0x3FF216151361FC07#64, 0xBFFFB9EA92EC689B#64, 0x3FEBD3D5D93C07F1#64, 0x3FF10BACDCCA797B#64,
     0xBFFFB9EA92EC689B#64, 0x3FEDE8A6466B0D0A#64] := by decide +kernel

/-- S3.7, two of the six (the kernel takes long over the others, whose terms these two share). -/
theorem test_lowShelf : bits (lowShelfCoeffs set3A set3Preamble).b0 = 0x40091EB8C0F7205C#64 ∧
    bits (lowShelfCoeffs set3A set3Preamble).a1 = 0xC0166F7BE09C48E4#64 := by decide +kernel

/-- S3.8, two of the six. -/
theorem test_highShelf : bits (highShelfCoeffs set3A set3Preamble).b1 = 0xC01FB0E2FAD8353A#64 ∧
    bits (highShelfCoeffs set3A set3Preamble).a0 = 0x4001C89A3141EE1C#64 := by decide +kernel

/-! ### Witnesses

One for the hypotheses of each statement of Certificates/Slice0/Obligations.lean, `witness_<its name>`. -/

/-- `f` = +0, `q` = 1, `g` = 0, `fs` = 48000: passes every check, and every primitive is at an operand R103 fixes. -/
def zeroSnap (kind : Nat) : Snap := snapOf kind 0#64 0#64 0x3FF0000000000000#64 0x40E7700000000000#64 false

/-- The same with the largest finite `f`, whose `w0` overflows (R134). -/
def hugeSnap (kind : Nat) : Snap := { zeroSnap kind with f := 0x7FEFFFFFFFFFFFFF#64 }

/-- STATUS with the reserved code `ERRCAUSE` = 8. -/
def badStatus : State := { State.reset with status := 0x8000#64 }

theorem witness_DecodeOfEncode : (Instr.wrRsvd80 0xF8#8 7#64).wellFormed = true ∧ (Instr.rdRsvd70 0x78#8).wellFormed = true ∧
    (Instr.wrCmd 0xFFFFFFFFFFFFFFFF#64).wellFormed = true := by decide

theorem witness_EncodeOfDecode : decodeBus 0xB0F8#16 7#64 = .ok (.wrRsvd80 0xF8#8 7#64) ∧
    decodeBus 0x3070#16 7#64 = .ok (.rdRsvd70 0x70#8) ∧ decodeCmd 8#64 = .ok .computeHighshelf := ⟨rfl, rfl, rfl⟩

theorem witness_ExactlyOneRow : Descriptor.admitted 0x30F8#16 = true ∧ Descriptor.admitted 0x30FC#16 = false ∧
    (8#64).toNat ≤ 8 ∧ 8 < (9#64).toNat := by decide

theorem witness_HostAccessOffset : 0 < 256 ∧ 255 < 256 ∧ Config.base + 256 ≤ Config.base + 256 := by omega

theorem witness_StepRunsDecodedInstruction :
    (({ State.reset with schedule := [.bus 0x3018#16 0#64] } : State).NoReservedCode ∧
      decodeBus 0x3018#16 0#64 = .ok .rdSampleRate) ∧
    (({ busyWith (zeroSnap 8) with schedule := [.complete] } : State).NoReservedCode ∧
      (busyWith (zeroSnap 8)).phase = .busy ∧ decodeCmd (zeroSnap 8).kind = .ok .computeHighshelf) ∧
    ((busyWith (zeroSnap 0)).NoReservedCode ∧ (busyWith (zeroSnap 0)).schedule = [] ∧
      decodeCmd (zeroSnap 0).kind = .ok .computeLowpass) ∧
    ({ busyWith (zeroSnap 9) with schedule := [.complete] } : State).NoReservedCode ∧
    ((busyWith (zeroSnap 9)).NoReservedCode ∧ (busyWith (zeroSnap 9)).schedule = []) ∧
    State.reset.NoReservedCode ∧ State.reset.schedule = [] := by
  refine ⟨⟨⟨by decide, by decide⟩, rfl⟩, ⟨⟨by decide, by decide⟩, rfl, rfl⟩, ⟨⟨by decide, by decide⟩, rfl, rfl⟩,
    ⟨by decide, by decide⟩, ⟨⟨by decide, by decide⟩, rfl⟩, ⟨by decide, by decide⟩, rfl⟩

theorem witness_OnlyReservedCodesRefuse : State.reset.NoReservedCode ∧ ¬ badStatus.NoReservedCode :=
  ⟨⟨by decide, by decide⟩, fun h => absurd h.1 (by decide)⟩

theorem witness_AccessErrorChangesNothing :
    (({ State.reset with schedule := [.bus 0x2000#16 0#64] } : State).NoReservedCode) ∧
    BitVec.extractLsb' 12 3 0x2000#16 ≠ 3#3 ∧ BitVec.extractLsb' 8 4 0x3108#16 ≠ 0#4 ∧
    BitVec.extractLsb' 0 3 0x3004#16 ≠ 0#3 := ⟨⟨by decide, by decide⟩, by decide, by decide, by decide⟩

/-- A step that sets the mark and a step that leaves it. -/
theorem witness_FaultMarkIsSticky :
    (nextOf (step { State.reset with schedule := [.bus 0x3009#16 0#64] })).map State.faultMark = some (some .accessError) ∧
    Descriptor.admitted 0x3009#16 = false ∧ Descriptor.admitted 0x3018#16 = true ∧
    (nextOf (step { State.reset with schedule := [.bus 0x3018#16 0#64] })).map State.faultMark = some none ∧
    (nextOf (step { State.reset with faultMark := some .accessError, schedule := [.reset] })).map State.faultMark =
      some (some .accessError) := by decide

theorem witness_ResetEvent : ({ busyWith Snap.reset with schedule := [.reset] } : State).NoReservedCode ∧
    ({ State.reset with schedule := [.reset] } : State).NoReservedCode := ⟨⟨by decide, by decide⟩, by decide, by decide⟩

theorem witness_ResetAbandonsCommand :
    ({ busyWith Snap.reset with schedule := [.reset, .complete] } : State).NoReservedCode ∧
    (busyWith Snap.reset).phase = .busy := ⟨⟨by decide, by decide⟩, rfl⟩

theorem witness_ReadsHaveNoSideEffects : (Instr.rdRsvd80 0x80#8).isRead = true ∧ Instr.rdStatus.isRead = true := by decide

theorem witness_AcceptCommand : State.reset.phase = .idle := rfl

theorem witness_DropCommand : (busyWith Snap.reset).phase = .busy := rfl

theorem witness_WriteSideEffects :
    [Instr.wrCmd 3#64, .wrStatus 8#64, .wrCtrl 1#64, .wrSampleRate 5#64, .wrFreq 5#64, .wrGainDb 5#64, .wrQ 5#64,
      .wrA2 5#64].all (fun i => i.isBus && !i.isRead && (nextOf (exec i State.reset)).isSome) = true ∧
    State.reset.phase = .idle ∧ (nextOf (exec (.wrCmd 3#64) (busyWith (zeroSnap 9)))).isSome = true ∧
    (busyWith (zeroSnap 9)).phase = .busy := by decide

theorem witness_WindowIsLittleEndian : BitVec.extractLsb' 0 3 0xF8#8 = 0#3 ∧ BitVec.extractLsb' 0 3 0x18#8 = 0#3 := by
  decide

/-- Each clause, and the offsets where the clauses meet. -/
theorem witness_WriteFrame :
    [0x00#8, 0x08#8, 0x10#8, 0x18#8, 0x30#8, 0x38#8, 0xF8#8].map (fun off => BitVec.extractLsb' 0 3 off) =
      [0#3, 0#3, 0#3, 0#3, 0#3, 0#3, 0#3] ∧ 0x38 ≤ (0x38#8).toNat := by decide

theorem failed_zeroFs : evaluate prim { zeroSnap 0 with fs := 0#64 } = .failed .fsInvalid := by decide +kernel

theorem failed_kind9 : evaluate prim (zeroSnap 9) = .failed .kindUnsupported := by decide +kernel

/-- The command of kind `k` at `f` = 0 is computed, and finite, for every `PRIM`. -/
theorem passes_zeroSnap (k : FilterKind) : (zeroSnap (FilterKind.code k)).Passes k :=
  (checkOperands_eq_none _ k).1 (by cases k <;> decide +kernel)

theorem finite_zeroSnap (k : FilterKind) : (formula prim k (zeroSnap (FilterKind.code k))).Finite :=
  (allFinite_iff _).1 (by cases k <;> decide +kernel)

theorem passes_hugeSnap (k : FilterKind) : (hugeSnap (FilterKind.code k)).Passes k :=
  (checkOperands_eq_none _ k).1 (by cases k <;> decide +kernel)

theorem not_finite_hugeSnap (k : FilterKind) : ¬ (formula prim k (hugeSnap (FilterKind.code k))).Finite :=
  fun h => absurd ((allFinite_iff _).2 h) (by cases k <;> decide +kernel)

/-- Both outcomes of a completion step. -/
theorem witness_CompletionStep : (busyWith (zeroSnap 0)).phase = .busy ∧
    evaluate prim { zeroSnap 0 with fs := 0#64 } = .failed .fsInvalid ∧
    evaluate prim (zeroSnap 0) = .computed (formula prim .lowpass (zeroSnap 0)) := by
  refine ⟨rfl, failed_zeroFs, ?_⟩
  have h := evaluateKind_passes (p := prim) (passes_zeroSnap .lowpass)
  rw [(allFinite_iff _).2 (finite_zeroSnap .lowpass)] at h
  exact h

/-- A snapshot for each cause (the other six: `test_cause_priority`). -/
theorem witness_ErrorRecordValue : (∀ n, (busyWith n).phase = .busy ∧ (busyWith n).snap = n) ∧
    (∀ n, ∃ t, engineStep (busyWith n) = .next t) ∧
    evaluate prim (hugeSnap 0) = .failed .resultNonfinite :=
  ⟨fun _ => ⟨rfl, rfl⟩, fun _ => ⟨_, engineStep_busy rfl⟩, by decide +kernel⟩

theorem witness_UnsupportedKind : (busyWith (zeroSnap 9)).phase = .busy ∧ 8 < (busyWith (zeroSnap 9)).snap.kind.toNat := by
  decide

/-- Each cause and both last outcomes, at the vectors of `test_cause_priority`, `zeroSnap` and `hugeSnap`. -/
theorem witness_FirstFailingCheckDecides :
    FilterKind.code .highShelf = (zeroSnap 8).kind.toNat ∧ (zeroSnap 8).Passes .highShelf ∧
    (formula prim .highShelf (zeroSnap 8)).Finite ∧ (hugeSnap 8).Passes .highShelf ∧
    ¬ (formula prim .highShelf (hugeSnap 8)).Finite :=
  ⟨rfl, passes_zeroSnap .highShelf, finite_zeroSnap .highShelf, passes_hugeSnap .highShelf, not_finite_hugeSnap .highShelf⟩

/-- The boundaries: the smallest positive value, the largest finite one, `+∞`, zero. -/
theorem witness_ChecksByEncoding :
    ({ zeroSnap 0 with fs := 1#64 } : Snap).fsValid = true ∧
    ({ zeroSnap 0 with fs := 0x7FEFFFFFFFFFFFFF#64 } : Snap).fsValid = true ∧
    ({ zeroSnap 0 with fs := 0x7FF0000000000000#64 } : Snap).fsValid = false ∧
    ({ zeroSnap 0 with q := 0x7FF0000000000000#64 } : Snap).qValid = true ∧
    ({ zeroSnap 0 with q := 0x7FF0000000000001#64 } : Snap).qValid = false ∧
    prim.sin64 ({ zeroSnap 0 with q := 0x7FF0000000000000#64 } : Snap).w0 = .fin false ⟨0, by decide⟩ := by
  decide +kernel

theorem witness_FrequencyValidation : (zeroSnap 8).kind.toNat ≤ 8 ∧ (zeroSnap 8).fsValid = true ∧
    (zeroSnap 8).qValid = true ∧ isFinite (f64 (zeroSnap 8).f) = true ∧ (zeroSnap 8).fval = false ∧
    ({ zeroSnap 8 with fval := true } : Snap).fval = true := by decide +kernel

theorem witness_GainIgnored : (zeroSnap 5).kind.toNat ≤ 5 := by decide

theorem witness_ResultIsFunctionOfSnapshot : (busyWith (zeroSnap 9)).phase = .busy ∧
    ({ busyWith (zeroSnap 9) with freq := 5#64, status := 9#64 } : State).snap = (busyWith (zeroSnap 9)).snap ∧
    (∃ t, engineStep (busyWith (zeroSnap 9)) = .next t) ∧
    ∃ t, engineStep { busyWith (zeroSnap 9) with freq := 5#64, status := 9#64 } = .next t :=
  ⟨rfl, rfl, ⟨_, rfl⟩, _, rfl⟩

theorem witness_OperandWritesCommuteWithCompletion : (busyWith (zeroSnap 0)).phase = .busy ∧
    Instr.wrCtrl 1#64 ∈ [Instr.wrFreq 1#64, .wrGainDb 1#64, .wrQ 1#64, .wrSampleRate 1#64, .wrCtrl 1#64] := by decide

/-! The nine `Compute` statements: a command in flight that passes the checks, with finite coefficients and without. -/

theorem busy_busyWith (n : Snap) : (busyWith n).phase = .busy ∧ (busyWith n).snap = n := ⟨rfl, rfl⟩

theorem witness_ComputeLowpass : (zeroSnap 0).Passes .lowpass ∧ (formula prim .lowpass (zeroSnap 0)).Finite ∧
    (hugeSnap 0).Passes .lowpass ∧ ¬ (formula prim .lowpass (hugeSnap 0)).Finite :=
  ⟨passes_zeroSnap .lowpass, finite_zeroSnap .lowpass, passes_hugeSnap .lowpass, not_finite_hugeSnap .lowpass⟩

theorem witness_ComputeHighpass : (zeroSnap 1).Passes .highpass ∧ (formula prim .highpass (zeroSnap 1)).Finite ∧
    (hugeSnap 1).Passes .highpass ∧ ¬ (formula prim .highpass (hugeSnap 1)).Finite :=
  ⟨passes_zeroSnap .highpass, finite_zeroSnap .highpass, passes_hugeSnap .highpass, not_finite_hugeSnap .highpass⟩

theorem witness_ComputeBandpassSkirt : (zeroSnap 2).Passes .bandpassSkirt ∧ (formula prim .bandpassSkirt (zeroSnap 2)).Finite ∧
    (hugeSnap 2).Passes .bandpassSkirt ∧ ¬ (formula prim .bandpassSkirt (hugeSnap 2)).Finite :=
  ⟨passes_zeroSnap .bandpassSkirt, finite_zeroSnap .bandpassSkirt, passes_hugeSnap .bandpassSkirt, not_finite_hugeSnap .bandpassSkirt⟩

theorem witness_ComputeBandpassPeak : (zeroSnap 3).Passes .bandpassPeak ∧ (formula prim .bandpassPeak (zeroSnap 3)).Finite ∧
    (hugeSnap 3).Passes .bandpassPeak ∧ ¬ (formula prim .bandpassPeak (hugeSnap 3)).Finite :=
  ⟨passes_zeroSnap .bandpassPeak, finite_zeroSnap .bandpassPeak, passes_hugeSnap .bandpassPeak, not_finite_hugeSnap .bandpassPeak⟩

theorem witness_ComputeNotch : (zeroSnap 4).Passes .notch ∧ (formula prim .notch (zeroSnap 4)).Finite ∧
    (hugeSnap 4).Passes .notch ∧ ¬ (formula prim .notch (hugeSnap 4)).Finite :=
  ⟨passes_zeroSnap .notch, finite_zeroSnap .notch, passes_hugeSnap .notch, not_finite_hugeSnap .notch⟩

theorem witness_ComputeAllpass : (zeroSnap 5).Passes .allpass ∧ (formula prim .allpass (zeroSnap 5)).Finite ∧
    (hugeSnap 5).Passes .allpass ∧ ¬ (formula prim .allpass (hugeSnap 5)).Finite :=
  ⟨passes_zeroSnap .allpass, finite_zeroSnap .allpass, passes_hugeSnap .allpass, not_finite_hugeSnap .allpass⟩

theorem witness_ComputePeaking : (zeroSnap 6).Passes .peaking ∧ (formula prim .peaking (zeroSnap 6)).Finite ∧
    (hugeSnap 6).Passes .peaking ∧ ¬ (formula prim .peaking (hugeSnap 6)).Finite :=
  ⟨passes_zeroSnap .peaking, finite_zeroSnap .peaking, passes_hugeSnap .peaking, not_finite_hugeSnap .peaking⟩

theorem witness_ComputeLowShelf : (zeroSnap 7).Passes .lowShelf ∧ (formula prim .lowShelf (zeroSnap 7)).Finite ∧
    (hugeSnap 7).Passes .lowShelf ∧ ¬ (formula prim .lowShelf (hugeSnap 7)).Finite :=
  ⟨passes_zeroSnap .lowShelf, finite_zeroSnap .lowShelf, passes_hugeSnap .lowShelf, not_finite_hugeSnap .lowShelf⟩

theorem witness_ComputeHighShelf : (zeroSnap 8).Passes .highShelf ∧ (formula prim .highShelf (zeroSnap 8)).Finite ∧
    (hugeSnap 8).Passes .highShelf ∧ ¬ (formula prim .highShelf (hugeSnap 8)).Finite :=
  ⟨passes_zeroSnap .highShelf, finite_zeroSnap .highShelf, passes_hugeSnap .highShelf, not_finite_hugeSnap .highShelf⟩

theorem witness_ComputeTraps : State.reset.phase = .idle ∧
    (busyWith { zeroSnap 0 with fs := 0#64 }).phase = .busy ∧ ¬ ({ zeroSnap 0 with fs := 0#64 } : Snap).Passes .lowpass :=
  ⟨rfl, rfl, fun h => absurd h.fs_pos (by decide +kernel)⟩

theorem witness_ZeroFrequencyCorner :
    [zeroSnap 0, zeroSnap 1, { zeroSnap 4 with f := 0x8000000000000000#64 }].map
      (fun n => (n.fsValid, n.qValid, n.fval)) = [(true, true, false), (true, true, false), (true, true, false)] := by
  decide +kernel

theorem witness_FlatResponse : FilterKind.gainAware .lowShelf = true ∧ gainA prim (zeroSnap 7) = one ∧
    (preamble prim (zeroSnap 7)).c ≠ zero ∧ (preamble prim (zeroSnap 7)).c ≠ fneg zero ∧ (zeroSnap 7).g = 0#64 := by
  decide +kernel

/-- A command finished, and these events still to come. -/
def doneWith (l : List Event) : State := { State.reset with status := 2#64, schedule := l }

theorem legal_doneWith (l : List Event) : (doneWith l).Legal := by constructor <;> simp [doneWith] <;> decide

theorem legal_busyWith (n : Snap) : (busyWith n).Legal := by constructor <;> simp [busyWith] <;> decide

theorem witness_LegalIsInvariant : (doneWith [.reset]).Legal ∧ (busyWith (zeroSnap 9)).Legal ∧
    (∃ t, step (doneWith [.reset]) = .next t) ∧ ∃ t, step (busyWith (zeroSnap 9)) = .next t :=
  ⟨legal_doneWith _, legal_busyWith _, ⟨_, rfl⟩, _, rfl⟩

/-- The steps of the three disjuncts. -/
theorem witness_ResultsChangeOnlyOnSuccess :
    (∃ t, step (busyWith (zeroSnap 0)) = .next t) ∧ (∃ t, step State.reset = .next t) ∧
    ∃ t, step { State.reset with schedule := [.reset], b0 := 1#64 } = .next t := ⟨⟨_, rfl⟩, ⟨_, rfl⟩, _, rfl⟩

theorem witness_OperandsChangeOnlyByWriteOrReset :
    [0xB010#16, 0xB018#16, 0xB020#16, 0xB028#16, 0xB030#16].map (fun td =>
      (nextOf (step { State.reset with schedule := [.bus td 3#64] })).map State.operandRegisters) =
      [some (1#64, 0x40E7700000000000#64, 0#64, 0#64, 0#64), some (0#64, 3#64, 0#64, 0#64, 0#64),
       some (0#64, 0x40E7700000000000#64, 3#64, 0#64, 0#64), some (0#64, 0x40E7700000000000#64, 0#64, 3#64, 0#64),
       some (0#64, 0x40E7700000000000#64, 0#64, 0#64, 3#64)] := by decide

/-- A dropped command, an acknowledged one and a reset, each from a legal state. -/
theorem witness_CmdLostIsSticky :
    (busyWith Snap.reset).Legal ∧ busyBit (busyWith Snap.reset).status = true ∧
    decodeBus 0xB000#16 5#64 = .ok (.wrCmd 5#64) ∧ decodeBus 0xB008#16 8#64 = .ok (.wrStatus 8#64) ∧
    (8#64 : Word).getLsbD 3 = true ∧
    (∃ t, step { busyWith Snap.reset with schedule := [.bus 0xB000#16 5#64] } = .next t) ∧
    ∃ t, step { busyWith Snap.reset with schedule := [.bus 0xB008#16 8#64, .reset] } = .next t :=
  ⟨legal_busyWith _, by decide, rfl, rfl, by decide, ⟨_, rfl⟩, _, rfl⟩

theorem witness_StatusWriters : (busyWith (zeroSnap 9)).Legal ∧ (∃ t, step (busyWith (zeroSnap 9)) = .next t) ∧
    (doneWith [.bus 0xB000#16 5#64]).Legal ∧ ∃ t, step (doneWith [.bus 0xB000#16 5#64]) = .next t :=
  ⟨legal_busyWith _, ⟨_, rfl⟩, legal_doneWith _, _, rfl⟩

theorem witness_EveryRunEnds : (doneWith [.bus 0xB000#16 9#64, .bus 0x3008#16 0#64]).Legal := legal_doneWith _

/-- R265: the run is over after its last transaction, before a reset that comes later; the command in flight of the second
run completes first (cause 1, R223); the third recorded an `AccessError`. -/
theorem test_runObservation :
    (doneWith [.bus 0x3018#16 0#64, .bus 0x3008#16 0#64, .reset]).runObservation.map
      (fun o => (o.registers.take 4, o.reads)) =
      some ([0#64, 2#64, 0#64, 0x40E7700000000000#64], [0x40E7700000000000#64, 2#64]) ∧
    (doneWith [.bus 0xB000#16 9#64, .bus 0x3008#16 0#64]).runObservation.map
      (fun o => (o.registers.take 2, o.reads)) = some ([0#64, 0x1206#64], [1#64]) ∧
    (doneWith [.bus 0x2000#16 0#64]).runObservation = none := by decide +kernel

theorem witness_PortOrder :
    (doneWith [.bus 0x3018#16 0#64, .complete, .reset, .bus 0x2000#16 0#64]).Legal ∧
    4 ≤ (doneWith [.bus 0x3018#16 0#64, .complete, .reset, .bus 0x2000#16 0#64]).schedule.length ∧
    ∃ t, (doneWith [.bus 0x3018#16 0#64, .complete, .reset, .bus 0x2000#16 0#64]).run 4 = .next t :=
  ⟨legal_doneWith _, by decide, _, rfl⟩

theorem witness_Encodings : one ≠ .nan ∧ f64 0x7FF0000000000000#64 ≠ .nan ∧ f64 0x7FF0000000000001#64 = .nan ∧
    2046 < 2047 ∧ 2 ^ 52 - 1 < 2 ^ 52 := by decide +kernel

theorem toRat_zero : zero.toRat = 0 := by simp [zero, F64.toRat, signedUnits]

theorem toRat_one : one.toRat = 1 := by
  simp only [one, F64.toRat, signedUnits, Bool.false_eq_true, if_false, units_one]
  push_cast
  rw [div_self (by positivity)]

theorem witness_OperationsRoundToNearestEven : isFinite zero = true ∧ isFinite one = true ∧ one.toRat ≠ 0 ∧ 0 ≤ one.toRat := by
  rw [toRat_one]; exact ⟨rfl, rfl, one_ne_zero, zero_le_one⟩

theorem witness_ComparisonsAndSigns : isFinite one = true ∧ isFinite zero = true ∧ one ≠ .nan := by decide

theorem witness_TwoPi : isFinite pi64 = true := rfl

theorem witness_SpecialOperandsAndSigns : isFinite one = true ∧ isFinite (fneg one) = true ∧ (fneg one).toRat < 0 ∧
    zero.toRat = 0 ∧ one.toRat ≠ 0 ∧ one.toRat + (fneg one).toRat = 0 ∧ isFinite zero = true := by
  have h : (fneg one).toRat = -1 := by
    rw [← toRat_one]
    simp only [fneg, one, F64.toRat, signedUnits, Bool.not_false, if_true, Bool.false_eq_true, if_false, Int.cast_neg, neg_div]
  rw [h, toRat_one]
  exact ⟨rfl, rfl, by norm_num, toRat_zero, by norm_num, by norm_num, rfl⟩

/-- The smallest positive value. -/
def tiny : F64 := .fin false ⟨1, by decide⟩

theorem toRat_tiny : tiny.toRat = 1 / 2 ^ 1074 := by
  simp [tiny, F64.toRat, signedUnits, units]

/-- At 1.0 both bounds of the first premises; at the smallest positive value the second one of the sine. -/
theorem witness_TrigIsFaithful :
    (isFinite one = true ∧ one.toRat ≠ 0 ∧ 1 ≤ |Real.cos (one.toRat : ℝ)| * 2 ^ 1100 ∧
      1 ≤ |Real.sin (one.toRat : ℝ)| * 2 ^ 1100) ∧
    (isFinite tiny = true ∧ tiny.toRat ≠ 0 ∧ |tiny.toRat| * 2 ^ 30 < 1) ∧ isFinite (.inf true) = false := by
  have big : (2 : ℝ) ≤ 2 ^ 1100 := le_self_pow₀ (by norm_num) (by norm_num)
  generalize (2 : ℝ) ^ 1100 = K at big ⊢
  refine ⟨⟨rfl, ?_, ?_, ?_⟩, ⟨rfl, ?_, ?_⟩, rfl⟩
  · rw [toRat_one]; exact one_ne_zero
  · rw [toRat_one]
    have h := Real.one_sub_sq_div_two_le_cos (x := 1)
    rw [Rat.cast_one, abs_of_pos (by linarith)]
    nlinarith
  · rw [toRat_one]
    have h := Real.sin_gt_sub_cube (x := 1) one_pos
    rw [Rat.cast_one, abs_of_pos (by linarith)]
    nlinarith
  · rw [toRat_tiny]; positivity
  · rw [toRat_tiny, abs_of_pos (by positivity), div_mul_eq_mul_div, div_lt_one (by positivity), one_mul]
    exact pow_lt_pow_right₀ (by norm_num) (by norm_num)

theorem witness_PowerOfTenIsFaithful : isFinite pi64 = true ∧ isFinite (fneg pi64) = true := by decide

end Sys2Proof.Tests
end

section
/-! PROOFS. Numbers, R8 and R114: the fields of an encoding, comparisons by value, signs through the operations. -/

namespace Sys2Proof.Machine

/-! ### The fields of an encoding -/

/-- Every word is the encoding of a sign and a magnitude: the form in which the lemmas below speak of words. -/
theorem exists_word_eq_mag_sign (w : Word) :
    ∃ (neg : Bool) (m : Nat), m < 2 ^ 63 ∧ w = BitVec.ofNat 64 (m + signBit neg) :=
  ⟨_, _, Nat.mod_lt _ (Nat.two_pow_pos 63), word_eq_mag_sign w⟩

/-- Infinity by its fields: exponent all ones, fraction 0. -/
theorem magBound_eq_fields : magBound = 2 ^ 52 * 2047 := by norm_num

theorem signBit_eq_or (neg : Bool) : signBit neg = 0 ∨ signBit neg = 2 ^ 63 := by
  cases neg
  · exact Or.inl rfl
  · exact Or.inr rfl

theorem toNat_word_mag_sign {m : Nat} (hm : m < 2 ^ 63) (neg : Bool) :
    (BitVec.ofNat 64 (m + signBit neg)).toNat = m + signBit neg := by
  have hs := signBit_eq_or neg
  rw [BitVec.toNat_ofNat]
  omega

/-- The exponent field is all ones from the magnitude of infinity on. -/
theorem exponentField_eq_ones_iff {m : Nat} (hm : m < 2 ^ 63) (neg : Bool) :
    (BitVec.ofNat 64 (m + signBit neg)).extractLsb' 52 11 = 0x7FF#11 ↔ magBound ≤ m := by
  have hs := signBit_eq_or neg
  rw [← BitVec.toNat_inj, BitVec.extractLsb'_toNat, toNat_word_mag_sign hm, Nat.shiftRight_eq_div_pow]
  have hB := magBound_eq_fields
  show _ = 2047 ↔ _
  omega

theorem fractionField_eq_zero_iff {m : Nat} (hm : m < 2 ^ 63) (neg : Bool) :
    (BitVec.ofNat 64 (m + signBit neg)).extractLsb' 0 52 = 0#52 ↔ m % 2 ^ 52 = 0 := by
  have hs := signBit_eq_or neg
  rw [← BitVec.toNat_inj, BitVec.extractLsb'_toNat, toNat_word_mag_sign hm, Nat.shiftRight_zero]
  show _ = 0 ↔ _
  omega

/-! ### `f64` on a sign and a magnitude -/

theorem f64_of_lt_magBound {m : Nat} (h : m < magBound) (neg : Bool) :
    f64 (BitVec.ofNat 64 (m + signBit neg)) = .fin neg ⟨m, h⟩ := by
  rw [f64_ofNat neg m (h.trans (by norm_num)), dif_pos h]

theorem f64_magBound (neg : Bool) : f64 (BitVec.ofNat 64 (magBound + signBit neg)) = .inf neg := by
  rw [f64_ofNat neg magBound (by norm_num), dif_neg (lt_irrefl _), if_pos rfl]

theorem f64_of_magBound_lt {m : Nat} (hm : m < 2 ^ 63) (h : magBound < m) (neg : Bool) :
    f64 (BitVec.ofNat 64 (m + signBit neg)) = .nan := by
  rw [f64_ofNat neg m hm, dif_neg h.not_gt, if_neg h.ne']

theorem f64_bits {x : F64} (hx : x ≠ .nan) : f64 (bits x) = x := by
  cases x with
  | nan => exact absurd rfl hx
  | inf neg => exact f64_magBound neg
  | fin neg m => exact f64_of_lt_magBound m.isLt neg

theorem bits_f64 {w : Word} (hw : f64 w ≠ .nan) : bits (f64 w) = w := by
  obtain ⟨neg, m, hm, rfl⟩ := exists_word_eq_mag_sign w
  rcases lt_trichotomy m magBound with h | rfl | h
  · rw [f64_of_lt_magBound h]; rfl
  · rw [f64_magBound]; rfl
  · exact absurd (f64_of_magBound_lt hm h neg) hw

theorem isFinite_f64_iff (w : Word) : isFinite (f64 w) = true ↔ w.extractLsb' 52 11 ≠ 0x7FF#11 := by
  obtain ⟨neg, m, hm, rfl⟩ := exists_word_eq_mag_sign w
  rw [ne_eq, exponentField_eq_ones_iff hm]
  rcases lt_trichotomy m magBound with h | rfl | h
  · simpa [f64_of_lt_magBound h, isFinite] using h
  · simp [f64_magBound, isFinite]
  · simpa [f64_of_magBound_lt hm h, isFinite] using h.le

theorem f64_eq_nan_iff (w : Word) :
    f64 w = .nan ↔ w.extractLsb' 52 11 = 0x7FF#11 ∧ w.extractLsb' 0 52 ≠ 0#52 := by
  obtain ⟨neg, m, hm, rfl⟩ := exists_word_eq_mag_sign w
  rw [ne_eq, exponentField_eq_ones_iff hm, fractionField_eq_zero_iff hm]
  rcases lt_trichotomy m magBound with h | rfl | h
  · simp [f64_of_lt_magBound h, h]
  · have hfrac : magBound % 2 ^ 52 = 0 := by norm_num
    simp only [f64_magBound, hfrac, reduceCtorEq, not_true_eq_false, and_false]
  · have hB := magBound_eq_fields
    have hfrac : m % 2 ^ 52 ≠ 0 := by omega
    simp only [f64_of_magBound_lt hm h, h.le, hfrac, not_false_eq_true, and_self]

/-! ### The value of the fields -/

/-- The value, in units of 2^-1074, of a magnitude given by its exponent and fraction fields. -/
theorem units_fields_div (e : Nat) {f : Nat} (hf : f < 2 ^ 52) :
    (units (2 ^ 52 * e + f) : ℚ) / 2 ^ 1074 =
      if e = 0 then (f : ℚ) / 2 ^ 1074 else (1 + (f : ℚ) / 2 ^ 52) * 2 ^ e / 2 ^ 1023 := by
  cases e with
  | zero => rw [if_pos rfl, Nat.mul_zero, Nat.zero_add, units_subnormal hf.le]
  | succ k =>
    rw [if_neg k.succ_ne_zero, units_normal (k + 1) f (Nat.le_add_left 1 k) hf, Nat.add_sub_cancel]
    have hbias : (2 : ℚ) ^ 1074 = 2 ^ 1023 * 2 ^ 51 := by rw [← pow_add]
    rw [hbias, pow_succ]
    push_cast
    have hq : (2 : ℚ) ^ 1023 ≠ 0 := by positivity
    generalize (2 : ℚ) ^ 1023 = q at hq ⊢
    field_simp
    ring

theorem toRat_eq_sign_mul (neg : Bool) (m : Fin magBound) :
    (F64.fin neg m).toRat = (if neg then -1 else 1) * ((units m.val : ℚ) / 2 ^ 1074) := by
  cases neg <;> simp [F64.toRat, signedUnits, neg_div]

theorem toRat_f64_fields (neg : Bool) {e f : Nat} (he : e < 2047) (hf : f < 2 ^ 52) :
    (f64 (BitVec.ofNat 64 ((if neg then 2 ^ 63 else 0) + 2 ^ 52 * e + f))).toRat =
      (if neg then -1 else 1) *
        (if e = 0 then (f : ℚ) / 2 ^ 1074 else (1 + (f : ℚ) / 2 ^ 52) * 2 ^ e / 2 ^ 1023) := by
  have hm : 2 ^ 52 * e + f < magBound := by rw [magBound_eq_fields]; omega
  have hw : (if neg then 2 ^ 63 else 0) + 2 ^ 52 * e + f = 2 ^ 52 * e + f + signBit neg := by
    rw [Nat.add_assoc, Nat.add_comm]; rfl
  rw [hw, f64_of_lt_magBound hm, toRat_eq_sign_mul, units_fields_div e hf]

/-- Settles O54: each clause by the magnitude and the sign bit of the word, whose fields are read off the magnitude. -/
theorem encodings : Obligations.Encodings :=
  ⟨fun _ => f64_bits, fun _ => bits_f64, isFinite_f64_iff, f64_eq_nan_iff,
    fun neg _ _ he hf => toRat_f64_fields neg he hf⟩

/-! ### Comparisons by value -/

/-- Finite values are compared in the common unit 2^-1074. -/
theorem flt_iff_toRat_lt {x y : F64} (hx : isFinite x = true) (hy : isFinite y = true) :
    flt x y = true ↔ x.toRat < y.toRat := by
  cases x with
  | nan => cases hx
  | inf _ => cases hx
  | fin a m =>
    cases y with
    | nan => cases hy
    | inf _ => cases hy
    | fin b n =>
      have hunit : (0 : ℚ) < 2 ^ 1074 := by positivity
      simp only [flt, F64.toRat, decide_eq_true_eq]
      rw [div_lt_div_iff_of_pos_right hunit, Int.cast_lt]

@[simp] theorem flt_nan_left (y : F64) : flt .nan y = false := rfl

@[simp] theorem flt_nan_right (x : F64) : flt x .nan = false := by cases x <;> rfl

theorem comparisons_nan {x y : F64} (h : x = .nan ∨ y = .nan) : flt x y = false ∧ fgt x y = false := by
  rcases h with rfl | rfl <;> simp [fgt]

/-! ### Negation flips bit 63 -/

theorem add_two_pow_63_eq_xor {m : Nat} (hm : m < 2 ^ 63) : m + 2 ^ 63 = m ^^^ 2 ^ 63 := by
  apply Nat.eq_of_testBit_eq
  intro i
  rw [Nat.add_comm, Nat.testBit_xor, Nat.testBit_two_pow]
  rcases lt_trichotomy i 63 with h | rfl | h
  · simp [Nat.testBit_two_pow_add_gt h, h.ne']
  · rw [Nat.testBit_two_pow_add_eq]
    simp
  · have hbelow : 2 ^ 64 ≤ 2 ^ i := Nat.pow_le_pow_right two_pos h
    rw [Nat.testBit_lt_two_pow (by omega), Nat.testBit_lt_two_pow (by omega)]
    simp [h.ne]

theorem word_flip_sign {m : Nat} (hm : m < 2 ^ 63) (neg : Bool) :
    BitVec.ofNat 64 (m + signBit (!neg)) = BitVec.ofNat 64 (m + signBit neg) ^^^ 0x8000000000000000#64 := by
  apply BitVec.eq_of_toNat_eq
  rw [BitVec.toNat_xor, toNat_word_mag_sign hm, toNat_word_mag_sign hm]
  show _ = _ ^^^ 2 ^ 63
  cases neg with
  | false => exact add_two_pow_63_eq_xor hm
  | true =>
    show m = (m + 2 ^ 63) ^^^ 2 ^ 63
    rw [add_two_pow_63_eq_xor hm, Nat.xor_assoc, Nat.xor_self, Nat.xor_zero]

theorem bits_fneg {x : F64} (hx : x ≠ .nan) : bits (fneg x) = bits x ^^^ 0x8000000000000000#64 := by
  cases x with
  | nan => exact absurd rfl hx
  | inf neg => exact word_flip_sign (by norm_num) neg
  | fin neg m => exact word_flip_sign (m.isLt.trans (by norm_num)) neg

/-! ### A sign through a product and a quotient -/

theorem fmul_comm (x y : F64) : fmul x y = fmul y x := by
  unfold fmul
  cases x <;> cases y <;> simp only [Bool.xor_comm, Nat.mul_comm]

theorem fmul_fneg_left (x y : F64) : fmul (fneg x) y = fneg (fmul x y) := by
  unfold fmul
  cases x with
  | nan => rfl
  | inf a =>
    cases y with
    | nan => rfl
    | inf b => simp [fneg]
    | fin b n => by_cases h : n.val = 0 <;> simp [fneg, h]
  | fin a m =>
    cases y with
    | nan => rfl
    | inf b => by_cases h : m.val = 0 <;> simp [fneg, h]
    | fin b n => simp only [fneg, Bool.not_xor, roundQuotient_neg]

theorem fmul_fneg_right (x y : F64) : fmul x (fneg y) = fneg (fmul x y) := by
  rw [fmul_comm x, fmul_fneg_left, fmul_comm y]

theorem fdiv_fin_fin (a b : Bool) (m n : Fin magBound) :
    fdiv (.fin a m) (.fin b n) =
      if n.val = 0 then if m.val = 0 then .nan else .inf (a ^^ b)
      else roundQuotient (a ^^ b) (units m.val * 2 ^ 1074) (units n.val) := by
  unfold fdiv
  rfl

theorem fdiv_fin_inf (a b : Bool) (m : Fin magBound) : fdiv (.fin a m) (.inf b) = ofMag (a ^^ b) 0 := by
  unfold fdiv
  rfl

theorem fdiv_fneg_left (x y : F64) : fdiv (fneg x) y = fneg (fdiv x y) := by
  cases x with
  | nan => simp [fdiv, fneg]
  | inf a => cases y <;> simp [fdiv, fneg]
  | fin a m =>
    have hneg : fneg (.fin a m) = .fin (!a) m := rfl
    rw [hneg]
    cases y with
    | nan => simp [fdiv, fneg]
    | inf b => rw [fdiv_fin_inf, fdiv_fin_inf, Bool.not_xor, ofMag_neg]
    | fin b n =>
      rw [fdiv_fin_fin, fdiv_fin_fin, Bool.not_xor, roundQuotient_neg]
      split
      · split <;> rfl
      · rfl

/-- Settles O56: finite values are compared in the common unit, and a product's or quotient's sign enters its rounding
as a sign only. -/
theorem comparisonsAndSigns : Obligations.ComparisonsAndSigns :=
  ⟨fun _ _ => flt_iff_toRat_lt, fun _ _ => comparisons_nan, fun _ => bits_fneg,
    fun x y => ⟨fmul_fneg_left x y, fmul_fneg_right x y, fdiv_fneg_left x y⟩, fun x => fmul_fneg_left two x⟩

end Sys2Proof.Machine
end

section
/-! PROOFS. What every step keeps, 10_state.md R22 to R34: the legal states, who changes the results, the operands,
`CMDLOST` and the other fields of `STATUS`. -/

namespace Sys2Proof.Machine

/-! ### Legal states, R34 -/

/-- Settles O47: every clause is about the fixed reset values. -/
theorem resetIsLegal : Obligations.ResetIsLegal := by
  constructor <;> decide

/-- A `STATUS` write that touches `CMDLOST` alone keeps a state legal: no clause of R34 speaks of that bit. -/
theorem State.Legal.withStatus {s : State} (h : s.Legal) {st : Word} (hbusy : busyBit st = busyBit s.status)
    (hdone : doneBit st = doneBit s.status) (herr : errBit st = errBit s.status)
    (hclass : errClassField st = errClassField s.status) (hcause : errCauseField st = errCauseField s.status)
    (hreserved : st &&& ~~~statusMask = 0#64) : ({ s with status := st } : State).Legal :=
  { h with
    busy_iff := by rw [hbusy]; exact h.busy_iff
    busy_clear := by rw [hbusy, hdone, herr, hcause]; exact h.busy_clear
    err_done := by rw [hdone, herr]; exact h.err_done
    cause_iff := by rw [herr, hcause]; exact h.cause_iff
    class_eq := by rw [hclass, hcause]; exact h.class_eq
    reserved_status := hreserved
    cause_le := by rw [hcause]; exact h.cause_le
    class_le := by rw [hclass]; exact h.class_le }

theorem State.Legal.dropCommand {s : State} (h : s.Legal) : s.dropCommand.Legal :=
  h.withStatus (by simp) (by simp) (by simp) (by simp) (by simp) (reserved_statusDropped _ h.reserved_status)

theorem State.Legal.clearCmdLost {s : State} (h : s.Legal) (w : Word) :
    ({ s with status := statusW1C s.status w } : State).Legal :=
  h.withStatus (by simp) (by simp) (by simp) (by simp) (by simp) (reserved_statusW1C _ w h.reserved_status)

theorem State.Legal.writeCtrl {s : State} (h : s.Legal) (w : Word) :
    ({ s with ctrl := ctrlWrite s.ctrl w } : State).Legal :=
  { h with reserved_ctrl := reserved_ctrlWrite _ w h.reserved_ctrl }

theorem State.Legal.respond {s : State} (h : s.Legal) (r : Response) : (s.respond r).Legal :=
  h.of_same rfl rfl rfl rfl rfl rfl rfl rfl rfl

theorem State.Legal.withSchedule {s : State} (h : s.Legal) (l : List Event) :
    ({ s with schedule := l } : State).Legal :=
  h.of_same rfl rfl rfl rfl rfl rfl rfl rfl rfl

theorem State.Legal.raiseAccessError {s : State} (h : s.Legal) : s.raiseAccessError.Legal :=
  h.of_same rfl rfl rfl rfl rfl rfl rfl rfl rfl

theorem State.legal_resetBlock (s : State) : s.resetBlock.Legal :=
  State.Legal.of_same resetIsLegal rfl rfl rfl rfl rfl rfl rfl rfl rfl

theorem exec_bus_legal {i : Instr} {s t : State} (hi : i.isBus = true) (h : exec i s = .next t) (hs : s.Legal) :
    t.Legal := by
  rcases exec_bus_cases hi h with ⟨-, w, rfl⟩ | ⟨w, -, -, rfl⟩ | ⟨w, -, -, rfl⟩ | ⟨w, -, rfl⟩ | ⟨w, -, rfl⟩ |
    ⟨w, -, rfl⟩ | ⟨w, -, rfl⟩ | ⟨w, -, rfl⟩ | ⟨w, -, rfl⟩ | ⟨-, -, -, -, rfl⟩
  · exact hs.respond _
  · exact (hs.accept w).respond _
  · exact hs.dropCommand.respond _
  · exact (hs.clearCmdLost w).respond _
  · exact (hs.writeCtrl w).respond _
  -- the other writes change no field that R34 speaks of
  all_goals exact hs.of_same rfl rfl rfl rfl rfl rfl rfl rfl rfl

/-- Settles O46: each kind of step keeps the eight clauses; the completion step is `State.Legal.complete`. -/
theorem legalIsInvariant : Obligations.LegalIsInvariant := by
  intro s t hs h
  obtain ⟨-, ⟨td, d, rest, i, -, hd, he⟩ | ⟨td, d, rest, e, -, -, rfl⟩ | ⟨rest, -, -, rfl⟩ | ⟨rest, -, -, rfl⟩ |
    ⟨rest, -, rfl⟩ | ⟨-, -, rfl⟩⟩ := step_cases h
  · obtain ⟨-, -, hbus, -⟩ := decodeBus_ok hd
    exact exec_bus_legal hbus he (hs.withSchedule rest)
  · exact (hs.withSchedule rest).raiseAccessError
  · exact (hs.withSchedule rest).complete s.snap
  · exact hs.withSchedule rest
  · exact State.legal_resetBlock _
  · exact hs

/-! ### The result registers, R33 -/

theorem exec_bus_results {i : Instr} {s t : State} (hi : i.isBus = true) (h : exec i s = .next t) :
    t.resultRegisters = s.resultRegisters := by
  rcases exec_bus_cases hi h with ⟨-, w, rfl⟩ | ⟨w, -, -, rfl⟩ | ⟨w, -, -, rfl⟩ | ⟨w, -, rfl⟩ | ⟨w, -, rfl⟩ |
    ⟨w, -, rfl⟩ | ⟨w, -, rfl⟩ | ⟨w, -, rfl⟩ | ⟨w, -, rfl⟩ | ⟨-, -, -, -, rfl⟩ <;> rfl

/-- Settles O48: of all steps only the completion step and reset write the results, and a failing completion does not. -/
theorem resultsChangeOnlyOnSuccess : Obligations.ResultsChangeOnlyOnSuccess := by
  intro s t h
  obtain ⟨-, ⟨td, d, rest, i, -, hd, he⟩ | ⟨td, d, rest, e, -, -, rfl⟩ | ⟨rest, hs, hp, rfl⟩ | ⟨rest, -, -, rfl⟩ |
    ⟨rest, hs, rfl⟩ | ⟨-, -, rfl⟩⟩ := step_cases h
  · obtain ⟨-, -, hbus, -⟩ := decodeBus_ok hd
    have hsame := exec_bus_results hbus he
    exact .inl hsame
  · exact .inl rfl
  · cases hev : evaluate prim s.snap with
    | failed c => exact .inl rfl
    | computed r =>
      exact .inr (.inl ⟨hp, ⟨rest, hs.imp_right And.left⟩, r, rfl, rfl, finite_of_evaluate hev,
        doneBit_statusSuccess _, errBit_statusSuccess _, rfl⟩)
  · exact .inl rfl
  · exact .inr (.inr ⟨⟨rest, hs⟩, rfl⟩)
  · exact .inl rfl

/-! ### The operand registers, R22 to R24 -/

/-- The transaction `i` made `t` of `s` by writing the data word `w` to one operand register, to `CTRL` its bit 0 only. -/
def OperandWritten (i : Instr) (w : Word) (s t : State) : Prop :=
  i = .wrFreq w ∧ t.operandRegisters = (s.ctrl, s.sampleRate, w, s.gainDb, s.q) ∨
  i = .wrGainDb w ∧ t.operandRegisters = (s.ctrl, s.sampleRate, s.freq, w, s.q) ∨
  i = .wrQ w ∧ t.operandRegisters = (s.ctrl, s.sampleRate, s.freq, s.gainDb, w) ∨
  i = .wrSampleRate w ∧ t.operandRegisters = (s.ctrl, w, s.freq, s.gainDb, s.q) ∨
  i = .wrCtrl w ∧ t.operandRegisters = (t.ctrl, s.sampleRate, s.freq, s.gainDb, s.q) ∧
    t.ctrl.getLsbD 0 = w.getLsbD 0

theorem exec_bus_operands {i : Instr} {s t : State} (hi : i.isBus = true) (h : exec i s = .next t) :
    t.operandRegisters = s.operandRegisters ∨ ∃ w, OperandWritten i w s t := by
  rcases exec_bus_cases hi h with ⟨-, w, rfl⟩ | ⟨w, -, -, rfl⟩ | ⟨w, -, -, rfl⟩ | ⟨w, -, rfl⟩ | ⟨w, rfl, rfl⟩ |
    ⟨w, rfl, rfl⟩ | ⟨w, rfl, rfl⟩ | ⟨w, rfl, rfl⟩ | ⟨w, rfl, rfl⟩ | ⟨-, -, -, -, rfl⟩
  · exact .inl rfl
  · exact .inl rfl
  · exact .inl rfl
  · exact .inl rfl
  · exact .inr ⟨w, .inr (.inr (.inr (.inr ⟨rfl, rfl, fvalBit_ctrlWrite s.ctrl w⟩)))⟩
  · exact .inr ⟨w, .inr (.inr (.inr (.inl ⟨rfl, rfl⟩)))⟩
  · exact .inr ⟨w, .inl ⟨rfl, rfl⟩⟩
  · exact .inr ⟨w, .inr (.inl ⟨rfl, rfl⟩)⟩
  · exact .inr ⟨w, .inr (.inr (.inl ⟨rfl, rfl⟩))⟩
  · exact .inl rfl

/-- A write that is decoded carries the data word of its transaction. -/
theorem data_eq_of_decodeBus_write {td : Descriptor} {d w : Word} {i : Instr} {off : Offset}
    (hd : decodeBus td d = .ok i) (hi : encode i = encodeWrite off w) : d = w := by
  obtain ⟨-, -, -, -, henc⟩ := decodeBus_ok hd
  simp only [hi, encodeWrite, Encoding.bus.injEq] at henc
  obtain ⟨htd, hw⟩ := henc
  have hwe : td.we = true := by rw [← htd]; exact Descriptor.we_make _ _ _ _
  rw [hw, if_pos hwe]

theorem OperandWritten.data_eq {td : Descriptor} {d w : Word} {i : Instr} {s t : State}
    (h : OperandWritten i w s t) (hd : decodeBus td d = .ok i) : d = w := by
  rcases h with ⟨rfl, -⟩ | ⟨rfl, -⟩ | ⟨rfl, -⟩ | ⟨rfl, -⟩ | ⟨rfl, -⟩ <;> exact data_eq_of_decodeBus_write hd rfl

/-- Settles O49: of the transactions only the five operand writes change one, and neither the completion step nor an
`AccessError` does. -/
theorem operandsChangeOnlyByWriteOrReset : Obligations.OperandsChangeOnlyByWriteOrReset := by
  intro s t h
  obtain ⟨-, ⟨td, d, rest, i, hs, hd, he⟩ | ⟨td, d, rest, e, -, -, rfl⟩ | ⟨rest, -, -, rfl⟩ | ⟨rest, -, -, rfl⟩ |
    ⟨rest, hs, rfl⟩ | ⟨-, -, rfl⟩⟩ := step_cases h
  · obtain ⟨-, -, hbus, -⟩ := decodeBus_ok hd
    rcases exec_bus_operands hbus he with hsame | ⟨w, hw⟩
    · exact .inl hsame
    · obtain rfl := hw.data_eq hd
      exact .inr (.inl ⟨td, d, rest, i, hs, hd, hw⟩)
  · exact .inl rfl
  · obtain ⟨hctrl, hsampleRate, hfreq, hgainDb, hq⟩ :=
      complete_operands { s with schedule := rest } (evaluate prim s.snap)
    exact .inl (by simp only [State.operandRegisters, hctrl, hsampleRate, hfreq, hgainDb, hq])
  · exact .inl rfl
  · exact .inr (.inr ⟨⟨rest, hs⟩, rfl⟩)
  · exact .inl rfl

/-! ### `CMDLOST`, R29 -/

section
variable {s t : State} {td : Descriptor} {d w : Word} {rest : List Event}

theorem step_bus_ok {i : Instr} (hl : s.Legal) (hs : s.schedule = .bus td d :: rest) (hd : decodeBus td d = .ok i) :
    step s = exec i { s with schedule := rest } := by
  rw [step_cons hl.reservedCode hs, agentStep, busStep_ok _ hd]

theorem cmdLost_of_dropped (hl : s.Legal) (h : step s = .next t) (hs : s.schedule = .bus td d :: rest)
    (hd : decodeBus td d = .ok (.wrCmd w)) (hb : busyBit s.status = true) : cmdLostBit t.status = true := by
  have hp : s.phase = .busy := hl.busy_iff.1 hb
  rw [step_bus_ok hl hs hd] at h
  simp only [exec, execWrCmd, hp, Host.Outcome.next.injEq] at h
  simp [← h]

theorem cmdLost_of_cleared (hl : s.Legal) (h : step s = .next t) (hs : s.schedule = .bus td d :: rest)
    (hd : decodeBus td d = .ok (.wrStatus w)) (hw : w.getLsbD 3 = true) : cmdLostBit t.status = false := by
  rw [step_bus_ok hl hs hd] at h
  simp only [exec, execWrStatus, Host.Outcome.next.injEq] at h
  simp [← h, hw]

theorem status_of_reset (hl : s.Legal) (h : step s = .next t) (hs : s.schedule = .reset :: rest) : t.status = 0#64 := by
  rw [step_cons hl.reservedCode hs, agentStep, Host.Outcome.next.injEq] at h
  rw [← h]
  rfl

end

/-- Settles O50: set and clear by running the event; that nothing else changes the bit by what a step does to STATUS. -/
theorem cmdLostIsSticky : Obligations.CmdLostIsSticky := by
  intro s t hl h
  refine ⟨?_, ?_, fun hne => ?_⟩
  · rintro ⟨td, w, rest, hs, hd, hb⟩
    exact cmdLost_of_dropped hl h hs hd hb
  · rintro (⟨td, w, rest, hs, hd, hw⟩ | ⟨rest, hs⟩)
    · exact cmdLost_of_cleared hl h hs hd hw
    · rw [status_of_reset hl h hs]; rfl
  · rcases step_status hl h with ⟨hst, -⟩ | ⟨td, w, rest, -, -, -, hst⟩ | ⟨td, w, rest, hs, hd, hb, -⟩ |
      ⟨td, w, rest, hs, hd, hst⟩ | ⟨-, -, ⟨c, -, hst⟩ | ⟨r, -, hst⟩⟩ | ⟨hreset, -⟩
    · exact absurd (by rw [hst]) hne
    · exact absurd (by rw [hst, cmdLostBit_statusAccept]) hne
    · exact .inl ⟨td, w, rest, hs, .inl ⟨hd, hb⟩⟩
    · have hw : w.getLsbD 3 = true := by
        by_contra hw
        exact hne (by rw [hst, cmdLostBit_statusW1C, if_neg hw])
      exact .inl ⟨td, w, rest, hs, .inr ⟨hd, hw⟩⟩
    · exact absurd (by rw [hst, cmdLostBit_statusError]) hne
    · exact absurd (by rw [hst, cmdLostBit_statusSuccess]) hne
    · exact .inr hreset

/-! ### The other fields of `STATUS`, R26 to R28 and R30 -/

/-- Settles O51: a dropped command and a `STATUS` write touch `CMDLOST` alone, so the five fields change at the accept
step, the completion step and reset only. -/
theorem statusWriters : Obligations.StatusWriters := by
  intro s t hl h
  rcases step_status hl h with ⟨hst, -⟩ | ⟨td, w, rest, hs, hd, hb, hst⟩ | ⟨td, w, rest, -, -, -, hst⟩ |
    ⟨td, w, rest, -, -, hst⟩ | ⟨hev, hb, ⟨c, hc, hst⟩ | ⟨r, hr, hst⟩⟩ | ⟨hreset, hst⟩
  · exact .inl (by simp [hst])
  · exact .inr (.inl ⟨hb, ⟨td, w, rest, hs, hd⟩, by simp [hst]⟩)
  · exact .inl (by simp [hst])
  · exact .inl (by simp [hst])
  · exact .inr (.inr (.inl ⟨hb, hev, by simp [hst, hc]⟩))
  · exact .inr (.inr (.inl ⟨hb, hev, by simp [hst, hr]⟩))
  · exact .inr (.inr (.inr ⟨hreset, hst⟩))

end Sys2Proof.Machine
end

section
/-! PROOFS. Transactions and the register window, 20_memory.md: where a host access goes, what a read returns, what a
write changes and what it leaves, register by register and byte by byte, and the order of the port's answers. -/

namespace Sys2Proof.Machine

/-! ### Aligned offsets and admitted descriptors, R61 and R63 -/

theorem aligned_iff_mod (off : Offset) : off.extractLsb' 0 3 = 0#3 ↔ off.toNat % 8 = 0 := by
  rw [← BitVec.toNat_inj, BitVec.extractLsb'_toNat, Nat.shiftRight_zero]
  rfl

theorem exists_eq_eight_mul_of_aligned {off : Offset} (ha : off.extractLsb' 0 3 = 0#3) :
    ∃ k < 32, off = BitVec.ofNat 8 (8 * k) := by
  rw [aligned_iff_mod] at ha
  have hlt : off.toNat < 256 := off.isLt
  refine ⟨off.toNat / 8, by omega, ?_⟩
  rw [Nat.mul_div_cancel' (Nat.dvd_of_mod_eq_zero ha), BitVec.ofNat_toNat, BitVec.setWidth_eq]

theorem admitted_make_iff (we : Bool) (size : BitVec 3) (off : Offset) :
    (Descriptor.make we size 0#4 off).admitted = true ↔ size = 3#3 ∧ off.toNat % 8 = 0 := by
  simp [Descriptor.admitted, aligned_iff_mod]

theorem admitted_iff (td : Descriptor) :
    td.admitted = true ↔ td.extractLsb' 12 3 = 3#3 ∧ td.extractLsb' 8 4 = 0#4 ∧ td.extractLsb' 0 3 = 0#3 := by
  have hoff : td.off.extractLsb' 0 3 = td.extractLsb' 0 3 := by
    rw [Descriptor.off, BitVec.extractLsb'_extractLsb'_of_le (by omega)]
  simp [Descriptor.admitted, Descriptor.size, Descriptor.rsv, hoff, and_assoc]

/-! ### Where a host access goes, R60 and R61 -/

theorem hostAccess_inside (write : Bool) (size : BitVec 3) (d : Word) {off : Nat} (hoff : off < 256) :
    hostAccess write size (Config.base + off) d =
      some (.bus (Descriptor.make write size 0#4 (BitVec.ofNat 8 off)) d) := by
  rw [hostAccess, if_pos ⟨Nat.le_add_right _ _, Nat.add_lt_add_left hoff _⟩, Nat.add_sub_cancel_left]

theorem hostAccess_outside (write : Bool) (size : BitVec 3) (d : Word) {addr : Nat}
    (h : addr < Config.base ∨ Config.base + 256 ≤ addr) : hostAccess write size addr d = none :=
  if_neg fun ⟨hlo, hhi⟩ => h.elim hlo.not_gt hhi.not_ge

/-- Settles O6: the descriptor carries the offset of an access inside the window in its eight bits. -/
theorem hostAccessOffset : Obligations.HostAccessOffset := by
  refine ⟨Nat.mul_mod_right 256 Config.basePage, fun write size d off hoff => ?_,
    fun write size d addr => hostAccess_outside write size d⟩
  have htoNat : (BitVec.ofNat 8 off).toNat = off := Nat.mod_eq_of_lt hoff
  refine ⟨_, hostAccess_inside write size d hoff, by simp, by simp, ?_, ?_⟩
  · rw [Descriptor.off_make, htoNat]
  · rw [admitted_make_iff, htoNat]

/-! ### A transaction that is not admitted, R64 -/

theorem decodeBus_error_of_not_admitted {td : Descriptor} (h : ¬ td.admitted = true) (d : Word) :
    ∃ e, decodeBus td d = .error e := by
  cases hd : decodeBus td d with
  | error e => exact ⟨e, rfl⟩
  | ok i =>
    obtain ⟨hadm, -⟩ := decodeBus_ok hd
    exact absurd hadm h

/-- Settles O9: what is not admitted does not decode, and the port's step is `raiseAccessError`. -/
theorem accessErrorChangesNothing : Obligations.AccessErrorChangesNothing := by
  intro s td d rest hn hs hbad
  have hadm : ¬ td.admitted = true := by
    rw [admitted_iff]
    tauto
  obtain ⟨e, he⟩ := decodeBus_error_of_not_admitted hadm d
  rw [step_cons ((reservedCode_eq_false s.status).2 hn) hs, agentStep, busStep_error _ he]
  rfl

/-! ### Reads, R66 -/

/-- Settles O16: each read row answers with a register or with 0, looking at nothing that was answered before. -/
theorem readsHaveNoSideEffects : Obligations.ReadsHaveNoSideEffects := by
  intro i s hr
  cases i with
  | rdStatus => exact ⟨statusRead s.status, fun _ => rfl⟩
  | rdCtrl => exact ⟨ctrlRead s.ctrl, fun _ => rfl⟩
  | rdCmd | rdSampleRate | rdFreq | rdGainDb | rdQ | rdB0 | rdB1 | rdB2 | rdA0 | rdA1 | rdA2
  | rdRsvd38 | rdRsvd70 | rdRsvd80 => exact ⟨_, fun _ => rfl⟩
  | _ => cases hr

/-! ### Writes, R67 and 42_host_access.md R170 -/

section
variable {i : Instr} {s t : State}

theorem exec_wrCmd_idle (w : Word) (hp : s.phase = .idle) : exec (.wrCmd w) s = .next ((s.accept w).respond .ok) := by
  simp [exec, execWrCmd, hp]

theorem exec_wrCmd_busy (w : Word) (hp : s.phase = .busy) : exec (.wrCmd w) s = .next (s.dropCommand.respond .ok) := by
  simp [exec, execWrCmd, hp]

theorem exec_write_responses (hi : i.isBus = true) (hr : i.isRead = false) (h : exec i s = .next t) :
    t.responses = .ok :: s.responses := by
  rcases exec_bus_cases hi h with ⟨hread, -⟩ | ⟨w, -, -, rfl⟩ | ⟨w, -, -, rfl⟩ | ⟨w, -, rfl⟩ | ⟨w, -, rfl⟩ |
    ⟨w, -, rfl⟩ | ⟨w, -, rfl⟩ | ⟨w, -, rfl⟩ | ⟨w, -, rfl⟩ | ⟨-, -, -, -, rfl⟩
  · exact absurd hread (by simp [hr])
  all_goals rfl

theorem exec_bus_operands_frame (hi : i.isBus = true) (h : exec i s = .next t) :
    ((∀ w, i ≠ .wrCtrl w) → t.ctrl = s.ctrl) ∧ ((∀ w, i ≠ .wrSampleRate w) → t.sampleRate = s.sampleRate) ∧
      ((∀ w, i ≠ .wrFreq w) → t.freq = s.freq) ∧ ((∀ w, i ≠ .wrGainDb w) → t.gainDb = s.gainDb) ∧
      ((∀ w, i ≠ .wrQ w) → t.q = s.q) := by
  rcases exec_bus_cases hi h with ⟨-, w, rfl⟩ | ⟨w, -, -, rfl⟩ | ⟨w, -, -, rfl⟩ | ⟨w, -, rfl⟩ | ⟨w, rfl, rfl⟩ |
    ⟨w, rfl, rfl⟩ | ⟨w, rfl, rfl⟩ | ⟨w, rfl, rfl⟩ | ⟨w, rfl, rfl⟩ | ⟨-, -, -, -, rfl⟩ <;> simp

theorem exec_bus_status_frame (hi : i.isBus = true) (h : exec i s = .next t) (hcmd : ∀ w, i ≠ .wrCmd w)
    (hstatus : ∀ w, i ≠ .wrStatus w) : t.status = s.status := by
  rcases exec_bus_cases hi h with ⟨-, w, rfl⟩ | ⟨w, hw, -, -⟩ | ⟨w, hw, -, -⟩ | ⟨w, hw, -⟩ | ⟨w, -, rfl⟩ |
    ⟨w, -, rfl⟩ | ⟨w, -, rfl⟩ | ⟨w, -, rfl⟩ | ⟨w, -, rfl⟩ | ⟨-, -, -, -, rfl⟩
  case inr.inl => exact absurd hw (hcmd w)
  case inr.inr.inl => exact absurd hw (hcmd w)
  case inr.inr.inr.inl => exact absurd hw (hstatus w)
  all_goals rfl

theorem exec_bus_engine_frame (hi : i.isBus = true) (h : exec i s = .next t) (hcmd : ∀ w, i ≠ .wrCmd w) :
    t.phase = s.phase ∧ t.snap = s.snap := by
  rcases exec_bus_cases hi h with ⟨-, w, rfl⟩ | ⟨w, hw, -, -⟩ | ⟨w, hw, -, -⟩ | ⟨w, -, rfl⟩ | ⟨w, -, rfl⟩ |
    ⟨w, -, rfl⟩ | ⟨w, -, rfl⟩ | ⟨w, -, rfl⟩ | ⟨w, -, rfl⟩ | ⟨-, -, -, -, rfl⟩
  case inr.inl => exact absurd hw (hcmd w)
  case inr.inr.inl => exact absurd hw (hcmd w)
  all_goals exact ⟨rfl, rfl⟩

@[simp] theorem statusW1C_statusW1C (st w : Word) : statusW1C (statusW1C st w) w = statusW1C st w := by
  refine BitVec.eq_of_getLsbD_eq fun j _ => ?_
  simp only [getLsbD_statusW1C]
  split_ifs <;> rfl

@[simp] theorem ctrlWrite_ctrlWrite (ctrl w : Word) : ctrlWrite (ctrlWrite ctrl w) w = ctrlWrite ctrl w := by
  refine BitVec.eq_of_getLsbD_eq fun j _ => ?_
  simp only [getLsbD_ctrlWrite]
  split_ifs <;> rfl

theorem exec_write_idempotent (hi : i.isBus = true) (hr : i.isRead = false) (hcmd : ∀ w, i ≠ .wrCmd w)
    (h : exec i s = .next t) : exec i t = .next (t.respond .ok) := by
  rcases exec_bus_cases hi h with ⟨hread, -⟩ | ⟨w, hw, -, -⟩ | ⟨w, hw, -, -⟩ | ⟨w, rfl, rfl⟩ | ⟨w, rfl, rfl⟩ |
    ⟨w, rfl, rfl⟩ | ⟨w, rfl, rfl⟩ | ⟨w, rfl, rfl⟩ | ⟨w, rfl, rfl⟩ | ⟨-, -, -, hignored, -⟩
  · exact absurd hread (by simp [hr])
  · exact absurd hw (hcmd w)
  · exact absurd hw (hcmd w)
  · simp [exec, execWrStatus, State.respond]
  · simp [exec, execWrCtrl, State.respond]
  · rfl
  · rfl
  · rfl
  · rfl
  · exact hignored t

end

/-- Settles O22: each clause by what a transaction of that row does; what changes only by its own write is a frame over
all rows. -/
theorem writeSideEffects : Obligations.WriteSideEffects := by
  intro i s t hi hr h
  obtain ⟨hschedule, hmark, -⟩ := exec_bus_environment hi h
  obtain ⟨hctrl, hsampleRate, hfreq, hgainDb, hq⟩ := exec_bus_operands_frame hi h
  refine ⟨exec_bus_results hi h, hschedule, hmark, exec_write_responses hi hr h, hctrl, ?_, hsampleRate, ?_, hfreq, ?_,
    hgainDb, ?_, hq, ?_, exec_bus_status_frame hi h, ?_, ?_, ?_, fun hcmd => ?_⟩
  · rintro w rfl j
    cases h
    exact getLsbD_ctrlWrite s.ctrl w j
  iterate 4
    · rintro w rfl
      cases h
      rfl
  · rintro w rfl j
    cases h
    exact getLsbD_statusW1C s.status w j
  · rintro w rfl hp
    rw [exec_wrCmd_busy w hp] at h
    cases h
    exact ⟨hp, rfl, getLsbD_statusDropped s.status⟩
  · rintro w rfl hp
    rw [exec_wrCmd_idle w hp] at h
    cases h
    exact ⟨rfl, rfl, getLsbD_statusAccept s.status⟩
  · obtain ⟨hphase, hsnap⟩ := exec_bus_engine_frame hi h hcmd
    exact ⟨hphase, hsnap, exec_write_idempotent hi hr hcmd h⟩

/-! ### Admitted transactions by their offset -/

theorem busStep_admitted (we : Bool) {off : Offset} (ha : off.extractLsb' 0 3 = 0#3) (d : Word) (s : State) {i : Instr}
    (hi : decodeOffset we off d = .ok i) : busStep (Descriptor.make we 3#3 0#4 off) d s = exec i s :=
  busStep_ok s (by simp [decodeBus, ha, hi])

theorem busStep_admitted_answers_next (we : Bool) {off : Offset} (ha : off.extractLsb' 0 3 = 0#3) (d : Word)
    (s : State) : ∃ t, busStep (Descriptor.make we 3#3 0#4 off) d s = .next t := by
  obtain ⟨i, hi⟩ := decodeOffset_total we d ha
  rw [busStep_admitted we ha d s hi]
  exact exec_answers_next i s

/-- The row of a read is the register at its offset. -/
theorem busStep_read {off : Offset} (ha : off.extractLsb' 0 3 = 0#3) (d : Word) (s : State) :
    busStep (Descriptor.make false 3#3 0#4 off) d s = .next (s.respond (.data (s.registerAt off))) := by
  obtain ⟨k, hlt, rfl⟩ := exists_eq_eight_mul_of_aligned ha
  interval_cases k <;> rfl

/-! ### The bytes of the window, R62 -/

theorem toNat_and_0xF8 (a : Offset) : (a &&& 0xF8#8).toNat = a.toNat - a.toNat % 8 := by
  revert a
  decide

theorem toNat_and_0x07 (a : Offset) : (a &&& 0x07#8).toNat = a.toNat % 8 :=
  Nat.and_two_pow_sub_one_eq_mod a.toNat 3

/-- The register whose bytes include the one at `a`. -/
theorem and_0xF8_eq_iff {off : Offset} (ha : off.extractLsb' 0 3 = 0#3) (a : Offset) :
    a &&& 0xF8#8 = off ↔ off.toNat ≤ a.toNat ∧ a.toNat < off.toNat + 8 := by
  rw [aligned_iff_mod] at ha
  rw [← BitVec.toNat_inj, toNat_and_0xF8]
  omega

theorem windowByte_of_mem {off a : Offset} (s : State) (ha : off.extractLsb' 0 3 = 0#3)
    (hmem : off.toNat ≤ a.toNat ∧ a.toNat < off.toNat + 8) :
    s.windowByte a = (s.registerAt off).extractLsb' (8 * (a.toNat - off.toNat)) 8 := by
  have hindex : a.toNat % 8 = a.toNat - off.toNat := by
    rw [aligned_iff_mod] at ha
    omega
  rw [State.windowByte, (and_0xF8_eq_iff ha a).2 hmem, toNat_and_0x07, hindex]

theorem windowByte_congr {s t : State} {a : Offset}
    (h : t.registerAt (a &&& 0xF8#8) = s.registerAt (a &&& 0xF8#8)) : t.windowByte a = s.windowByte a := by
  rw [State.windowByte, State.windowByte, h]

@[simp] theorem State.respond_registerAt (s : State) (r : Response) (off : Offset) :
    (s.respond r).registerAt off = s.registerAt off := rfl

@[simp] theorem State.respond_windowByte (s : State) (r : Response) (a : Offset) :
    (s.respond r).windowByte a = s.windowByte a := rfl

/-- Settles O23: a read answers the register at its offset, of which the window's bytes are a view. -/
theorem windowIsLittleEndian : Obligations.WindowIsLittleEndian := by
  intro off d s ha
  refine ⟨_, _, busStep_read ha d s, rfl, fun i hi => ?_, State.respond_windowByte s _⟩
  have htoNat : (off + BitVec.ofNat 8 i).toNat = off.toNat + i := by
    have haligned := (aligned_iff_mod off).1 ha
    have hlt : off.toNat < 256 := off.isLt
    rw [BitVec.toNat_add, BitVec.toNat_ofNat]
    omega
  rw [windowByte_of_mem s ha (by omega), htoNat, Nat.add_sub_cancel_left]

/-! ### What a write changes in the window, R67 -/

section
variable {off : Offset} {w : Word} {s t : State}

theorem registerAt_of_write_operand (hoff : off = 0x18#8 ∨ off = 0x20#8 ∨ off = 0x28#8 ∨ off = 0x30#8)
    (h : busStep (Descriptor.make true 3#3 0#4 off) w s = .next t) (r : Offset) :
    t.registerAt r = if r = off then w else s.registerAt r := by
  rcases hoff with rfl | rfl | rfl | rfl <;>
  · cases h
    split
    · next hr => rw [hr]; rfl
    · next hr => simp [State.registerAt, hr]

theorem registerAt_of_write_ctrl (h : busStep (Descriptor.make true 3#3 0#4 0x10#8) w s = .next t) (r : Offset) :
    t.registerAt r = if r = 0x10#8 then (BitVec.ofBool (w.getLsbD 0)).setWidth 64 else s.registerAt r := by
  cases h
  split
  · next hr =>
    rw [hr, ← fvalBit_ctrlWrite s.ctrl w]
    rfl
  · next hr => simp [State.registerAt, hr]

/-- The reply apart, a `CMD` write is the accept step or a dropped command, and neither writes a register but `STATUS`. -/
theorem registerAt_of_write_cmd_status (hoff : off = 0x00#8 ∨ off = 0x08#8)
    (h : busStep (Descriptor.make true 3#3 0#4 off) w s = .next t) {r : Offset} (hr : r ≠ 0x08#8) :
    t.registerAt r = s.registerAt r := by
  rcases hoff with rfl | rfl
  · rw [busStep_admitted true rfl w s (i := .wrCmd w) rfl] at h
    cases hp : s.phase with
    | idle =>
      rw [exec_wrCmd_idle w hp] at h
      cases h
      simp [State.registerAt, hr]
    | busy =>
      rw [exec_wrCmd_busy w hp] at h
      cases h
      simp [State.registerAt, hr]
  · cases h
    simp [State.registerAt, hr]

/-- From the first reserved offset on a write finds a reserved offset or a result register. -/
theorem busStep_write_ignored (ha : off.extractLsb' 0 3 = 0#3) (hoff : 0x38 ≤ off.toNat) :
    busStep (Descriptor.make true 3#3 0#4 off) w s = .next (s.respond .ok) := by
  obtain ⟨k, hlt, rfl⟩ := exists_eq_eight_mul_of_aligned ha
  have hk : 7 ≤ k := by
    rw [BitVec.toNat_ofNat] at hoff
    omega
  interval_cases k <;> rfl

/-- A changed register is eight changed bytes. -/
theorem windowByte_of_register_written {v : Word} (ha : off.extractLsb' 0 3 = 0#3)
    (h : ∀ r, t.registerAt r = if r = off then v else s.registerAt r) (a : Offset) :
    t.windowByte a =
      if off.toNat ≤ a.toNat ∧ a.toNat < off.toNat + 8 then v.extractLsb' (8 * (a.toNat - off.toNat)) 8
      else s.windowByte a := by
  split
  · next hmem => rw [windowByte_of_mem t ha hmem, h, if_pos rfl]
  · next hmem =>
    rw [← and_0xF8_eq_iff ha] at hmem
    exact windowByte_congr (by rw [h, if_neg hmem])

/-- Above its lowest byte `CTRL` reads 0. -/
theorem extractLsb'_setWidth_ofBool (b : Bool) (i : Nat) :
    ((BitVec.ofBool b).setWidth 64).extractLsb' (8 * i) 8 = if i = 0 then (BitVec.ofBool b).setWidth 8 else 0#8 := by
  split
  · next hi => subst hi; cases b <;> rfl
  · next hi =>
    refine BitVec.eq_of_getLsbD_eq fun j hj => ?_
    have habove : 1 ≤ 8 * i + j := by omega
    simp [hj, BitVec.getLsbD_of_ge (BitVec.ofBool b) _ habove]

theorem windowByte_ctrl (s : State) {a : Offset} (hmem : 0x10 ≤ a.toNat ∧ a.toNat < 0x18) :
    s.windowByte a = if a = 0x10#8 then (BitVec.ofBool (s.ctrl.getLsbD 0)).setWidth 8 else 0#8 := by
  have hlow : a.toNat - 0x10 = 0 ↔ a = 0x10#8 := by
    rw [← BitVec.toNat_inj]
    change _ ↔ a.toNat = 16
    omega
  rw [windowByte_of_mem (off := 0x10#8) s rfl hmem]
  change ((BitVec.ofBool _).setWidth 64).extractLsb' (8 * (a.toNat - 0x10)) 8 = _
  rw [extractLsb'_setWidth_ofBool, if_congr hlow rfl rfl]
  rfl

theorem windowByte_of_write_ctrl (h : busStep (Descriptor.make true 3#3 0#4 0x10#8) w s = .next t) (a : Offset) :
    t.windowByte a = if a = 0x10#8 then (BitVec.ofBool (w.getLsbD 0)).setWidth 8 else s.windowByte a := by
  have hreg := registerAt_of_write_ctrl h
  by_cases hmem : 0x10 ≤ a.toNat ∧ a.toNat < 0x18
  · have hbit : t.ctrl.getLsbD 0 = w.getLsbD 0 := by
      cases h
      exact fvalBit_ctrlWrite s.ctrl w
    rw [windowByte_ctrl t hmem, windowByte_ctrl s hmem, hbit]
    split <;> rfl
  · have hne : a ≠ 0x10#8 := by
      rintro rfl
      exact hmem (by decide)
    rw [windowByte_of_register_written rfl hreg a, if_neg hne]
    exact if_neg hmem

end

/-- Settles O24: the four kinds of offset each by what their write does to the registers, of which the bytes are a
view. -/
theorem writeFrame : Obligations.WriteFrame := by
  intro off w s ha
  obtain ⟨t, ht⟩ := busStep_admitted_answers_next true ha w s
  refine ⟨t, ht, fun hoff => ?_, ?_, fun hoff a hout => ?_, fun hoff a => ?_⟩
  · exact windowByte_of_register_written ha (registerAt_of_write_operand hoff ht)
  · rintro rfl a
    exact windowByte_of_write_ctrl ht a
  · have hr : a &&& 0xF8#8 ≠ 0x08#8 := fun heq => hout ((and_0xF8_eq_iff rfl a).1 heq)
    exact windowByte_congr (registerAt_of_write_cmd_status hoff ht hr)
  · rw [busStep_write_ignored ha hoff] at ht
    cases ht
    rfl

/-! ### The order of the port, R70 and R199 -/

theorem agentStep_answers {e : Event} {s t : State} (h : agentStep e s = .next t) :
    t.schedule = s.schedule ∧
      ∃ answers, t.responses = answers ++ s.responses ∧ answers.length = if e.isTransaction then 1 else 0 := by
  cases e with
  | bus td d =>
    rw [agentStep] at h
    cases hd : decodeBus td d with
    | ok i =>
      rw [busStep_ok s hd] at h
      obtain ⟨-, -, hbus, -⟩ := decodeBus_ok hd
      obtain ⟨hschedule, -, r, hr⟩ := exec_bus_environment hbus h
      exact ⟨hschedule, [r], hr, rfl⟩
    | error e =>
      rw [busStep_error s hd] at h
      cases h
      exact ⟨rfl, [.accessError], rfl, rfl⟩
  | complete =>
    rw [agentStep] at h
    cases hp : s.phase with
    | idle =>
      rw [engineStep_idle hp] at h
      cases h
      exact ⟨rfl, [], rfl, rfl⟩
    | busy =>
      rw [engineStep_busy hp] at h
      cases h
      obtain ⟨hschedule, -, hresponses⟩ := complete_environment s (evaluate prim s.snap)
      exact ⟨hschedule, [], hresponses, rfl⟩
  | reset =>
    cases h
    exact ⟨rfl, [], rfl, rfl⟩

theorem run_succ_next {n : Nat} {s t : State} (h : s.run (n + 1) = .next t) :
    ∃ u, step s = .next u ∧ u.run n = .next t := by
  rw [State.run] at h
  cases hs : step s with
  | next u => rw [hs] at h; exact ⟨u, rfl, h⟩
  | fault e => rw [hs] at h; cases h
  | refused e => rw [hs] at h; cases h

theorem run_answers (n : Nat) {s t : State} (hl : s.Legal) (hn : n ≤ s.schedule.length) (h : s.run n = .next t) :
    t.schedule = s.schedule.drop n ∧
      ∃ answers, t.responses = answers ++ s.responses ∧
        answers.length = ((s.schedule.take n).filter Event.isTransaction).length := by
  induction n generalizing s with
  | zero =>
    cases h
    exact ⟨rfl, [], rfl, rfl⟩
  | succ n ih =>
    obtain ⟨u, hu, hrun⟩ := run_succ_next h
    have hul : u.Legal := legalIsInvariant s u hl hu
    cases hs : s.schedule with
    | nil =>
      rw [hs] at hn
      cases hn
    | cons e rest =>
      rw [step_cons hl.reservedCode hs] at hu
      obtain ⟨hschedule, first, hfirst, hfirstLen⟩ := agentStep_answers hu
      change u.schedule = rest at hschedule
      have hn' : n ≤ u.schedule.length := by
        rw [hs] at hn
        rw [hschedule]
        exact Nat.le_of_succ_le_succ hn
      obtain ⟨hdrop, later, hlater, hlaterLen⟩ := ih hul hn' hrun
      rw [hschedule] at hdrop hlaterLen
      refine ⟨hdrop, later ++ first, ?_, ?_⟩
      · rw [hlater, hfirst, List.append_assoc]
      · rw [List.length_append, hlaterLen, hfirstLen, List.take_succ_cons, List.filter_cons]
        split <;> simp

/-- Settles O53: each step takes the event at the head and adds one answer exactly if it is a transaction. -/
theorem portOrder : Obligations.PortOrder := fun _ _ n hl hn h => run_answers n hl hn h

end Sys2Proof.Machine
end

section
/-! PROOFS. Decoding and encoding, 30_encoding.md R80 to R86: the decoder and the encoder invert each other on both
formats, exactly one row accepts an admitted descriptor, and a step runs what the decoder answers. -/

namespace Sys2Proof.Machine

open Sys2Proof.Laws.EncodesAdmitted (aligned_of_isRsvd70 aligned_of_isRsvd80)

/-! ### Decoding the encoding, R85 -/

@[simp] theorem decodeBus_admittedTd (we : Bool) {off : Offset} (ha : off.extractLsb' 0 3 = 0#3) (d : Word) :
    decodeBus (admittedTd we off) d = decodeOffset we off d := by
  simp [decodeBus, admittedTd, ha]

theorem decode_encodeRead {off : Offset} (ha : off.extractLsb' 0 3 = 0#3) :
    decode (encodeRead off) = decodeOffset false off 0#64 :=
  decodeBus_admittedTd false ha 0#64

theorem decode_encodeWrite {off : Offset} (ha : off.extractLsb' 0 3 = 0#3) (w : Word) :
    decode (encodeWrite off w) = decodeOffset true off w :=
  decodeBus_admittedTd true ha w

theorem decodeOffset_rsvd70 (we : Bool) {off : Offset} (h : off.isRsvd70 = true) (d : Word) :
    decodeOffset we off d = .ok (if we then .wrRsvd70 off d else .rdRsvd70 off) := by
  have hoff : off = 0x70#8 ∨ off = 0x78#8 := by simpa [Offset.isRsvd70] using h
  rcases hoff with rfl | rfl <;> rfl

/-- The offsets of `RSVD_80` are the aligned ones of the window's upper half. -/
theorem le_toNat_of_isRsvd80 {off : Offset} (h : off.isRsvd80 = true) : 0x80 ≤ off.toNat := by
  have hmsb : off.msb = true := by
    rw [BitVec.msb_eq_getLsbD_last]
    exact (Bool.and_eq_true_iff.1 h).1
  exact BitVec.toNat_ge_of_msb_true hmsb

theorem decodeOffset_rsvd80 (we : Bool) {off : Offset} (h : off.isRsvd80 = true) (d : Word) :
    decodeOffset we off d = .ok (if we then .wrRsvd80 off d else .rdRsvd80 off) := by
  have hge := le_toNat_of_isRsvd80 h
  obtain ⟨k, hlt, rfl⟩ := exists_eq_eight_mul_of_aligned (aligned_of_isRsvd80 h)
  have hk : 16 ≤ k := by
    rw [BitVec.toNat_ofNat] at hge
    omega
  interval_cases k <;> rfl

/-- Settles O1: the decoder runs on the word of each row; only the rows with an offset operand need the offset to be
theirs. -/
theorem decodeOfEncode : Obligations.DecodeOfEncode := by
  intro i hw
  cases i with
  | rdRsvd70 off => exact (decode_encodeRead (aligned_of_isRsvd70 hw)).trans (decodeOffset_rsvd70 false hw 0#64)
  | wrRsvd70 off w => exact (decode_encodeWrite (aligned_of_isRsvd70 hw) w).trans (decodeOffset_rsvd70 true hw w)
  | rdRsvd80 off => exact (decode_encodeRead (aligned_of_isRsvd80 hw)).trans (decodeOffset_rsvd80 false hw 0#64)
  | wrRsvd80 off w => exact (decode_encodeWrite (aligned_of_isRsvd80 hw) w).trans (decodeOffset_rsvd80 true hw w)
  | computeLowpass | computeHighpass | computeBpskirt | computeBppeak | computeNotch | computeAllpass | computePeaking
  | computeLowshelf | computeHighshelf => rfl
  | rdCmd | rdStatus | rdCtrl | rdSampleRate | rdFreq | rdGainDb | rdQ | rdB0 | rdB1 | rdB2 | rdA0 | rdA1 | rdA2
  | rdRsvd38 => exact decode_encodeRead rfl
  | wrCmd w | wrStatus w | wrCtrl w | wrSampleRate w | wrFreq w | wrGainDb w | wrQ w | wrB0 w | wrB1 w | wrB2 w
  | wrA0 w | wrA1 w | wrA2 w | wrRsvd38 w => exact decode_encodeWrite rfl w

/-! ### The command word, R82 and R83 -/

theorem decodeCmd_of_kind {w : Word} {k : FilterKind} (h : kindOfWord w = some k) : decodeCmd w = .ok (.compute k) := by
  simp [decodeCmd, h]

theorem decodeCmd_of_no_kind {w : Word} (h : kindOfWord w = none) : decodeCmd w = .error .kindUnsupported := by
  simp [decodeCmd, h]

theorem decodeCmd_eq_ok_iff (w : Word) (i : Instr) :
    decodeCmd w = .ok i ↔ ∃ k, w.toNat = FilterKind.code k ∧ i = .compute k := by
  constructor
  · intro h
    obtain ⟨k, hk, rfl⟩ := decodeCmd_ok h
    exact ⟨k, (kindOfWord_eq_some w k).1 hk, rfl⟩
  · rintro ⟨k, hk, rfl⟩
    exact decodeCmd_of_kind ((kindOfWord_eq_some w k).2 hk)

/-- Settles O4: the word is compared whole with the nine codes, and the table is read off the definitions. -/
theorem commandWordIsKind : Obligations.CommandWordIsKind := ⟨decodeCmd_eq_ok_iff, rfl⟩

@[simp] theorem wellFormed_compute (k : FilterKind) : (Instr.compute k).wellFormed = true := by
  cases k <;> rfl

theorem encode_compute (k : FilterKind) : encode (.compute k) = .cmd (BitVec.ofNat 64 k.code) := by
  cases k <;> rfl

theorem code_le_eight (k : FilterKind) : k.code ≤ 8 := by
  cases k <;> decide

/-! ### Encoding what was decoded -/

/-- Settles O2: a bus row by its direction and offset, which make up its descriptor; a command by its code. -/
theorem encodeOfDecode : Obligations.EncodeOfDecode := by
  refine ⟨fun td data i h => ?_, fun w i h => ?_⟩
  · obtain ⟨-, hwf, -, -, henc⟩ := decodeBus_ok h
    exact ⟨hwf, henc⟩
  · obtain ⟨k, hk, rfl⟩ := (decodeCmd_eq_ok_iff w i).1 h
    have hcode : k.code < 2 ^ 64 := (code_le_eight k).trans_lt (by norm_num)
    have hw : w = BitVec.ofNat 64 k.code := (ofNat_eq_iff w hcode).2 hk
    rw [hw]
    exact ⟨wellFormed_compute k, encode_compute k⟩

/-! ### Exactly one row, R85 -/

theorem admitted_iff_exists_make (td : Descriptor) :
    td.admitted = true ↔ ∃ (we : Bool) (k : Fin 32), td = Descriptor.make we 3#3 0#4 (BitVec.ofNat 8 (8 * k.val)) := by
  constructor
  · intro h
    obtain ⟨⟨hsize, hrsv⟩, ha⟩ : (td.size = 3#3 ∧ td.rsv = 0#4) ∧ td.off.extractLsb' 0 3 = 0#3 := by
      simpa [Descriptor.admitted] using h
    obtain ⟨k, hlt, hoff⟩ := exists_eq_eight_mul_of_aligned ha
    refine ⟨td.we, ⟨k, hlt⟩, ?_⟩
    rw [← hsize, ← hrsv, ← hoff]
    exact Descriptor.eq_make td
  · rintro ⟨we, k, rfl⟩
    refine (admitted_make_iff we 3#3 _).2 ⟨rfl, ?_⟩
    rw [BitVec.toNat_ofNat]
    omega

/-- The 64 admitted descriptors by direction and offset: the table holds one row for each, that of the decoded
instruction. -/
theorem exists_accepting_row (we : Bool) (k : Fin 32) (d : Word) :
    ∃ r, busTable.filter (fun r' => r'.accepts (Descriptor.make we 3#3 0#4 (BitVec.ofNat 8 (8 * k.val)))) = [r] ∧
      ∃ i, decodeBus (Descriptor.make we 3#3 0#4 (BitVec.ofNat 8 (8 * k.val))) d = .ok i ∧
        i.mnemonic = r.mnemonic := by
  cases we <;> fin_cases k <;> exact ⟨_, rfl, _, rfl, rfl⟩

theorem accepts_iff_of_filter_eq_singleton {td : Descriptor} {r : BusRow}
    (h : busTable.filter (fun r' => r'.accepts td) = [r]) {r' : BusRow} (hr' : r' ∈ busTable) :
    r'.accepts td = true ↔ r' = r := by
  have hmem : r' ∈ busTable.filter (fun r' => r'.accepts td) ↔ r' = r := by rw [h, List.mem_singleton]
  rwa [List.mem_filter, and_iff_right hr'] at hmem

theorem exists_kind_of_le_eight {w : Word} (h : w.toNat ≤ 8) : ∃ k, kindOfWord w = some k :=
  Option.ne_none_iff_exists'.1 fun hnone => h.not_gt ((kindOfWord_eq_none w).1 hnone)

/-- Settles O3: the admitted descriptors are enumerated by direction and offset, the command words by their kind. -/
theorem exactlyOneRow : Obligations.ExactlyOneRow := by
  refine ⟨admitted_iff_exists_make, fun td d hadm => ?_, fun td d hadm => ?_, fun w hw => ?_, fun w hw => ?_⟩
  · obtain ⟨we, k, rfl⟩ := (admitted_iff_exists_make td).1 hadm
    obtain ⟨r, hfilter, i, hd, hmnemonic⟩ := exists_accepting_row we k d
    have hmem : r ∈ busTable := List.mem_of_mem_filter (hfilter ▸ List.mem_singleton_self r)
    obtain ⟨-, -, -, hread, -⟩ := decodeBus_ok hd
    exact ⟨r, hmem, fun _ => accepts_iff_of_filter_eq_singleton hfilter, i, hd, hmnemonic, hread⟩
  · exact decodeBus_error_of_not_admitted (Bool.eq_false_iff.1 hadm) d
  · obtain ⟨k, hk⟩ := exists_kind_of_le_eight hw
    exact ⟨k, ((kindOfWord_eq_some w k).1 hk).symm, decodeCmd_of_kind hk⟩
  · exact decodeCmd_of_no_kind ((kindOfWord_eq_none w).2 hw)

/-! ### Steps run what was decoded -/

theorem State.NoReservedCode.reservedCode {s : State} (h : s.NoReservedCode) : reservedCode s.status = false :=
  (reservedCode_eq_false s.status).2 h

theorem engineStep_ok {s : State} {i : Instr} (hp : s.phase = .busy) (h : decodeCmd s.snap.kind = .ok i) :
    engineStep s = exec i s := by
  simp [engineStep, hp, h]

/-- Settles O7: the step of the event at hand, or the one left when none is, by the agent's own rule. -/
theorem stepRunsDecodedInstruction : Obligations.StepRunsDecodedInstruction := by
  refine ⟨fun s td d rest i hn hs hd => ?_, fun s rest i hn hp hs hd => ?_, fun s i hn hp hs hd => ?_,
    fun s rest hn hs => step_cons hn.reservedCode hs, fun s hn hs => ?_⟩
  · rw [step_cons hn.reservedCode hs, agentStep, busStep_ok _ hd]
  · rw [step_cons hn.reservedCode hs, agentStep]
    exact engineStep_ok hp hd
  · rw [step_nil_busy hn.reservedCode hs hp, engineStep_ok hp hd]
  · cases hp : s.phase with
    | busy => exact step_nil_busy hn.reservedCode hs hp
    | idle => exact step_nil_idle hn.reservedCode hs hp

end Sys2Proof.Machine
end

section
/-! PROOFS. The arithmetic of binary64, R101 and R102: the five operations round to nearest even, what they give for
special operands and as signs, and the product 2π. -/

namespace Sys2Proof.Machine

/-! ### The operations on finite operands -/

theorem exists_fin_of_isFinite {x : F64} (hx : isFinite x = true) : ∃ neg m, x = .fin neg m := by
  cases x with
  | nan => cases hx
  | inf _ => cases hx
  | fin neg m => exact ⟨neg, m, rfl⟩

theorem fadd_fin_fin (a b : Bool) (m n : Fin magBound) : fadd (.fin a m) (.fin b n) = addFinite a m.val b n.val := by
  unfold fadd
  rfl

theorem fmul_fin_fin (a b : Bool) (m n : Fin magBound) :
    fmul (.fin a m) (.fin b n) = roundQuotient (a ^^ b) (units m.val * units n.val) (2 ^ 1074) := by
  unfold fmul
  rfl

theorem fsqrt_fin (neg : Bool) (m : Fin magBound) :
    fsqrt (.fin neg m) =
      if m.val = 0 then .fin neg m
      else if neg then .nan
      else ofMag false (roundSqrtMag (units m.val * 2 ^ 1074)) := by
  unfold fsqrt
  rfl

@[simp] theorem toRat_fneg (x : F64) : (fneg x).toRat = -x.toRat := by
  cases x with
  | nan => simp [fneg, F64.toRat]
  | inf _ => simp [fneg, F64.toRat]
  | fin neg m => cases neg <;> simp [fneg, F64.toRat, signedUnits, neg_div]

@[simp] theorem isFinite_fneg (x : F64) : isFinite (fneg x) = isFinite x := by
  cases x <;> rfl

theorem toRat_fin_eq_zero_iff (neg : Bool) (m : Fin magBound) : (F64.fin neg m).toRat = 0 ↔ m.val = 0 := by
  constructor
  · intro h
    by_contra hm
    exact signedUnits_ne_zero hm neg (by simpa [F64.toRat] using h)
  · intro h
    simp [F64.toRat, signedUnits, h]

theorem cast_signedUnits (neg : Bool) (m : Nat) : (signedUnits neg m : ℝ) = withSign neg (units m) := by
  cases neg <;> simp [signedUnits, withSign]

@[simp] theorem withSign_false (v : ℝ) : withSign false v = v := rfl

theorem withSign_div (neg : Bool) (u c : ℝ) : withSign neg u / c = withSign neg (u / c) := by
  cases neg <;> simp [withSign, neg_div]

theorem withSign_mul_withSign (a b : Bool) (u v : ℝ) : withSign a u * withSign b v = withSign (a ^^ b) (u * v) := by
  cases a <;> cases b <;> simp [withSign]

theorem withSign_div_withSign (a b : Bool) (u v : ℝ) : withSign a u / withSign b v = withSign (a ^^ b) (u / v) := by
  cases a <;> cases b <;> simp [withSign, neg_div, div_neg]

/-! ### Rounding to nearest even, R101 -/

theorem roundsTo_roundQuotient (neg : Bool) (n : Nat) {d : Nat} (hd : 0 < d) :
    RoundsTo (withSign neg ((n : ℝ) / d) / 2 ^ 1074) (roundQuotient neg n d) :=
  (roundMag_nearest n hd).roundsTo (by positivity) neg

theorem nearest_zero : Nearest 0 0 :=
  ⟨fun k => by simp, fun _ _ _ => rfl⟩

theorem roundsTo_ofMag_zero (neg : Bool) : RoundsTo 0 (ofMag neg 0) := by
  have h := nearest_zero.roundsTo le_rfl neg
  cases neg <;> simpa [withSign] using h

theorem withSign_natAbs (v : ℤ) : withSign (decide (v < 0)) (v.natAbs : ℝ) = v := by
  rw [Nat.cast_natAbs, Int.cast_abs]
  by_cases h : v < 0
  · have hr : (v : ℝ) < 0 := by exact_mod_cast h
    simp [withSign, h, abs_of_neg hr]
  · have hr : (0 : ℝ) ≤ v := by exact_mod_cast not_lt.1 h
    simp [withSign, h, abs_of_nonneg hr]

theorem roundsTo_addFinite (a : Bool) (m : Nat) (b : Bool) (n : Nat) :
    RoundsTo (withSign a (units m : ℝ) / 2 ^ 1074 + withSign b (units n : ℝ) / 2 ^ 1074) (addFinite a m b n) := by
  have hsum : withSign a (units m : ℝ) / 2 ^ 1074 + withSign b (units n : ℝ) / 2 ^ 1074 =
      ((signedUnits a m + signedUnits b n : ℤ) : ℝ) / 2 ^ 1074 := by
    rw [Int.cast_add, cast_signedUnits, cast_signedUnits, add_div]
  rw [hsum]
  simp only [addFinite, forceInt_eq, forceNat_eq]
  generalize signedUnits a m + signedUnits b n = v
  split
  · next h0 => simpa [h0] using roundsTo_ofMag_zero (a && b)
  · have h := roundsTo_roundQuotient (decide (v < 0)) v.natAbs one_pos
    rwa [Nat.cast_one, div_one, withSign_natAbs] at h

section
variable {x y : F64}

theorem roundsTo_fadd (hx : isFinite x = true) (hy : isFinite y = true) :
    RoundsTo ((x.toRat : ℝ) + (y.toRat : ℝ)) (fadd x y) := by
  obtain ⟨a, m, rfl⟩ := exists_fin_of_isFinite hx
  obtain ⟨b, n, rfl⟩ := exists_fin_of_isFinite hy
  rw [toRat_fin, toRat_fin, fadd_fin_fin]
  exact roundsTo_addFinite a m.val b n.val

/-- A difference is the sum with the negated operand. -/
theorem roundsTo_fsub (hx : isFinite x = true) (hy : isFinite y = true) :
    RoundsTo ((x.toRat : ℝ) - (y.toRat : ℝ)) (fsub x y) := by
  have h := roundsTo_fadd hx ((isFinite_fneg y).trans hy)
  rwa [toRat_fneg, Rat.cast_neg, ← sub_eq_add_neg] at h

theorem roundsTo_fmul (hx : isFinite x = true) (hy : isFinite y = true) :
    RoundsTo ((x.toRat : ℝ) * (y.toRat : ℝ)) (fmul x y) := by
  obtain ⟨a, m, rfl⟩ := exists_fin_of_isFinite hx
  obtain ⟨b, n, rfl⟩ := exists_fin_of_isFinite hy
  have h := roundsTo_roundQuotient (a ^^ b) (units m.val * units n.val) (Nat.two_pow_pos 1074)
  rw [toRat_fin, toRat_fin, fmul_fin_fin, withSign_div, withSign_div, withSign_mul_withSign, div_mul_div_comm,
    ← div_div, ← withSign_div]
  rwa [Nat.cast_mul, Nat.cast_pow, Nat.cast_ofNat] at h

theorem roundsTo_fdiv (hx : isFinite x = true) (hy : isFinite y = true) (h0 : y.toRat ≠ 0) :
    RoundsTo ((x.toRat : ℝ) / (y.toRat : ℝ)) (fdiv x y) := by
  obtain ⟨a, m, rfl⟩ := exists_fin_of_isFinite hx
  obtain ⟨b, n, rfl⟩ := exists_fin_of_isFinite hy
  have hn : 0 < n.val := mag_pos h0
  have h := roundsTo_roundQuotient (a ^^ b) (units m.val * 2 ^ 1074) (units_pos hn)
  have hP : (2 : ℝ) ^ 1074 ≠ 0 := by positivity
  rw [toRat_fin, toRat_fin, fdiv_fin_fin, if_neg hn.ne', div_div_div_cancel_right₀ hP, withSign_div_withSign]
  rwa [Nat.cast_mul, Nat.cast_pow, Nat.cast_ofNat, withSign_div, mul_div_right_comm, mul_div_cancel_right₀ _ hP] at h

theorem sqrt_units (m : Nat) : √((units m : ℝ) / 2 ^ 1074) = √((units m * 2 ^ 1074 : ℕ) : ℝ) / 2 ^ 1074 := by
  have hP : (0 : ℝ) < 2 ^ 1074 := by positivity
  have hsquare : (units m : ℝ) / 2 ^ 1074 = ((units m * 2 ^ 1074 : ℕ) : ℝ) / (2 ^ 1074) ^ 2 := by
    rw [Nat.cast_mul, Nat.cast_pow, Nat.cast_ofNat]
    generalize (2 : ℝ) ^ 1074 = P at hP ⊢
    field_simp
  rw [hsquare, Real.sqrt_div (Nat.cast_nonneg _), Real.sqrt_sq hP.le]

theorem roundsTo_ofMag_roundSqrtMag (n : Nat) : RoundsTo (√(n : ℝ) / 2 ^ 1074) (ofMag false (roundSqrtMag n)) :=
  (roundSqrtMag_nearest n).roundsTo (Real.sqrt_nonneg _) false

theorem roundsTo_fsqrt (hx : isFinite x = true) (h0 : 0 ≤ x.toRat) : RoundsTo (√(x.toRat : ℝ)) (fsqrt x) := by
  obtain ⟨neg, m, rfl⟩ := exists_fin_of_isFinite hx
  rw [fsqrt_fin]
  split
  · next hm =>
    have hzero := roundsTo_ofMag_zero neg
    rw [(toRat_fin_eq_zero_iff neg m).2 hm, Rat.cast_zero, Real.sqrt_zero, ← ofMag_fin, hm]
    exact hzero
  · next hm =>
    have hpos : (0 : ℝ) < units m.val := by exact_mod_cast units_pos (Nat.pos_of_ne_zero hm)
    have hR : (0 : ℝ) ≤ (F64.fin neg m).toRat := by exact_mod_cast h0
    rw [toRat_fin] at hR ⊢
    cases neg with
    | true =>
      have hneg : withSign true (units m.val : ℝ) / 2 ^ 1074 < 0 :=
        div_neg_of_neg_of_pos (neg_neg_of_pos hpos) (by positivity)
      exact absurd hR hneg.not_ge
    | false =>
      rw [withSign_false, sqrt_units, if_neg Bool.false_ne_true]
      exact roundsTo_ofMag_roundSqrtMag _

end

/-! ### Finite results -/

/-- A value below the overflow bound rounds to a finite one. -/
theorem isFinite_of_roundsTo {v : ℝ} {y : F64} (h : RoundsTo v y) (hv : |v| < (overflowBound : ℝ)) :
    isFinite y = true := by
  obtain ⟨hlow, hhigh⟩ := abs_lt.1 hv
  cases y with
  | nan => exact h.elim
  | inf neg =>
    cases neg with
    | false => exact absurd h hhigh.not_ge
    | true => exact absurd h hlow.not_ge
  | fin neg m => rfl

/-- Settles O55: each operation rounds the exact result once, counted in units. -/
theorem operationsRoundToNearestEven : Obligations.OperationsRoundToNearestEven :=
  fun _ _ hx hy =>
    ⟨roundsTo_fadd hx hy, roundsTo_fsub hx hy, roundsTo_fmul hx hy, roundsTo_fdiv hx hy, roundsTo_fsqrt hx⟩

/-! ### Special operands and signs -/

@[simp] theorem fadd_nan_left (x : F64) : fadd .nan x = .nan := by
  unfold fadd
  rfl

@[simp] theorem fadd_nan_right (x : F64) : fadd x .nan = .nan := by
  unfold fadd
  cases x <;> rfl

@[simp] theorem fmul_nan_left (x : F64) : fmul .nan x = .nan := by
  unfold fmul
  rfl

@[simp] theorem fmul_nan_right (x : F64) : fmul x .nan = .nan := by
  rw [fmul_comm, fmul_nan_left]

@[simp] theorem fdiv_nan_left (x : F64) : fdiv .nan x = .nan := by
  unfold fdiv
  rfl

@[simp] theorem fdiv_nan_right (x : F64) : fdiv x .nan = .nan := by
  unfold fdiv
  cases x <;> rfl

@[simp] theorem fsqrt_nan : fsqrt .nan = .nan := by
  unfold fsqrt
  rfl

@[simp] theorem fadd_inf_inf (a b : Bool) : fadd (.inf a) (.inf b) = if a = b then .inf a else .nan := by
  unfold fadd
  rfl

@[simp] theorem fadd_inf_fin (a b : Bool) (n : Fin magBound) : fadd (.inf a) (.fin b n) = .inf a := by
  unfold fadd
  rfl

@[simp] theorem fadd_fin_inf (a b : Bool) (m : Fin magBound) : fadd (.fin a m) (.inf b) = .inf b := by
  unfold fadd
  rfl

@[simp] theorem fmul_inf_inf (a b : Bool) : fmul (.inf a) (.inf b) = .inf (a ^^ b) := by
  unfold fmul
  rfl

@[simp] theorem fmul_inf_fin (a b : Bool) (n : Fin magBound) :
    fmul (.inf a) (.fin b n) = if n.val = 0 then .nan else .inf (a ^^ b) := by
  unfold fmul
  rfl

@[simp] theorem fdiv_inf_inf (a b : Bool) : fdiv (.inf a) (.inf b) = .nan := by
  unfold fdiv
  rfl

@[simp] theorem fdiv_inf_fin (a b : Bool) (n : Fin magBound) : fdiv (.inf a) (.fin b n) = .inf (a ^^ b) := by
  unfold fdiv
  rfl

@[simp] theorem fsqrt_inf (a : Bool) : fsqrt (.inf a) = if a then .nan else .inf false := by
  unfold fsqrt
  rfl

theorem ofMag_zero (neg : Bool) : ofMag neg 0 = if neg then fneg zero else zero := by
  cases neg <;> rfl

/-- An exact zero sum is +0, unless both operands are negative. -/
theorem fadd_eq_zero {x y : F64} (hx : isFinite x = true) (hy : isFinite y = true) (h : x.toRat + y.toRat = 0) :
    fadd x y = if x.sign && y.sign then fneg zero else zero := by
  obtain ⟨a, m, rfl⟩ := exists_fin_of_isFinite hx
  obtain ⟨b, n, rfl⟩ := exists_fin_of_isFinite hy
  have hsum : signedUnits a m.val + signedUnits b n.val = 0 := by
    have hP : (2 : ℚ) ^ 1074 ≠ 0 := by positivity
    rw [F64.toRat, F64.toRat, ← add_div, div_eq_zero_iff, or_iff_left hP] at h
    exact_mod_cast h
  rw [fadd_fin_fin, addFinite, forceInt_eq, hsum, if_pos rfl, ofMag_zero]
  rfl

theorem sign_fmul {x y : F64} (hx : isFinite x = true) (hy : isFinite y = true) :
    (fmul x y).sign = (x.sign ^^ y.sign) := by
  obtain ⟨a, m, rfl⟩ := exists_fin_of_isFinite hx
  obtain ⟨b, n, rfl⟩ := exists_fin_of_isFinite hy
  rw [fmul_fin_fin, sign_roundQuotient]
  rfl

theorem sign_fdiv {x y : F64} (hx : isFinite x = true) (hy : isFinite y = true) (h0 : y.toRat ≠ 0) :
    (fdiv x y).sign = (x.sign ^^ y.sign) := by
  obtain ⟨a, m, rfl⟩ := exists_fin_of_isFinite hx
  obtain ⟨b, n, rfl⟩ := exists_fin_of_isFinite hy
  rw [fdiv_fin_fin, if_neg (mag_pos h0).ne', sign_roundQuotient]
  rfl

theorem fdiv_by_zero {x y : F64} (hx : isFinite x = true) (hy : isFinite y = true) (h0 : y.toRat = 0) :
    fdiv x y = if x.toRat = 0 then .nan else .inf (x.sign ^^ y.sign) := by
  obtain ⟨a, m, rfl⟩ := exists_fin_of_isFinite hx
  obtain ⟨b, n, rfl⟩ := exists_fin_of_isFinite hy
  rw [fdiv_fin_fin, if_pos ((toRat_fin_eq_zero_iff b n).1 h0)]
  simp only [toRat_fin_eq_zero_iff]
  rfl

theorem fsqrt_of_neg {x : F64} (hx : isFinite x = true) (h : x.toRat < 0) : fsqrt x = .nan := by
  obtain ⟨neg, m, rfl⟩ := exists_fin_of_isFinite hx
  have hm : m.val ≠ 0 := (mag_pos h.ne).ne'
  cases neg with
  | true => rw [fsqrt_fin, if_neg hm, if_pos rfl]
  | false =>
    have hnonneg : (0 : ℚ) ≤ (F64.fin false m).toRat := by
      rw [toRat_eq_sign_mul, if_neg Bool.false_ne_true]
      positivity
    exact absurd h hnonneg.not_gt

theorem fsqrt_of_zero {x : F64} (hx : isFinite x = true) (h : x.toRat = 0) : fsqrt x = x := by
  obtain ⟨neg, m, rfl⟩ := exists_fin_of_isFinite hx
  rw [fsqrt_fin, if_pos ((toRat_fin_eq_zero_iff neg m).1 h)]

theorem sign_fneg_of_isFinite {x : F64} (hx : isFinite x = true) : (fneg x).sign = !x.sign := by
  obtain ⟨neg, m, rfl⟩ := exists_fin_of_isFinite hx
  rfl

/-- Settles O60: NaNs and infinities by the operations' cases; zeros and signs from the magnitudes. -/
theorem specialOperandsAndSigns : Obligations.SpecialOperandsAndSigns := by
  refine ⟨fun x => ?_, fun a b => ?_, fun a x hx => ?_, fun x hx => ⟨fsqrt_of_neg hx, fsqrt_of_zero hx⟩,
    fun x y hx hy => ⟨fadd_eq_zero hx hy, fun h => ?_, sign_fmul hx hy, sign_fdiv hx hy, fdiv_by_zero hx hy⟩⟩
  · exact ⟨fadd_nan_left x, fadd_nan_right x, fadd_nan_left (fneg x), fadd_nan_right x, fmul_nan_left x,
      fmul_nan_right x, fdiv_nan_left x, fdiv_nan_right x, fsqrt_nan⟩
  · refine ⟨fadd_inf_inf a b, ?_, fmul_inf_inf a b, fdiv_inf_inf a b, fsqrt_inf a, rfl⟩
    have hsub : fsub (.inf a) (.inf b) = fadd (.inf a) (.inf (!b)) := rfl
    rw [hsub, fadd_inf_inf]
    cases a <;> cases b <;> rfl
  · obtain ⟨b, n, rfl⟩ := exists_fin_of_isFinite hx
    simp only [toRat_fin_eq_zero_iff]
    refine ⟨fadd_inf_fin a b n, fadd_fin_inf b a n, fadd_inf_fin a (!b) n, fadd_fin_inf b (!a) n,
      fmul_inf_fin a b n, ?_, fdiv_inf_fin a b n, ?_, rfl, rfl⟩
    · rw [fmul_comm, fmul_inf_fin, Bool.xor_comm]
      rfl
    · rw [fdiv_fin_inf, ofMag_zero]
      rfl
  · have hsum : x.toRat + (fneg y).toRat = 0 := by
      rw [toRat_fneg, h, add_neg_cancel]
    rw [fsub, fadd_eq_zero hx ((isFinite_fneg y).trans hy) hsum, sign_fneg_of_isFinite hy]

/-! ### Doubling, and 2π, R102 -/

/-- A step of the exponent field doubles a normal value. -/
theorem units_add_exponent {m : Nat} (h : 2 ^ 52 ≤ m) : units (m + 2 ^ 52) = 2 * units m := by
  obtain hlt | ⟨e, f, he, hf, rfl⟩ := mag_cases m
  · exact absurd h hlt.not_ge
  · have hnext : 2 ^ 52 * e + f + 2 ^ 52 = 2 ^ 52 * (e + 1) + f := by ring
    obtain ⟨e, rfl⟩ : ∃ e', e = e' + 1 := ⟨e - 1, (Nat.sub_add_cancel he).symm⟩
    rw [hnext, units_normal _ f (Nat.le_add_left 1 _) hf, units_normal _ f he hf, Nat.add_sub_cancel,
      Nat.add_sub_cancel, pow_succ]
    ring

theorem units_two : units 0x4000000000000000 = 2 * 2 ^ 1074 := by
  rw [← units_one]
  exact units_add_exponent (by norm_num)

theorem fmul_two_of_normal {neg : Bool} {m : Fin magBound} (h : 2 ^ 52 ≤ m.val) (hlt : m.val + 2 ^ 52 < magBound) :
    fmul two (.fin neg m) = .fin neg ⟨m.val + 2 ^ 52, hlt⟩ := by
  rw [two, fmul_fin_fin, Bool.false_xor]
  refine roundQuotient_exact neg ⟨m.val + 2 ^ 52, hlt⟩ (Nat.two_pow_pos 1074) ?_
  rw [units_two, units_add_exponent h, Nat.mul_right_comm]

theorem toRat_add_exponent {neg : Bool} {m : Fin magBound} (h : 2 ^ 52 ≤ m.val) (hlt : m.val + 2 ^ 52 < magBound) :
    (F64.fin neg ⟨m.val + 2 ^ 52, hlt⟩).toRat = 2 * (F64.fin neg m).toRat := by
  rw [toRat_eq_sign_mul, toRat_eq_sign_mul, units_add_exponent h, Nat.cast_mul, Nat.cast_ofNat]
  ring

@[simp] theorem toRat_one : one.toRat = 1 := by
  have hP : (2 : ℚ) ^ 1074 ≠ 0 := by positivity
  rw [one, toRat_eq_sign_mul, if_neg Bool.false_ne_true, one_mul, units_one, Nat.cast_pow, Nat.cast_ofNat, div_self hP]

@[simp] theorem toRat_two : two.toRat = 2 := by
  have h : two.toRat = 2 * one.toRat :=
    toRat_add_exponent (m := ⟨0x3FF0000000000000, by decide⟩) (by norm_num) (by norm_num)
  rw [h, toRat_one, mul_one]

/-- `PI64` in units: its fraction 0x921FB54442D18 with the hidden bit, at the exponent of 2. -/
theorem units_pi64 : units 0x400921FB54442D18 = 0x1921FB54442D18 * 2 ^ 1023 := by
  rw [show 0x400921FB54442D18 = 2 ^ 52 * 1024 + 0x921FB54442D18 by norm_num,
    units_normal _ _ (by norm_num) (by norm_num),
    show 2 ^ 52 + 0x921FB54442D18 = 0x1921FB54442D18 by norm_num]

theorem units_above_pi64 : units (0x400921FB54442D18 + 1) = 0x1921FB54442D19 * 2 ^ 1023 := by
  rw [show 0x400921FB54442D18 + 1 = 2 ^ 52 * 1024 + 0x921FB54442D19 by norm_num,
    units_normal _ _ (by norm_num) (by norm_num),
    show 2 ^ 52 + 0x921FB54442D19 = 0x1921FB54442D19 by norm_num]

/-- π lies above `PI64` and nearer to it than to the next value. -/
theorem nearest_pi64 : Nearest (Real.pi * 2 ^ 1074) 0x400921FB54442D18 := by
  have hscale : Real.pi * 2 ^ 1074 = Real.pi * 2 ^ 51 * 2 ^ 1023 := by rw [mul_assoc, ← pow_add]
  have hlow : (0x1921FB54442D18 : ℝ) ≤ Real.pi * 2 ^ 51 := by linarith [Real.pi_gt_d20]
  have hhigh : 2 * (Real.pi * 2 ^ 51) < (0x1921FB54442D18 : ℝ) + 0x1921FB54442D19 := by linarith [Real.pi_lt_d20]
  have hle : (units 0x400921FB54442D18 : ℝ) ≤ Real.pi * 2 ^ 1074 := by
    rw [units_pi64, hscale, Nat.cast_mul, Nat.cast_pow, Nat.cast_ofNat, Nat.cast_ofNat]
    gcongr
  have hmid : 2 * (Real.pi * 2 ^ 1074) < units 0x400921FB54442D18 + units (0x400921FB54442D18 + 1) := by
    rw [units_pi64, units_above_pi64, hscale, Nat.cast_mul, Nat.cast_mul, Nat.cast_pow, Nat.cast_ofNat, Nat.cast_ofNat,
      Nat.cast_ofNat, ← mul_assoc, ← add_mul]
    gcongr
  have hlt : (units 0x400921FB54442D18 : ℝ) < units (0x400921FB54442D18 + 1) := cast_units_lt (Nat.lt_succ_self _)
  exact nearerMag_nearest (cmp := .lt) hle (by linarith) (fun _ => hmid) nofun nofun

theorem roundsTo_pi64 : RoundsTo Real.pi pi64 := by
  have h := nearest_pi64.roundsTo (by positivity) false
  rwa [withSign_false, mul_div_cancel_right₀ _ (by positivity)] at h

theorem twoPi64_eq : twoPi64 = .fin false ⟨0x401921FB54442D18, by decide⟩ :=
  fmul_two_of_normal (by norm_num) (by norm_num)

theorem toRat_twoPi64 : twoPi64.toRat = 2 * pi64.toRat := by
  rw [twoPi64_eq]
  exact toRat_add_exponent (m := ⟨0x400921FB54442D18, by decide⟩) (by norm_num) (by norm_num)

/-- Settles O57: the product steps the exponent of `PI64`, and π rounds to nearest to `PI64`. -/
theorem twoPi : Obligations.TwoPi := by
  have hpi : f64 0x400921FB54442D18#64 = pi64 := f64_of_lt_magBound (by norm_num) false
  have htwo : f64 0x4000000000000000#64 = two := f64_of_lt_magBound (by norm_num) false
  have htwoPi : f64 0x401921FB54442D18#64 = twoPi64 := by
    rw [twoPi64_eq]
    exact f64_of_lt_magBound (by norm_num) false
  obtain ⟨-, -, -, hnearest, -⟩ := roundsTo_pi64
  exact ⟨hpi.symm, by rw [htwo, twoPi64], htwoPi.symm, toRat_twoPi64, hnearest⟩

end Sys2Proof.Machine
end

section
/-! PROOFS. The primitives, R103: `Cos64`, `Sin64` and `Pow10_64` of every operand, for every choice of `PRIM`. -/

namespace Sys2Proof.Machine

/-- A finite value is the angle of its magnitude, with its sign. -/
theorem toRat_fin_eq_angle (neg : Bool) (m : Fin magBound) :
    ((F64.fin neg m).toRat : ℝ) = withSign neg (angle (units m.val)) := by
  rw [toRat_fin, withSign_div]
  rfl

/-! ### Sine and cosine -/

/-- `Cos64`, where the cosine is not too small. -/
theorem cos64_faithful (c : PrimChoice) {x : F64} (hx : isFinite x = true) (h0 : x.toRat ≠ 0)
    (hw : 1 ≤ |Real.cos (x.toRat : ℝ)| * 2 ^ 1100) : Faithful (Real.cos (x.toRat : ℝ)) (c.prim.cos64 x) := by
  obtain ⟨neg, m, rfl⟩ := exists_fin_of_isFinite hx
  rw [cos_angle] at hw ⊢
  exact cosFinite_faithful (mag_pos h0) _ hw

theorem abs_toRat_fin (neg : Bool) (m : Fin magBound) : |(F64.fin neg m).toRat| = (units m.val : ℚ) / 2 ^ 1074 := by
  have hnonneg : (0 : ℚ) ≤ (units m.val : ℚ) / 2 ^ 1074 := by positivity
  rw [toRat_eq_sign_mul, abs_mul, abs_of_nonneg hnonneg]
  cases neg <;> simp

theorem trigIsSmall_of_abs_toRat {neg : Bool} {m : Fin magBound} (h : |(F64.fin neg m).toRat| * 2 ^ 30 < 1) :
    trigIsSmall (units m.val) = true := by
  rw [abs_toRat_fin, div_mul_eq_mul_div, div_lt_one (by positivity)] at h
  have hP : 2 ^ 1074 = 2 ^ 1044 * 2 ^ 30 := by rw [← pow_add]
  have hlt : units m.val * 2 ^ 30 < 2 ^ 1044 * 2 ^ 30 := by
    rw [← hP]
    exact_mod_cast h
  rw [trigIsSmall, decide_eq_true_eq]
  exact Nat.lt_of_mul_lt_mul_right hlt

/-- The sine of a small positive angle is positive. -/
theorem sin_angle_pos_of_small {x : Nat} (h0 : 0 < x) (h : trigIsSmall x = true) : 0 < Real.sin (angle x) := by
  have hs := angle_small h
  have hp := angle_pos h0
  clear h -- its bound 2^1044 must not be evaluated
  refine Real.sin_pos_of_pos_of_lt_pi hp ?_
  nlinarith [Real.pi_gt_three]

theorem sin_angle_ne_zero {x : Nat} (h0 : 0 < x)
    (hw : 1 ≤ |Real.sin (angle x)| * 2 ^ 1100 ∨ trigIsSmall x = true) : Real.sin (angle x) ≠ 0 := by
  intro hzero
  rcases hw with h | h
  · rw [hzero, abs_zero, zero_mul] at h
    exact absurd h (by norm_num)
  · exact (sin_angle_pos_of_small h0 h).ne' hzero

theorem ne_nan_of_faithful {v : ℝ} {y : F64} (h : Faithful v y) : y ≠ .nan := by
  rintro rfl
  unfold Faithful at h
  exact h

/-- `Sin64`, where the sine is not too small or the operand is: the sine is odd, and so are its faithful roundings. -/
theorem sin64_faithful (c : PrimChoice) {x : F64} (hx : isFinite x = true) (h0 : x.toRat ≠ 0)
    (hw : 1 ≤ |Real.sin (x.toRat : ℝ)| * 2 ^ 1100 ∨ |x.toRat| * 2 ^ 30 < 1) :
    Faithful (Real.sin (x.toRat : ℝ)) (c.prim.sin64 x) ∧
      ((c.prim.sin64 x).sign = true ↔ Real.sin (x.toRat : ℝ) < 0) := by
  obtain ⟨neg, m, rfl⟩ := exists_fin_of_isFinite hx
  have hm := mag_pos h0
  have hmag : 1 ≤ |Real.sin (angle (units m.val))| * 2 ^ 1100 ∨ trigIsSmall (units m.val) = true := by
    refine hw.imp (fun h => ?_) trigIsSmall_of_abs_toRat
    rw [sin_angle] at h
    cases neg with
    | false => exact h
    | true => rwa [withSign, if_pos rfl, abs_neg] at h
  have hfaithful := sinFinite_faithful hm m.isLt (c.sinOther (bits (.fin neg m))) hmag
  have hsign := sinFinite_sign hm (c.sinOther (bits (.fin neg m))) hmag
  rw [sin_angle]
  cases neg with
  | false => exact ⟨hfaithful, hsign⟩
  | true =>
    refine ⟨faithful_neg hfaithful, ?_⟩
    have hne := sin_angle_ne_zero (units_pos hm) hmag
    have hfneg : (c.prim.sin64 (.fin true m)).sign = !(sinFinite (c.sinOther (bits (.fin true m))) m.val).sign :=
      sign_fneg (ne_nan_of_faithful hfaithful)
    rw [hfneg, Bool.not_eq_true', ← Bool.not_eq_true, hsign, withSign, if_pos rfl, neg_lt_zero, not_lt]
    exact hne.symm.le_iff_lt

/-- Settles O58: finite operands by the faithful rounding of their magnitudes, the others by definition. -/
theorem trigIsFaithful : Obligations.TrigIsFaithful := by
  refine fun c => ⟨fun _ => cos64_faithful c, fun _ => sin64_faithful c, rfl, rfl, rfl, rfl, fun x hx => ?_⟩
  cases x with
  | nan => exact ⟨rfl, rfl⟩
  | inf _ => exact ⟨rfl, rfl⟩
  | fin _ _ => cases hx

/-! ### Powers of ten -/

/-- A finite value rounds to itself. -/
theorem faithful_toRat {y : F64} (hy : isFinite y = true) : Faithful (y.toRat : ℝ) y := by
  obtain ⟨neg, m, rfl⟩ := exists_fin_of_isFinite hy
  unfold Faithful
  exact Or.inl rfl

theorem pow10_faithful (c : PrimChoice) {x : F64} (hx : isFinite x = true) :
    Faithful ((10 : ℝ) ^ (x.toRat : ℝ)) (c.prim.pow10 x) := by
  obtain ⟨neg, m, rfl⟩ := exists_fin_of_isFinite hx
  have hprim : c.prim.pow10 (.fin neg m) = pow10Finite (c.pow10Other (bits (.fin neg m))) neg m.val := rfl
  rw [hprim]
  rcases Nat.eq_zero_or_pos m.val with hm | hm
  · have hone := faithful_toRat (y := one) rfl
    rw [toRat_one, Rat.cast_one] at hone
    rwa [(toRat_fin_eq_zero_iff neg m).2 hm, Rat.cast_zero, Real.rpow_zero, pow10Finite, if_pos hm]
  · rw [toRat_fin_eq_angle]
    exact pow10Finite_faithful hm neg _

theorem flt_zero_of_sign {y : F64} (h : y.sign = false) : flt y zero = false := by
  cases y with
  | nan => rfl
  | inf neg => exact h
  | fin neg m =>
    cases neg with
    | true => cases h
    | false => rw [← ofMag_fin, ofMag_nonneg]

theorem sign_pow10 (c : PrimChoice) {x : F64} (hx : isFinite x = true) : (c.prim.pow10 x).sign = false := by
  obtain ⟨neg, m, rfl⟩ := exists_fin_of_isFinite hx
  exact pow10Finite_sign _ neg m.val

/-- Settles O59: finite operands by the faithful rounding of their magnitudes, the others by definition. -/
theorem powerOfTenIsFaithful : Obligations.PowerOfTenIsFaithful := fun c =>
  ⟨fun _ => pow10_faithful c, fun _ hx => ⟨sign_pow10 c hx, flt_zero_of_sign (sign_pow10 c hx)⟩,
    rfl, rfl, rfl, rfl, rfl⟩

end Sys2Proof.Machine
end

section
/-! PROOFS. A command from accept to completion, 40_derivation.md R106 to R135: the accept step, the completion step,
and which check of R130 decides the outcome. -/

namespace Sys2Proof.Machine

/-! ### The accept step, R120 -/

/-- Settles O19: the write is the accept step and the OK answer, and the accept step's `STATUS` write by its fields. -/
theorem acceptCommand : Obligations.AcceptCommand := fun w s hp =>
  ⟨(s.accept w).respond .ok, exec_wrCmd_idle w hp, rfl, busyBit_statusAccept s.status, doneBit_statusAccept s.status,
    errBit_statusAccept s.status, errClassField_statusAccept s.status, errCauseField_statusAccept s.status,
    cmdLostBit_statusAccept s.status, sameReserved_statusAccept s.status⟩

/-! ### The completion step, R121 and R106 -/

/-- Settles O25: the step by the outcome of `Evaluate`. -/
theorem completionStep : Obligations.CompletionStep := by
  intro s hp
  refine ⟨_, engineStep_busy hp, fun c hc => ?_, fun r hr => ?_⟩
  · rw [hc]
    exact complete_failed s c
  · rw [hr]
    exact complete_computed s r

/-- What a completion step leaves in the fields of `STATUS` that it writes depends on the outcome alone. -/
theorem complete_status_fields (s s' : State) (r : EvalResult) :
    errBit (s.complete r).status = errBit (s'.complete r).status ∧
      errCauseField (s.complete r).status = errCauseField (s'.complete r).status ∧
      errClassField (s.complete r).status = errClassField (s'.complete r).status ∧
      doneBit (s.complete r).status = doneBit (s'.complete r).status := by
  cases r <;> simp [State.complete]

/-- So do the results, unless there is an error. -/
theorem complete_results (s s' : State) {r : EvalResult} (h : errBit (s.complete r).status = false) :
    (s.complete r).resultRegisters = (s'.complete r).resultRegisters := by
  cases r with
  | failed c =>
    have herr : errBit (s.complete (.failed c)).status = true := errBit_statusError s.status c
    rw [herr] at h
    cases h
  | computed r => rfl

/-- Settles O32: both steps complete with the same outcome of `Evaluate`. -/
theorem resultIsFunctionOfSnapshot : Obligations.ResultIsFunctionOfSnapshot := by
  intro s s' t t' hp hp' hsnap ht ht'
  rw [engineStep_busy hp] at ht
  rw [engineStep_busy hp', ← hsnap] at ht'
  cases ht
  cases ht'
  obtain ⟨herr, hcause, hclass, hdone⟩ := complete_status_fields s s' (evaluate prim s.snap)
  exact ⟨herr, hcause, hclass, hdone, complete_results s s'⟩

/-! ### The operand checks of a COMPUTE command, R130 -/

theorem evaluateKind_of_cause (p : Prim) {n : Snap} {k : FilterKind} {c : Cause} (h : n.checkOperands k = some c) :
    evaluateKind p k n = .failed c := by
  rw [evaluateKind, h]

/-- Checks 2 to 6 give the codes 2 to 6. -/
theorem checkOperands_code {n : Snap} {k : FilterKind} {c : Cause} (h : n.checkOperands k = some c) :
    2 ≤ c.code.toNat ∧ c.code.toNat ≤ 6 := by
  unfold Snap.checkOperands at h
  split_ifs at h <;> cases h <;> decide

/-- Settles O43: with a failing operand condition `checkOperands` answers the cause with which the command completes. -/
theorem computeTraps : Obligations.ComputeTraps := by
  refine fun k s => ⟨fun hp => ?_, fun hp hfail => ?_⟩
  · rw [exec_compute, completeKind_idle k hp]
  · cases hc : s.snap.checkOperands k with
    | none => exact absurd ((checkOperands_eq_none s.snap k).1 hc) hfail
    | some c =>
      have hexec : exec (.compute k) s = .next (s.complete (.failed c)) := by
        rw [exec_compute, completeKind_busy k hp, evaluateKind_of_cause prim hc]
      exact ⟨_, c, hexec, rfl, complete_failed s c, checkOperands_code hc⟩

/-! ### The first check that fails, R130 -/

theorem fsValid_iff (n : Snap) :
    n.fsValid = true ↔ isFinite (f64 n.fs) = true ∧ fgt (f64 n.fs) zero = true := by
  simp [Snap.fsValid, Snap.fsValue]

theorem freqInRange_iff (n : Snap) :
    n.freqInRange = true ↔ fgt (f64 n.f) zero = true ∧ flt (f64 n.f) (fdiv (f64 n.fs) two) = true := by
  simp [Snap.freqInRange, Snap.freqValue, Snap.fsValue]

/-- The gain-aware kinds are those from code 6 on. -/
theorem gainAware_iff (k : FilterKind) : FilterKind.gainAware k = true ↔ 6 ≤ k.code := by
  cases k <;> decide

/-- Everything the operand checks can answer: the cause of the first that fails, or none. -/
theorem checkOperands_cases (n : Snap) (k : FilterKind) :
    (n.checkOperands k = some .fsInvalid ∧ ¬ n.fsValid = true) ∨
    (n.checkOperands k = some .qInvalid ∧ n.fsValid = true ∧ ¬ fgt (f64 n.q) zero = true) ∨
    (n.checkOperands k = some .freqNonfinite ∧ n.fsValid = true ∧ fgt (f64 n.q) zero = true ∧
      ¬ isFinite (f64 n.f) = true) ∨
    (n.checkOperands k = some .freqRange ∧ n.fsValid = true ∧ fgt (f64 n.q) zero = true ∧ isFinite (f64 n.f) = true ∧
      ¬ (n.fval = true → n.freqInRange = true)) ∨
    (n.checkOperands k = some .gainNonfinite ∧ n.fsValid = true ∧ fgt (f64 n.q) zero = true ∧
      isFinite (f64 n.f) = true ∧ (n.fval = true → n.freqInRange = true) ∧ ¬ (6 ≤ k.code → isFinite (f64 n.g) = true)) ∨
    (n.checkOperands k = none ∧ n.fsValid = true ∧ fgt (f64 n.q) zero = true ∧ isFinite (f64 n.f) = true ∧
      (n.fval = true → n.freqInRange = true) ∧ (6 ≤ k.code → isFinite (f64 n.g) = true)) := by
  rw [← gainAware_iff]
  unfold Snap.checkOperands
  split_ifs <;> simp_all [Snap.qValid, Snap.qValue, Snap.freqValue, Snap.gainValue]

theorem evaluate_of_kind (p : Prim) {n : Snap} {k : FilterKind} (h : kindOfWord n.kind = some k) :
    evaluate p n = evaluateKind p k n := by
  rw [evaluate, h]

theorem evaluate_of_no_kind (p : Prim) {n : Snap} (h : 8 < n.kind.toNat) : evaluate p n = .failed .kindUnsupported := by
  rw [evaluate, (kindOfWord_eq_none n.kind).2 h]

theorem evaluateKind_of_none (p : Prim) {n : Snap} {k : FilterKind} (h : n.checkOperands k = none) :
    ((formula p k n).Finite → evaluateKind p k n = .computed (formula p k n)) ∧
      (¬ (formula p k n).Finite → evaluateKind p k n = .failed .resultNonfinite) := by
  simp only [evaluateKind, h, ← allFinite_iff]
  exact ⟨fun hf => if_pos hf, fun hf => if_neg hf⟩

/-- Settles O28: the word decides check 1; the operand checks answer the first that fails, and the formula the rest. -/
theorem firstFailingCheckDecides : Obligations.FirstFailingCheckDecides := by
  intro p n
  simp only [← fsValid_iff, ← freqInRange_iff]
  by_cases hkind : 8 < n.kind.toNat
  · have hnone : ∀ k : FilterKind, k.code ≠ n.kind.toNat := fun k h => by
      have := code_le_eight k
      omega
    simp [evaluate_of_no_kind p hkind, hkind, hnone]
  obtain ⟨k, hk⟩ := exists_kind_of_le_eight (not_lt.1 hkind)
  have hcode := (kindOfWord_eq_some n.kind k).1 hk
  have hunique : ∀ k', FilterKind.code k' = n.kind.toNat ↔ k' = k := fun k' => by
    rw [eq_comm, ← kindOfWord_eq_some, hk, Option.some_inj, eq_comm]
  simp only [evaluate_of_kind p hk, hunique, forall_eq]
  have hle : n.kind.toNat ≤ 8 := not_lt.1 hkind
  rw [hcode] at hkind hle ⊢
  rcases checkOperands_cases n k with ⟨hc, hfs⟩ | ⟨hc, hfs, hq⟩ | ⟨hc, hfs, hq, hf⟩ | ⟨hc, hfs, hq, hf, hrange⟩ |
    ⟨hc, hfs, hq, hf, hrange, hgain⟩ | ⟨hc, hfs, hq, hf, hrange, hgain⟩
  · simp [evaluateKind_of_cause p hc, hkind, hle, hfs]
  · simp [evaluateKind_of_cause p hc, hkind, hle, hfs, hq]
  · simp [evaluateKind_of_cause p hc, hkind, hle, hfs, hq, hf]
  · simp [evaluateKind_of_cause p hc, hkind, hle, hfs, hq, hf, hrange]
  · simp [evaluateKind_of_cause p hc, hkind, hle, hfs, hq, hf, eq_true hrange, hgain]
  · obtain ⟨hcomputed, hfailed⟩ := evaluateKind_of_none p hc
    by_cases hfin : (formula p k n).Finite
    · simp [hcomputed hfin, hkind, hle, hfs, hq, hf, eq_true hrange, eq_true hgain, hfin]
    · simp [hfailed hfin, hkind, hle, hfs, hq, hf, eq_true hrange, eq_true hgain, hfin]

/-! ### The gain of kinds 0 to 5, R135 -/

/-- The check of the gain and the formulas that read it belong to the gain-aware kinds. -/
theorem evaluateKind_ignores_gain (p : Prim) (n : Snap) (g : Word) {k : FilterKind}
    (h : FilterKind.gainAware k = false) : evaluateKind p k { n with g := g } = evaluateKind p k n := by
  cases k with
  | peaking | lowShelf | highShelf => cases h
  | lowpass | highpass | bandpassSkirt | bandpassPeak | notch | allpass => rfl

/-- Settles O31: a kind of code at most 5 is not gain-aware. -/
theorem gainIgnored : Obligations.GainIgnored := by
  intro p n g hle
  obtain ⟨k, hk⟩ := exists_kind_of_le_eight (hle.trans (by norm_num))
  have hgain : FilterKind.gainAware k = false := by
    rw [Bool.eq_false_iff, ne_eq, gainAware_iff, ← (kindOfWord_eq_some n.kind k).1 hk]
    omega
  rw [evaluate_of_kind p hk, evaluate_of_kind p (n := { n with g := g }) hk, evaluateKind_ignores_gain p n g hgain]

/-! ### Checks 2 and 3 by the encodings, R132 -/

theorem fgt_fin_zero_iff (neg : Bool) (m : Fin magBound) :
    fgt (.fin neg m) zero = true ↔ neg = false ∧ 0 < m.val := by
  have hpos : 0 < units m.val ↔ 0 < m.val := units_lt_units (m := 0)
  cases neg <;> simp [fgt, flt, zero, signedUnits, hpos]

/-- The positive values have the encodings from 1 to that of infinity. -/
theorem fgt_f64_zero_iff (w : Word) : fgt (f64 w) zero = true ↔ 0 < w.toNat ∧ w.toNat ≤ magBound := by
  obtain ⟨neg, m, hm, rfl⟩ := exists_word_eq_mag_sign w
  have hB : magBound < 2 ^ 63 := by norm_num
  rw [toNat_word_mag_sign hm]
  rcases lt_trichotomy m magBound with h | rfl | h
  · rw [f64_of_lt_magBound h, fgt_fin_zero_iff]
    cases neg <;> simp [signBit] <;> omega
  · rw [f64_magBound]
    cases neg <;> simp [signBit, fgt, flt, zero]
  · rw [f64_of_magBound_lt hm h]
    cases neg <;> simp [signBit, fgt] <;> omega

/-- A word without sign bit is its magnitude. -/
theorem ofNat_toNat_add_signBit (w : Word) : BitVec.ofNat 64 (w.toNat + signBit false) = w :=
  (BitVec.ofNat_toNat 64 w).trans (BitVec.setWidth_eq w)

theorem f64_of_toNat_lt {w : Word} (h : w.toNat < magBound) : f64 w = .fin false ⟨w.toNat, h⟩ := by
  rw [← f64_of_lt_magBound h false, ofNat_toNat_add_signBit]

theorem f64_of_toNat_eq {w : Word} (h : w.toNat = magBound) : f64 w = .inf false := by
  rw [← f64_magBound, ← h, ofNat_toNat_add_signBit]

/-- Of these all but the last are finite. -/
theorem isFinite_and_fgt_f64_zero_iff (w : Word) :
    (isFinite (f64 w) = true ∧ fgt (f64 w) zero = true) ↔ 0 < w.toNat ∧ w.toNat < magBound := by
  rw [fgt_f64_zero_iff]
  constructor
  · rintro ⟨hfinite, hpos, hle⟩
    refine ⟨hpos, lt_of_le_of_ne hle fun h => ?_⟩
    rw [f64_of_toNat_eq h] at hfinite
    cases hfinite
  · rintro ⟨hpos, hlt⟩
    exact ⟨by rw [f64_of_toNat_lt hlt]; rfl, hpos, hlt.le⟩

theorem fdiv_fin_infinity_bits (neg : Bool) (m : Fin magBound) :
    bits (fdiv (.fin neg m) (.inf false)) = if neg then 0x8000000000000000#64 else 0#64 := by
  rw [fdiv_fin_inf]
  cases neg <;> rfl

/-- Twice infinity is infinity. -/
theorem fmul_two_inf : fmul two (.inf false) = .inf false := by
  unfold fmul two
  rfl

/-- Settles O29: a positive encoding is its own magnitude; and a finite value over infinity is a zero of its sign. -/
theorem checksByEncoding : Obligations.ChecksByEncoding := by
  refine ⟨fun n => ?_, fun n => fgt_f64_zero_iff n.q, fun p n neg m hq hs => ?_⟩
  · rw [fsValid_iff, isFinite_and_fgt_f64_zero_iff]
  · have hinf : n.qValue = .inf false := by
      rw [Snap.qValue, hq]
      exact f64_magBound false
    have halpha : (preamble p n).alpha = fdiv (p.sin64 n.w0) (fmul two n.qValue) := rfl
    rw [halpha, hs, hinf, fmul_two_inf, fdiv_fin_infinity_bits]

/-! ### Frequency validation, R133 -/

/-- A finite value lies below the overflow bound, because it rounds to itself. -/
theorem abs_toRat_lt_overflowBound {x : F64} (hx : isFinite x = true) : |(x.toRat : ℝ)| < (overflowBound : ℝ) := by
  have h := roundsTo_fmul (x := one) rfl hx
  rw [fmul_one_left, toRat_one, Rat.cast_one, one_mul] at h
  obtain ⟨neg, m, rfl⟩ := exists_fin_of_isFinite hx
  obtain ⟨hlt, -⟩ := h
  exact hlt

/-- Half of a finite value is finite. -/
theorem isFinite_fdiv_two {x : F64} (hx : isFinite x = true) : isFinite (fdiv x two) = true := by
  have htwo : two.toRat ≠ 0 := by rw [toRat_two]; exact two_ne_zero
  refine isFinite_of_roundsTo (roundsTo_fdiv hx rfl htwo) ?_
  rw [toRat_two, Rat.cast_ofNat, abs_div, abs_two]
  exact (half_le_self (abs_nonneg _)).trans_lt (abs_toRat_lt_overflowBound hx)

@[simp] theorem toRat_zero : zero.toRat = 0 := by
  simp [zero, F64.toRat, signedUnits]

theorem fgt_zero_iff {x : F64} (hx : isFinite x = true) : fgt x zero = true ↔ 0 < x.toRat := by
  rw [fgt, flt_iff_toRat_lt rfl hx, toRat_zero]

/-- Settles O30: the range is the fourth operand check, and its two comparisons are those of the values. -/
theorem frequencyValidation : Obligations.FrequencyValidation := by
  intro p n hkind hfs hq hf
  obtain ⟨-, -, -, -, hcause, -⟩ := firstFailingCheckDecides p n
  have hfs' := (fsValid_iff n).1 hfs
  have hrange : evaluate p n = .failed .freqRange ↔ ¬ (n.fval = true → n.freqInRange = true) := by
    rw [hcause, freqInRange_iff]
    simp only [hkind, hfs', hf, show fgt (f64 n.q) zero = true from hq, true_and, and_self]
  refine ⟨fun hv => ?_, fun hv => ?_⟩
  · rw [ne_eq, hrange, hv]
    simp
  · rw [hrange, freqInRange_iff, fgt_zero_iff hf, flt_iff_toRat_lt hf (isFinite_fdiv_two hfs'.1), hv]
    simp only [forall_const, not_and_or, not_lt]

end Sys2Proof.Machine
end

section
/-! PROOFS. The nine filter kinds, 41_filter_kinds.md: what each COMPUTE command does with its formula (R140 to R148),
the corner `f` = 0, and the flat response (R149). -/

namespace Sys2Proof.Machine

/-! ### Zeros of either sign -/

/-- The zero of the given sign: `zero` or `fneg zero`. -/
def signedZero (neg : Bool) : F64 := .fin neg ⟨0, by decide⟩

theorem signedZero_false : signedZero false = zero := rfl

theorem signedZero_true : signedZero true = fneg zero := rfl

theorem fin_eq_signedZero {neg : Bool} {m : Fin magBound} (h : m.val = 0) : F64.fin neg m = signedZero neg :=
  congrArg (F64.fin neg) (Fin.ext h)

theorem fin_ne_signedZero {neg : Bool} {m : Fin magBound} (h : m.val ≠ 0) (a : Bool) : F64.fin neg m ≠ signedZero a :=
  fun he => h (congrArg Fin.val (F64.fin.inj he).2)

theorem f64_plus_zero : f64 0x0000000000000000#64 = zero := f64_of_lt_magBound (by norm_num) false

/-- The two encodings of a zero. -/
theorem exists_f64_eq_signedZero {w : Word} (h : w = 0x0000000000000000#64 ∨ w = 0x8000000000000000#64) :
    ∃ a, f64 w = signedZero a := by
  obtain rfl | rfl := h
  · exact ⟨false, f64_plus_zero.trans signedZero_false.symm⟩
  · exact ⟨true, f64_of_lt_magBound (m := 0) (by norm_num) true⟩

theorem fneg_ne_signedZero {x : F64} (h : ∀ a, x ≠ signedZero a) (a : Bool) : fneg x ≠ signedZero a := by
  cases x with
  | nan | inf _ => exact nofun
  | fin neg m => exact fin_ne_signedZero (fun hm => h neg (fin_eq_signedZero hm)) a

theorem fmul_fin_signedZero (b : Bool) (m : Fin magBound) (a : Bool) :
    fmul (.fin b m) (signedZero a) = signedZero (b ^^ a) := by
  rw [signedZero, fmul_fin_fin]
  refine roundQuotient_exact (b ^^ a) ⟨0, by decide⟩ (by positivity) ?_
  rw [units_zero, Nat.mul_zero, Nat.zero_mul]

/-- A zero over anything but a zero or a NaN, an infinity included, is a zero. -/
theorem fdiv_signedZero {y : F64} (hnan : y ≠ .nan) (h : ∀ b, y ≠ signedZero b) (a : Bool) :
    fdiv (signedZero a) y = signedZero (a ^^ y.sign) := by
  cases y with
  | nan => exact absurd rfl hnan
  | inf b => exact fdiv_fin_inf a b _
  | fin b m =>
    have hm : m.val ≠ 0 := fun hm => h b (fin_eq_signedZero hm)
    rw [signedZero, fdiv_fin_fin, if_neg hm]
    refine roundQuotient_exact _ ⟨0, by decide⟩ (units_pos (Nat.pos_of_ne_zero hm)) ?_
    rw [units_zero, Nat.zero_mul, Nat.zero_mul]

theorem fadd_comm (x y : F64) : fadd x y = fadd y x := by
  cases x with
  | nan => rw [fadd_nan_left, fadd_nan_right]
  | inf a =>
    cases y with
    | nan => rw [fadd_nan_left, fadd_nan_right]
    | inf b =>
      by_cases h : a = b
      · rw [h]
      · rw [fadd_inf_inf, fadd_inf_inf, if_neg h, if_neg (Ne.symm h)]
    | fin b n => rw [fadd_inf_fin, fadd_fin_inf]
  | fin a m =>
    cases y with
    | nan => rw [fadd_nan_left, fadd_nan_right]
    | inf b => rw [fadd_inf_fin, fadd_fin_inf]
    | fin b n => rw [fadd_fin_fin, fadd_fin_fin, addFinite, addFinite, Int.add_comm, Bool.and_comm]

/-- Adding a zero changes only a zero. -/
theorem fadd_signedZero_left (a : Bool) {x : F64} (h : ∀ b, x ≠ signedZero b) : fadd (signedZero a) x = x := by
  cases x with
  | nan => exact fadd_nan_right _
  | inf b => exact fadd_fin_inf a b _
  | fin b m =>
    rw [signedZero, fadd_fin_fin]
    exact addFinite_zero_left a b m fun hm => h b (fin_eq_signedZero hm)

theorem fadd_signedZero_right (a : Bool) {x : F64} (h : ∀ b, x ≠ signedZero b) : fadd x (signedZero a) = x := by
  rw [fadd_comm, fadd_signedZero_left a h]

theorem fsub_signedZero_right (a : Bool) {x : F64} (h : ∀ b, x ≠ signedZero b) : fsub x (signedZero a) = x :=
  fadd_signedZero_right (!a) h

/-! ### The literals -/

theorem one_ne_signedZero : ∀ a, one ≠ signedZero a := fin_ne_signedZero (by norm_num)

theorem two_ne_signedZero : ∀ a, two ≠ signedZero a := fin_ne_signedZero (by norm_num)

theorem fadd_one_one : fadd one one = two := by
  have hsum : signedUnits false 0x3FF0000000000000 + signedUnits false 0x3FF0000000000000 =
      (units 0x4000000000000000 : ℤ) := by
    rw [units_two, ← units_one, two_mul, Nat.cast_add]
    rfl
  have hne : (units 0x4000000000000000 : ℤ) ≠ 0 := by
    exact_mod_cast (units_pos (Nat.succ_pos 0x3FFFFFFFFFFFFFFF)).ne'
  rw [one, fadd_fin_fin, addFinite, forceInt_eq, hsum, if_neg hne, forceNat_eq,
    decide_eq_false (Int.natCast_nonneg _).not_gt, Int.natAbs_natCast]
  exact roundQuotient_exact false ⟨0x4000000000000000, by decide⟩ one_pos (mul_one _).symm

/-- An exact zero difference is +0. -/
theorem fsub_self {x : F64} (hx : isFinite x = true) : fsub x x = zero := by
  obtain ⟨a, m, rfl⟩ := exists_fin_of_isFinite hx
  have hsum : signedUnits a m.val + signedUnits (!a) m.val = 0 := by
    cases a <;> simp [signedUnits]
  rw [fsub, fneg, fadd_fin_fin, addFinite, forceInt_eq, if_pos hsum, Bool.and_not_self, ofMag_zero,
    if_neg Bool.false_ne_true]

theorem fsub_one_one : fsub one one = signedZero false := fsub_self rfl

theorem fdiv_two_two : fdiv two two = one := by
  rw [two, fdiv_fin_fin, if_neg (by norm_num)]
  refine roundQuotient_exact false ⟨0x3FF0000000000000, by decide⟩ (units_pos (by norm_num)) ?_
  rw [units_one, Nat.mul_comm]

/-! ### Doubling -/

theorem fmul_two_signed_inf (a : Bool) : fmul two (.inf a) = .inf a := by
  rw [fmul_comm, two, fmul_inf_fin, if_neg (by norm_num), Bool.xor_false]

/-- Doubling does not underflow: `2 · x` is nearer to `x` itself than to 0. -/
theorem fmul_two_ne_signedZero {x : F64} (h : ∀ a, x ≠ signedZero a) (a : Bool) : fmul two x ≠ signedZero a := by
  cases x with
  | nan => rw [fmul_nan_right]; exact nofun
  | inf b => rw [fmul_two_signed_inf]; exact nofun
  | fin b m =>
    intro hzero
    have hround := roundsTo_fmul (x := two) (y := .fin b m) rfl rfl
    rw [hzero] at hround
    obtain ⟨-, -, -, hnearest, -⟩ := hround
    have hle := hnearest (.fin b m) rfl
    have h0 : (F64.fin a ⟨0, by decide⟩).toRat = 0 := (toRat_fin_eq_zero_iff a _).2 rfl
    rw [h0, toRat_two, Rat.cast_zero, sub_zero, Rat.cast_ofNat, two_mul, add_sub_cancel_right, ← two_mul, abs_mul,
      abs_two] at hle
    have hx : ((F64.fin b m).toRat : ℝ) = 0 := abs_eq_zero.1 (by linarith [abs_nonneg ((F64.fin b m).toRat : ℝ)])
    exact h b (fin_eq_signedZero ((toRat_fin_eq_zero_iff b m).1 (by exact_mod_cast hx)))

theorem fmul_two_ne_nan {x : F64} (h : x ≠ .nan) : fmul two x ≠ .nan := by
  cases x with
  | nan => exact absurd rfl h
  | inf b => rw [fmul_two_signed_inf]; exact nofun
  | fin b m =>
    intro hnan
    have hround := roundsTo_fmul (x := two) (y := .fin b m) rfl rfl
    rw [hnan] at hround
    exact hround

/-! ### The corner `f` = ±0, R133 and the corner cases of R140, R141 and R144 -/

/-- A positive value is neither a NaN nor a zero. -/
theorem ne_nan_and_ne_signedZero_of_pos {x : F64} (h : fgt x zero = true) : x ≠ .nan ∧ ∀ a, x ≠ signedZero a := by
  constructor
  · rintro rfl
    cases h
  · rintro a rfl
    exact absurd ((fgt_fin_zero_iff a _).1 h).2 (lt_irrefl 0)

/-- `w0` is a zero. -/
theorem exists_w0_eq_signedZero {n : Snap} {a : Bool} (hfs : n.fsValid = true) (hf : n.freqValue = signedZero a) :
    ∃ b, n.w0 = signedZero b := by
  obtain ⟨hnan, hzero⟩ := ne_nan_and_ne_signedZero_of_pos ((fsValid_iff n).1 hfs).2
  rw [Snap.w0, hf, twoPi64_eq, fmul_fin_signedZero]
  exact ⟨_, fdiv_signedZero hnan hzero _⟩

theorem cos64_signedZero (c : PrimChoice) (a : Bool) : c.prim.cos64 (signedZero a) = one := rfl

theorem sin64_signedZero (c : PrimChoice) (a : Bool) : c.prim.sin64 (signedZero a) = signedZero a := by
  cases a <;> rfl

theorem pow10_signedZero (c : PrimChoice) (a : Bool) : c.prim.pow10 (signedZero a) = one := rfl

/-- The preamble at `f` = ±0: `c` is 1, so `m2c` is -2, and `alpha` is a zero. -/
theorem preamble_zero_frequency (c : PrimChoice) {n : Snap} (hfs : n.fsValid = true) (hq : n.qValid = true) {a : Bool}
    (hf : n.freqValue = signedZero a) :
    (preamble c.prim n).c = one ∧ (preamble c.prim n).m2c = fneg two ∧
      ∃ b, (preamble c.prim n).alpha = signedZero b := by
  obtain ⟨b, hw0⟩ := exists_w0_eq_signedZero hfs hf
  obtain ⟨hnan, hzero⟩ := ne_nan_and_ne_signedZero_of_pos hq
  have hcos : c.prim.cos64 n.w0 = one := by rw [hw0, cos64_signedZero]
  refine ⟨hcos, ?_, b ^^ (fmul two n.qValue).sign, ?_⟩
  · rw [preamble, hcos, fmul_one_right, minusTwo]
  · rw [preamble, hw0, sin64_signedZero]
    exact fdiv_signedZero (fmul_two_ne_nan hnan) (fmul_two_ne_signedZero hzero) b

/-- The feedback triple is then (1, -2, 1). -/
theorem withPlainFeedback_zero_frequency {pre : Preamble} {a : Bool} (hm2c : pre.m2c = fneg two)
    (halpha : pre.alpha = signedZero a) (b0 b1 b2 : F64) :
    withPlainFeedback pre b0 b1 b2 = { b0 := b0, b1 := b1, b2 := b2, a0 := one, a1 := fneg two, a2 := one } := by
  rw [withPlainFeedback, hm2c, halpha, fadd_signedZero_right a one_ne_signedZero,
    fsub_signedZero_right a one_ne_signedZero]

/-- With valid `fs` and `q` and no validation of the frequency, a kind that is not gain-aware passes the checks at any
finite `f`. -/
theorem passes_of_not_gainAware {n : Snap} {k : FilterKind} (hfs : n.fsValid = true) (hq : n.qValid = true)
    (hv : n.fval = false) (hf : isFinite n.freqValue = true) (hk : FilterKind.gainAware k = false) : n.Passes k := by
  obtain ⟨hfinite, hpos⟩ := (fsValid_iff n).1 hfs
  exact ⟨hfinite, hpos, hq, hf, fun h => absurd (hv.symm.trans h) Bool.false_ne_true,
    fun h => absurd (hk.symm.trans h) Bool.false_ne_true⟩

theorem evaluate_eq_computed {p : Prim} {n : Snap} {k : FilterKind} {r : Coeffs} (hkind : n.kind.toNat = k.code)
    (hpass : n.Passes k) (hr : formula p k n = r) (hfinite : r.allFinite = true) : evaluate p n = .computed r := by
  rw [evaluate_of_kind p ((kindOfWord_eq_some n.kind k).2 hkind), evaluateKind_passes hpass, hr, if_pos hfinite]

/-- Settles O44: at a zero frequency `c` is 1 and `alpha` is a zero, and so the three formulas. -/
theorem zeroFrequencyCorner : Obligations.ZeroFrequencyCorner := by
  intro c n hfs hq hv hf
  obtain ⟨a, hf⟩ := exists_f64_eq_signedZero hf
  obtain ⟨hc, hm2c, b, halpha⟩ := preamble_zero_frequency c hfs hq hf
  have hpass : ∀ k, FilterKind.gainAware k = false → n.Passes k := fun k =>
    passes_of_not_gainAware hfs hq hv (congrArg isFinite hf)
  have hfeedback := withPlainFeedback_zero_frequency hm2c halpha
  refine ⟨fun hk => ?_, ?_⟩
  · refine evaluate_eq_computed (k := .lowpass) hk (hpass _ rfl) ?_ rfl
    rw [formula, lowpassCoeffs, hc, fsub_one_one, fdiv_signedZero (y := two) nofun two_ne_signedZero, hfeedback,
      show (false ^^ two.sign) = false from rfl, signedZero_false]
  · rintro (hk | hk)
    · refine evaluate_eq_computed (k := .highpass) hk (hpass _ rfl) ?_ rfl
      rw [formula, highpassCoeffs, hc, fadd_one_one, fdiv_two_two, hfeedback]
    · refine evaluate_eq_computed (k := .notch) hk (hpass _ rfl) ?_ rfl
      rw [formula, notchCoeffs, hm2c, hfeedback]

/-! ### The flat response, R149 -/

/-- At `A` = 1 the shelf terms `p` and `v` agree: they differ in the sign of a zero, or are both NaN. -/
theorem shelfTerms_one_p_eq_v (pre : Preamble) : (shelfTerms one pre).p = (shelfTerms one pre).v := by
  simp only [shelfTerms, fadd_one_one, fsub_one_one]
  cases pre.c with
  | nan => rw [fmul_nan_right, fadd_nan_right, fsub, fneg, fadd_nan_right]
  | inf a => rw [fmul_comm, signedZero, fmul_inf_fin, if_pos rfl, fadd_nan_right, fsub, fneg, fadd_nan_right]
  | fin a m =>
    rw [fmul_comm, fmul_fin_signedZero, fsub_signedZero_right _ two_ne_signedZero,
      fadd_signedZero_right _ two_ne_signedZero]

/-- At `A` = 1, with `c` no zero, the shelf terms `w` and `r` are `2c` and `-2c`. -/
theorem shelfTerms_one_w_r {pre : Preamble} (hc : ∀ a, pre.c ≠ signedZero a) :
    (shelfTerms one pre).w = fmul two pre.c ∧ (shelfTerms one pre).r = fneg (fmul two pre.c) := by
  have hne := fmul_two_ne_signedZero hc
  simp only [shelfTerms, fadd_one_one, fsub_one_one]
  exact ⟨fadd_signedZero_left false hne, fadd_signedZero_left false (fneg_ne_signedZero hne)⟩

theorem shelfTerms_one_twoA (pre : Preamble) : (shelfTerms one pre).twoA = two := fmul_one_right two

/-- R149 for a kind whose coefficients are `r`. -/
def Coeffs.Flat (r : Coeffs) : Prop := r.b0 = r.a0 ∧ r.b1 = r.a1 ∧ r.b2 = r.a2

theorem flat_peakingCoeffs (pre : Preamble) : (peakingCoeffs one pre).Flat := by
  rw [peakingCoeffs, fmul_one_right, fdiv_one]
  exact ⟨rfl, rfl, rfl⟩

theorem flat_lowShelfCoeffs {pre : Preamble} (hc : ∀ a, pre.c ≠ signedZero a) : (lowShelfCoeffs one pre).Flat := by
  obtain ⟨hw, hr⟩ := shelfTerms_one_w_r hc
  simp only [Coeffs.Flat, lowShelfCoeffs, shelfTerms_one_p_eq_v, shelfTerms_one_twoA, hw, hr, fmul_one_left, minusTwo,
    fmul_fneg_left, fmul_fneg_right, and_self]

theorem flat_highShelfCoeffs {pre : Preamble} (hc : ∀ a, pre.c ≠ signedZero a) : (highShelfCoeffs one pre).Flat := by
  obtain ⟨hw, hr⟩ := shelfTerms_one_w_r hc
  simp only [Coeffs.Flat, highShelfCoeffs, shelfTerms_one_p_eq_v, shelfTerms_one_twoA, hw, hr, fmul_one_left,
    fmul_fneg_right, and_self]

theorem gainA_zero_gain (c : PrimChoice) {n : Snap} {a : Bool} (h : n.gainValue = signedZero a) :
    gainA c.prim n = one := by
  have hforty : ∀ b, forty ≠ signedZero b := fin_ne_signedZero (by norm_num)
  rw [gainA, h, fdiv_signedZero (y := forty) nofun hforty, pow10_signedZero]

/-- Settles O45: each gain-aware formula is flat at `A` = 1, and a zero gain gives that `A`. -/
theorem flatResponse : Obligations.FlatResponse := by
  refine ⟨fun p n k hk hA hpos hneg => ?_, fun c n hg => ?_⟩
  · have hc : ∀ a, (preamble p n).c ≠ signedZero a := fun a => by
      cases a with
      | false => rwa [signedZero_false]
      | true => rwa [signedZero_true]
    cases k with
    | lowpass | highpass | bandpassSkirt | bandpassPeak | notch | allpass => cases hk
    | peaking => rw [formula, hA]; exact flat_peakingCoeffs _
    | lowShelf => rw [formula, hA]; exact flat_lowShelfCoeffs hc
    | highShelf => rw [formula, hA]; exact flat_highShelfCoeffs hc
  · obtain ⟨a, hg⟩ := exists_f64_eq_signedZero hg
    exact gainA_zero_gain c hg

/-! ### The nine COMPUTE commands, R140 to R148 -/

/-- A COMPUTE command computes whatever the formula of its kind gives under the machine's `PRIM`. -/
theorem computes_of_formula {k : FilterKind} {r : Snap → Coeffs} (h : ∀ n, formula prim k n = r n) :
    Computes (.compute k) k r := by
  intro s hp hpass
  rw [← h, exec_compute, completeKind_busy k hp, evaluateKind_passes hpass]
  refine ⟨fun hfinite => ⟨_, rfl, ?_⟩, fun hnot => ⟨_, rfl, ?_⟩⟩
  · rw [if_pos ((allFinite_iff _).2 hfinite)]
    exact complete_computed s _
  · rw [if_neg fun hall => hnot ((allFinite_iff _).1 hall)]
    exact complete_failed s .resultNonfinite

/-- Settles O34: the statement's formula is the model's, unfolded. -/
theorem computeLowpass : Obligations.ComputeLowpass := computes_of_formula (k := .lowpass) fun _ => rfl

/-- Settles O35: the statement's formula is the model's, unfolded. -/
theorem computeHighpass : Obligations.ComputeHighpass := computes_of_formula (k := .highpass) fun _ => rfl

/-- Settles O36: the statement's formula is the model's, with +0 by its encoding. -/
theorem computeBandpassSkirt : Obligations.ComputeBandpassSkirt :=
  computes_of_formula (k := .bandpassSkirt) fun _ => by
    rw [f64_plus_zero]
    rfl

/-- Settles O37: the statement's formula is the model's, with +0 by its encoding. -/
theorem computeBandpassPeak : Obligations.ComputeBandpassPeak :=
  computes_of_formula (k := .bandpassPeak) fun _ => by
    rw [f64_plus_zero]
    rfl

/-- Settles O38: the statement's formula is the model's, with 1 by its encoding. -/
theorem computeNotch : Obligations.ComputeNotch :=
  computes_of_formula (k := .notch) fun _ => by
    rw [show f64 0x3FF0000000000000#64 = one from f64_of_lt_magBound (by norm_num) false]
    rfl

/-- Settles O39: the statement's formula is the model's, unfolded. -/
theorem computeAllpass : Obligations.ComputeAllpass := computes_of_formula (k := .allpass) fun _ => rfl

/-- Settles O40: the statement's formula is the model's, unfolded. -/
theorem computePeaking : Obligations.ComputePeaking := computes_of_formula (k := .peaking) fun _ => rfl

/-- Settles O41: the statement's formula is the model's, unfolded. -/
theorem computeLowShelf : Obligations.ComputeLowShelf := computes_of_formula (k := .lowShelf) fun _ => rfl

/-- Settles O42: the statement's formula is the model's, unfolded. -/
theorem computeHighShelf : Obligations.ComputeHighShelf := computes_of_formula (k := .highShelf) fun _ => rfl

end Sys2Proof.Machine
end

section
/-! PROOFS. The transactions of the registers, 42_host_access.md R170 to R197: sample words of the encodings, what the
read of each register returns, and what the write of each one stores. -/

namespace Sys2Proof.Machine

/-! ### Sample words, R81 to R83 -/

/-- Settles O5: each bus word is the descriptor of its row's offset, each command word the code of its kind. -/
theorem sampleWords : Obligations.SampleWords := fun d =>
  ⟨decodeBus_admittedTd true (off := 0x00#8) rfl d, decodeBus_admittedTd false (off := 0x08#8) rfl d,
    decodeBus_admittedTd true (off := 0x20#8) rfl d, decodeBus_admittedTd false (off := 0x68#8) rfl d,
    (decodeBus_admittedTd true (off := 0x78#8) rfl d).trans (decodeOffset_rsvd70 true rfl d),
    (decodeBus_admittedTd false (off := 0xF8#8) rfl d).trans (decodeOffset_rsvd80 false rfl d),
    decodeCmd_of_kind (k := .highpass) rfl, decodeCmd_of_kind (k := .highShelf) rfl⟩

/-! ### Reads, R171 to R189 and R196 -/

/-- Settles O14: each of these rows answers with one field of the state or with 0, and looks neither at the phase nor, on
a reserved row, at the offset. -/
theorem readRegisters : Obligations.ReadRegisters := by
  refine ⟨?sampleRate, ?freq, ?gainDb, ?q, ?b0, ?b1, ?b2, ?a0, ?a1, ?a2, ?cmd, ?rsvd38, fun off => ⟨?rsvd70, ?rsvd80⟩⟩
  case sampleRate | freq | gainDb | q => exact fun _ => rfl
  case b0 | b1 | b2 | a0 | a1 | a2 => exact fun _ => rfl
  case cmd | rsvd38 | rsvd70 | rsvd80 => exact fun _ => rfl

/-- R172: a read of `STATUS` keeps the bits that R25 lists and clears every other. -/
theorem getLsbD_statusRead (st : Word) (j : Nat) :
    (statusRead st).getLsbD j =
      if j < 4 ∨ j = 8 ∨ j = 9 ∨ (12 ≤ j ∧ j < 16) then st.getLsbD j else false := by
  rw [statusRead, BitVec.getLsbD_and, getLsbD_statusMask]
  split_ifs with hlisted <;> simp [hlisted]

@[simp] theorem busyBit_statusRead (st : Word) : busyBit (statusRead st) = busyBit st := getLsbD_statusRead st 0
@[simp] theorem doneBit_statusRead (st : Word) : doneBit (statusRead st) = doneBit st := getLsbD_statusRead st 1
@[simp] theorem errBit_statusRead (st : Word) : errBit (statusRead st) = errBit st := getLsbD_statusRead st 2
@[simp] theorem cmdLostBit_statusRead (st : Word) : cmdLostBit (statusRead st) = cmdLostBit st := getLsbD_statusRead st 3

@[simp] theorem errClassField_statusRead (st : Word) : errClassField (statusRead st) = errClassField st := by
  refine BitVec.eq_of_getLsbD_eq fun i hi => ?_
  rw [getLsbD_errClassField _ i hi, getLsbD_errClassField _ i hi, getLsbD_statusRead, if_pos (by omega)]

@[simp] theorem errCauseField_statusRead (st : Word) : errCauseField (statusRead st) = errCauseField st := by
  refine BitVec.eq_of_getLsbD_eq fun i hi => ?_
  rw [getLsbD_errCauseField _ i hi, getLsbD_errCauseField _ i hi, getLsbD_statusRead, if_pos (by omega)]

/-- R174: a read of `CTRL` is `FVAL`, zero-extended. -/
theorem toNat_ctrlRead (ctrl : Word) : (ctrlRead ctrl).toNat = (ctrl.getLsbD 0).toNat := by
  rw [ctrlRead, fvalBit, BitVec.toNat_setWidth, BitVec.toNat_ofBool]
  exact Nat.mod_eq_of_lt ((Bool.toNat_lt _).trans (by norm_num))

/-- Settles O15: the fields of `statusRead` one by one, and the value of `ctrlRead`. -/
theorem readStatusAndControl : Obligations.ReadStatusAndControl := fun s =>
  ⟨⟨statusRead s.status, rfl, busyBit_statusRead _, doneBit_statusRead _, errBit_statusRead _, cmdLostBit_statusRead _,
      errClassField_statusRead _, errCauseField_statusRead _,
      fun j hreserved => (getLsbD_statusRead s.status j).trans (if_neg hreserved)⟩,
    ctrlRead s.ctrl, rfl, toNat_ctrlRead s.ctrl⟩

/-! ### Writes, R170, R173, R175 to R183, R190 to R195 and R197 -/

/-- Settles O17: the four rows store the data word in their field, whatever the phase. -/
theorem writeOperandRegisters : Obligations.WriteOperandRegisters := by
  refine fun w => ⟨?sampleRate, ?freq, ?gainDb, ?q⟩
  case sampleRate | freq | gainDb | q => exact fun _ => rfl

/-- Settles O18: the two rows write `ctrlWrite` and `statusW1C`, which are known bit by bit. -/
theorem writeStatusAndControl : Obligations.WriteStatusAndControl := fun w s =>
  ⟨⟨_, rfl, rfl, getLsbD_ctrlWrite s.ctrl w⟩, _, rfl, rfl, getLsbD_statusW1C s.status w⟩

/-- Settles O20: in phase BUSY the row is `dropCommand`, which sets bit 3 of `STATUS`. -/
theorem dropCommand : Obligations.DropCommand := fun w s hp =>
  ⟨_, exec_wrCmd_busy w hp, rfl, getLsbD_statusDropped s.status⟩

/-- A row whose meaning is `ignoreWrite` completes with OK and changes nothing (R190). -/
theorem writes_id_of_ignoreWrite {i : Instr} {w : Word} (h : ∀ s, exec i s = .next (ignoreWrite w s)) : Writes i id := h

/-- Settles O21: each of these rows is `ignoreWrite`; a reserved row does not look at its offset. -/
theorem ignoredWrites : Obligations.IgnoredWrites := by
  refine fun w => ⟨?b0, ?b1, ?b2, ?a0, ?a1, ?a2, ?rsvd38, fun off => ⟨?rsvd70, ?rsvd80⟩⟩
  case b0 | b1 | b2 | a0 | a1 | a2 => exact writes_id_of_ignoreWrite (w := w) fun _ => rfl
  case rsvd38 | rsvd70 | rsvd80 => exact writes_id_of_ignoreWrite (w := w) fun _ => rfl

end Sys2Proof.Machine
end

section
/-! PROOFS. Exceptions, 60_exceptions.md: that no state is stuck (R236), the fault mark of `AccessError` (R224), and the
command error record in `STATUS` (R221 to R223). -/

namespace Sys2Proof.Machine

/-! ### Every step answers a next state or refuses a reserved code, R236 and I11 -/

theorem agentStep_answers_next (e : Event) (s : State) : ∃ t, agentStep e s = .next t := by
  cases e with
  | bus td d =>
    rw [agentStep]
    cases hd : decodeBus td d with
    | ok i =>
      rw [busStep_ok s hd]
      exact exec_answers_next i s
    | error e => exact ⟨_, busStep_error s hd⟩
  | complete =>
    cases hp : s.phase with
    | idle => exact ⟨_, engineStep_idle hp⟩
    | busy => exact ⟨_, engineStep_busy hp⟩
  | reset => exact ⟨_, rfl⟩

theorem step_answers_next {s : State} (h : reservedCode s.status = false) : ∃ t, step s = .next t := by
  cases hs : s.schedule with
  | cons e rest =>
    rw [step_cons h hs]
    exact agentStep_answers_next e _
  | nil =>
    cases hp : s.phase with
    | idle => exact ⟨_, step_nil_idle h hs hp⟩
    | busy => exact ⟨_, (step_nil_busy h hs hp).trans (engineStep_busy hp)⟩

theorem step_refused {s : State} (h : reservedCode s.status = true) : step s = .refused .reservedErrorCode :=
  if_pos h

/-- Settles O8: the step looks for a reserved code first, and without one whichever agent's step comes answers. -/
theorem onlyReservedCodesRefuse : Obligations.OnlyReservedCodesRefuse := by
  refine fun s => ⟨fun hn => step_answers_next hn.reservedCode, fun hn => step_refused ?_⟩
  rw [← Bool.not_eq_false, reservedCode_eq_false]
  exact hn

/-! ### The fault mark, R224 -/

theorem admitted_eq_false_of_decodeBus_error {td : Descriptor} {d : Word} {e : Reject} (h : decodeBus td d = .error e) :
    td.admitted = false := by
  rw [Bool.eq_false_iff]
  intro hadm
  obtain ⟨we, k, rfl⟩ := (admitted_iff_exists_make td).1 hadm
  obtain ⟨-, -, i, hi, -⟩ := exists_accepting_row we k d
  rw [hi] at h
  cases h

/-- The fault mark after a step: set if the event was a transaction that is not admitted, and otherwise as before. -/
theorem step_faultMark {s t : State} (h : step s = .next t) :
    (∃ td d rest, s.schedule = .bus td d :: rest ∧ td.admitted = false ∧ t.faultMark = some .accessError) ∨
    ((∀ td d rest, s.schedule = .bus td d :: rest → td.admitted = true) ∧ t.faultMark = s.faultMark) := by
  obtain ⟨-, ⟨td, d, rest, i, hs, hd, he⟩ | ⟨td, d, rest, e, hs, hd, rfl⟩ | ⟨rest, hs, -, rfl⟩ | ⟨rest, hs, -, rfl⟩ |
    ⟨rest, hs, rfl⟩ | ⟨hs, -, rfl⟩⟩ := step_cases h
  · obtain ⟨hadm, -, hbus, -⟩ := decodeBus_ok hd
    obtain ⟨-, hmark, -⟩ := exec_bus_environment hbus he
    refine .inr ⟨fun td' d' rest' hs' => ?_, hmark⟩
    rw [hs] at hs'
    cases hs'
    exact hadm
  · exact .inl ⟨td, d, rest, hs, admitted_eq_false_of_decodeBus_error hd, rfl⟩
  · obtain ⟨-, hmark, -⟩ := complete_environment { s with schedule := rest } (evaluate prim s.snap)
    exact .inr ⟨by rcases hs with hs | ⟨hs, -⟩ <;> simp [hs], hmark⟩
  all_goals exact .inr ⟨by simp [hs], rfl⟩

/-- Settles O10: after a step the mark is either set, by a transaction that is not admitted, or as before. -/
theorem faultMarkIsSticky : Obligations.FaultMarkIsSticky := by
  intro s t h
  rcases step_faultMark h with ⟨td, d, rest, hs, hbad, hset⟩ | ⟨hadm, hkept⟩
  · refine ⟨fun _ => hset, fun hall => ?_, fun _ => hset⟩
    rw [hall td d rest hs] at hbad
    cases hbad
  · refine ⟨fun ⟨td, d, rest, hs, hbad⟩ => ?_, fun _ => hkept, hkept.trans⟩
    rw [hadm td d rest hs] at hbad
    cases hbad

/-! ### The command error record, R221 to R223 -/

/-- R221: the error record writes every field of `STATUS` but `CMDLOST`, so a read after it shows no other old bit. -/
theorem statusRead_statusError_congr {st st' : Word} (h : cmdLostBit st = cmdLostBit st') (c : Cause) :
    statusRead (statusError st c) = statusRead (statusError st' c) := by
  refine BitVec.eq_of_getLsbD_eq fun j _ => ?_
  simp only [getLsbD_statusRead, getLsbD_statusError]
  split_ifs
  case neg =>
    obtain rfl : j = 3 := by omega
    exact h
  all_goals rfl

/-- The error record as a read returns it: `DONE` and `ERR`, the class from bit 8 and the cause from bit 12 on, and
`CMDLOST` as before. -/
theorem toNat_statusRead_statusError (st : Word) (c : Cause) :
    (statusRead (statusError st c)).toNat =
      (if cmdLostBit st then 8 else 0) + (0x1000 * c.code.toNat + 0x100 * c.errClass.toNat + 6) := by
  have hbit : cmdLostBit st = cmdLostBit (if cmdLostBit st then 8#64 else 0#64) := by cases cmdLostBit st <;> rfl
  rw [statusRead_statusError_congr hbit]
  cases cmdLostBit st <;> cases c <;> rfl

/-- Settles O26: the codes are read off their tables, and the value of the error record follows from code and class. -/
theorem errorRecordValue : Obligations.ErrorRecordValue := by
  refine ⟨rfl, fun s t c hp hc h => ?_⟩
  rw [engineStep_busy hp, hc] at h
  cases h
  exact (toNat_statusRead_statusError s.status c).trans (by cases c <;> rfl)

/-- Settles O27: a word above 8 fails check 1, before any operand is looked at. -/
theorem unsupportedKind : Obligations.UnsupportedKind := by
  intro s hp hkind
  have hstep : engineStep s = .next (s.complete (.failed .kindUnsupported)) := by
    rw [engineStep_busy hp, evaluate_of_no_kind prim hkind]
  refine ⟨_, hstep, complete_failed s .kindUnsupported, BitVec.eq_of_toNat_eq ?_⟩
  refine (toNat_statusRead_statusError s.status .kindUnsupported).trans ?_
  cases cmdLostBit s.status <;> rfl

end Sys2Proof.Machine
end

section
/-! PROOFS. Reset and hazards, 70_reset_and_hazards.md: the reset values (R250), reset while BUSY (R251), operand writes
after accept (R258), and the end of a run (R263, R265). -/

namespace Sys2Proof.Machine

/-! ### The reset values, R250 -/

/-- The reset value of `SAMPLE_RATE` by its fields: exponent 2^15, significand 1.46484375. -/
theorem toRat_reset_sampleRate : (f64 State.reset.sampleRate).toRat = 48000 := by
  have hpow : (2 : ℚ) ^ 0x40E = 2 ^ 15 * 2 ^ 1023 := by rw [← pow_add]
  refine (toRat_f64_fields false (e := 0x40E) (f := 0x7700000000000) (by norm_num) (by norm_num)).trans ?_
  rw [hpow, ← mul_assoc, mul_div_cancel_right₀ _ (by positivity)]
  norm_num

/-- Settles O13: but for the value of `SAMPLE_RATE` as a number, each clause is a field of `State.reset`. -/
theorem resetState : Obligations.ResetState :=
  ⟨rfl, rfl, rfl, toRat_reset_sampleRate, rfl, rfl, rfl, rfl, rfl, rfl, rfl, rfl⟩

@[simp] theorem State.resetBlock_registerAt (s : State) (off : Offset) :
    s.resetBlock.registerAt off = if off = 0x18#8 then 0x40E7700000000000#64 else 0#64 := by
  have hstatus : statusRead 0#64 = 0#64 := by decide
  have hctrl : ctrlRead 0#64 = 0#64 := by decide
  by_cases hoff : off = 0x18#8
  · subst hoff
    rfl
  · simp [State.registerAt, State.reset, hstatus, hctrl, hoff]

/-! ### The reset event, R250 and R251 -/

theorem step_reset {s : State} {rest : List Event} (hn : s.NoReservedCode) (hs : s.schedule = .reset :: rest) :
    step s = .next ({ s with schedule := rest } : State).resetBlock :=
  step_cons hn.reservedCode hs

/-- Settles O11: the step is `resetBlock`, whatever the phase. -/
theorem resetEvent : Obligations.ResetEvent := fun _ _ hn hs =>
  ⟨_, step_reset hn hs, rfl, rfl, rfl, rfl, rfl, rfl, rfl, rfl, rfl, rfl, rfl, rfl, rfl, rfl, rfl, rfl,
    State.resetBlock_registerAt _⟩

/-- In phase IDLE a completion point passes without a step of the engine (R235, log 3). -/
theorem step_complete_idle {s : State} {rest : List Event} (hn : reservedCode s.status = false) (hp : s.phase = .idle)
    (hs : s.schedule = .complete :: rest) : step s = .next { s with schedule := rest } := by
  rw [step_cons hn hs, agentStep]
  exact engineStep_idle hp

/-- R251: a command accepted right after reset snapshots the reset values of the operand registers, with `FVAL` 0. -/
theorem takeSnap_resetBlock (s : State) (w : Word) :
    s.resetBlock.takeSnap w =
      { kind := w, f := 0#64, g := 0#64, q := 0#64, fs := 0x40E7700000000000#64, fval := false } := by
  have hfval : fvalBit 0#64 = false := by decide
  simp [State.takeSnap, State.reset, hfval]

/-- Settles O12: after `resetBlock` the phase is IDLE, so a completion point passes and a `CMD` write is accepted. -/
theorem resetAbandonsCommand : Obligations.ResetAbandonsCommand := fun _ _ hn _ hs =>
  ⟨_, step_reset hn hs, rfl, rfl, fun _ hrest => step_complete_idle (State.legal_resetBlock _).reservedCode rfl hrest,
    fun w => ⟨_, exec_wrCmd_idle w rfl, rfl, takeSnap_resetBlock _ w⟩⟩

/-! ### Operand writes after accept, R258 -/

/-- A state update that the completion step does not notice and that does not notice the completion step. -/
def CommutesWithCompletion (f : State → State) : Prop :=
  ∀ s, (f s).phase = s.phase ∧ (f s).snap = s.snap ∧ ∀ r, (f s).complete r = f (s.complete r)

/-- The completion step computes from `snap`, so it has the same outcome before and after such an update. -/
theorem CommutesWithCompletion.exec_engineStep {f : State → State} (hf : CommutesWithCompletion f) {i : Instr}
    (hi : ∀ s, exec i s = .next (f s)) {s : State} (hp : s.phase = .busy) :
    ∃ t u v, exec i s = .next t ∧ engineStep t = .next u ∧ engineStep s = .next v ∧ exec i v = .next u := by
  obtain ⟨hphase, hsnap, hcomplete⟩ := hf s
  refine ⟨_, _, _, hi s, engineStep_busy (hphase.trans hp), engineStep_busy hp, ?_⟩
  rw [hi, hsnap, hcomplete]

/-- A write of an operand register changes that register and the answers, which no completion step reads or writes. -/
theorem exec_operandWrite {i : Instr} {w : Word}
    (hi : i ∈ [Instr.wrFreq w, .wrGainDb w, .wrQ w, .wrSampleRate w, .wrCtrl w]) :
    ∃ f, (∀ s, exec i s = .next (f s)) ∧ CommutesWithCompletion f := by
  simp only [List.mem_cons, List.not_mem_nil, or_false] at hi
  rcases hi with rfl | rfl | rfl | rfl | rfl
  all_goals exact ⟨_, fun _ => rfl, fun _ => ⟨rfl, rfl, fun r => by cases r <;> rfl⟩⟩

/-- Settles O33: each of the five writes is an update that commutes with the completion step. -/
theorem operandWritesCommuteWithCompletion : Obligations.OperandWritesCommuteWithCompletion := by
  intro i w s hp hi
  obtain ⟨f, hexec, hf⟩ := exec_operandWrite hi
  exact hf.exec_engineStep hexec hp

/-! ### The end of a run, R263 and R265 -/

theorem run_succ_of_step {s t : State} (h : step s = .next t) (n : Nat) : s.run (n + 1) = t.run n := by
  simp only [State.run, h]

theorem run_legal {n : Nat} {s t : State} (hl : s.Legal) (h : s.run n = .next t) : t.Legal := by
  induction n generalizing s with
  | zero =>
    cases h
    exact hl
  | succ n ih =>
    obtain ⟨u, hu, hrun⟩ := run_succ_next h
    exact ih (legalIsInvariant s u hl hu) hrun

/-- A step takes its event off the schedule. -/
theorem step_cons_schedule {s t : State} {e : Event} {rest : List Event} (hl : s.Legal) (hs : s.schedule = e :: rest)
    (h : step s = .next t) : t.schedule = rest := by
  rw [step_cons hl.reservedCode hs] at h
  exact (agentStep_answers h).1

/-- One step for each event and one for a command still in flight leave nothing to happen. -/
theorem run_exhausts_schedule {s : State} (hl : s.Legal) :
    ∃ t, s.run (s.schedule.length + 1) = .next t ∧ t.schedule = [] ∧ t.phase = .idle := by
  generalize hs : s.schedule = l
  induction l generalizing s with
  | nil =>
    cases hp : s.phase with
    | idle => exact ⟨s, run_succ_of_step (step_nil_idle hl.reservedCode hs hp) 0, hs, hp⟩
    | busy =>
      have hstep := (step_nil_busy hl.reservedCode hs hp).trans (engineStep_busy hp)
      obtain ⟨hschedule, -, -⟩ := complete_environment s (evaluate prim s.snap)
      exact ⟨_, run_succ_of_step hstep 0, hschedule.trans hs, complete_phase s _⟩
  | cons e rest ih =>
    obtain ⟨u, hu⟩ := step_answers_next hl.reservedCode
    obtain ⟨t, hrun, ht⟩ := ih (legalIsInvariant s u hl hu) (step_cons_schedule hl hs hu)
    exact ⟨t, (run_succ_of_step hu _).trans hrun, ht⟩

/-- `t` is the first state of the run from `s` in which the run is over, and it comes after `n` steps. -/
def FirstEnd (s : State) (n : Nat) (t : State) : Prop :=
  s.run n = .next t ∧ t.runEnded ∧ ∀ m, m < n → ∃ u, s.run m = .next u ∧ ¬ u.runEnded

theorem FirstEnd.zero {s : State} (h : s.runEnded) : FirstEnd s 0 s :=
  ⟨rfl, h, fun m hm => absurd hm m.not_lt_zero⟩

theorem FirstEnd.succ {s u t : State} {n : Nat} (hs : ¬ s.runEnded) (hu : step s = .next u) (h : FirstEnd u n t) :
    FirstEnd s (n + 1) t := by
  obtain ⟨hrun, hended, hbefore⟩ := h
  refine ⟨(run_succ_of_step hu n).trans hrun, hended, fun m hm => ?_⟩
  cases m with
  | zero => exact ⟨s, rfl, hs⟩
  | succ m =>
    obtain ⟨v, hv, hnot⟩ := hbefore m (Nat.lt_of_succ_lt_succ hm)
    exact ⟨v, (run_succ_of_step hu m).trans hv, hnot⟩

/-- A run that is over after `N` steps has a first state in which it is, and `runToEnd` finds it. -/
theorem exists_firstEnd {N : Nat} {s e : State} (hrun : s.run N = .next e) (he : e.runEnded) :
    ∃ n t, n ≤ N ∧ FirstEnd s n t ∧ s.runToEnd N = .next t := by
  induction N generalizing s with
  | zero =>
    cases hrun
    exact ⟨0, _, Nat.le_refl 0, .zero he, rfl⟩
  | succ N ih =>
    by_cases hs : s.runEnded
    · exact ⟨0, s, Nat.zero_le _, .zero hs, State.runToEnd_ended hs _⟩
    · obtain ⟨u, hu, hrest⟩ := run_succ_next hrun
      obtain ⟨n, t, hn, hfirst, hend⟩ := ih hrest
      exact ⟨n + 1, t, Nat.succ_le_succ hn, hfirst.succ hs hu, (State.runToEnd_step hs hu N).trans hend⟩

theorem runEnded_of_schedule_nil {s : State} (hs : s.schedule = []) (hp : s.phase = .idle) : s.runEnded :=
  ⟨by rw [hs]; rfl, hp⟩

theorem endObservation_of_runEnded {s : State} (h : s.runEnded) :
    s.endObservation = if s.noAccessError then some s.observation else none :=
  if_congr (and_iff_right h) rfl rfl

/-- Settles O52: the run exhausts its schedule, so it is over at some step; the first such state is where the
observation is taken. -/
theorem everyRunEnds : Obligations.EveryRunEnds := by
  intro s hl
  obtain ⟨e, hrun, hschedule, hidle⟩ := run_exhausts_schedule hl
  obtain ⟨n, t, hn, hfirst, hend⟩ := exists_firstEnd hrun (runEnded_of_schedule_nil hschedule hidle)
  obtain ⟨hfirstRun, hended, hbefore⟩ := hfirst
  refine ⟨⟨e, hrun, hschedule, hidle, run_legal hl hrun⟩,
    n, t, hn, hfirstRun, hended, run_legal hl hfirstRun, hbefore, ?_⟩
  rw [State.runObservation, hend]
  exact endObservation_of_runEnded hended

end Sys2Proof.Machine
end
